-- ==== Sys2Proof/Word.lean ====
section
/-! DEFINITION. The word types of the HUFF codec core (00_scope.md R6, R9). -/

namespace Sys2Proof

/-- A register, a command word, or a position in SRC or DST: 32 bits (10_state.md R23, `ADDR_W` of 00_scope.md R6). -/
abbrev Word := BitVec 32

/-- A byte of SRC or DST (20_memory.md R70). -/
abbrev Byte := BitVec 8

/-- A symbol: 0..255 are data bytes, 256 is the terminator (00_scope.md R6 `NSYM`, R14). -/
abbrev Symbol := Fin 257

/-- The terminator symbol (00_scope.md R6 `TERM`). -/
def terminator : Symbol := 256

/-- The data symbol of a byte value (00_scope.md R14). -/
def byteSymbol (b : Byte) : Symbol := ⟨b.toNat, Nat.lt_trans b.isLt (by decide)⟩

/-- The symbols 0 to 256 in ascending order (`for s in 0..256`, 00_scope.md R11). -/
def allSymbols : List Symbol := List.finRange 257

end Sys2Proof
end

