-- ==== Sys2Proof/Syntax.lean ====
section
/-! DEFINITION. The command set HUFF-CMD version 1: one constructor per row of the opcode map (30_encoding.md R92). -/

namespace Sys2Proof

/-- A command, with its operands as the word encodes them (30_encoding.md R90, R91). An `arg` is the 10-bit field ARG:
a symbol (well-formed up to 256) or a node index (any value, checked against `nodeCount` when the command runs). -/
inductive Instr where
  /-- NOP (47_control.md R274). -/
  | nop
  /-- SOFT_RESET (47_control.md R276); `ignored` is bits [31:8] of its word, which nothing reads (30_encoding.md R95). -/
  | softReset (ignored : BitVec 24)
  /-- FT_CLEAR (41_frequency_table.md R130). -/
  | ftClear
  /-- FT_ANALYZE (41_frequency_table.md R131). -/
  | ftAnalyze
  /-- FT_ADD_TERMINATOR (41_frequency_table.md R133). -/
  | ftAddTerminator
  /-- FT_SERIALIZE (41_frequency_table.md R134). -/
  | ftSerialize
  /-- FT_DESERIALIZE (41_frequency_table.md R136). -/
  | ftDeserialize
  /-- FT_READ s (41_frequency_table.md R139). -/
  | ftRead (arg : BitVec 10)
  /-- FT_WRITE s (41_frequency_table.md R140). -/
  | ftWrite (arg : BitVec 10)
  /-- TB_BUILD (42_tree_builder.md R160). -/
  | tbBuild
  /-- TB_READNODE i (42_tree_builder.md R166). -/
  | tbReadnode (arg : BitVec 10)
  /-- CT_BUILD (43_code_table.md R180). -/
  | ctBuild
  /-- CT_READ s (43_code_table.md R185). -/
  | ctRead (arg : BitVec 10)
  /-- ENC_SYMBOL s (44_compress.md R200). -/
  | encSymbol (arg : BitVec 10)
  /-- COMPRESS (44_compress.md R205). -/
  | compress
  /-- DEC_SYMBOL (45_decompress.md R222). -/
  | decSymbol
  /-- DECOMPRESS (45_decompress.md R228). -/
  | decompress
  /-- BW_INIT (46_bitstream.md R240). -/
  | bwInit
  /-- BW_PUTBIT b (46_bitstream.md R242). -/
  | bwPutbit (bit : Bool)
  /-- BW_FLUSH (46_bitstream.md R243). -/
  | bwFlush
  /-- BR_INIT (46_bitstream.md R245). -/
  | brInit
  /-- BR_GETBIT (46_bitstream.md R250). -/
  | brGetbit
  deriving DecidableEq, Repr

end Sys2Proof
end

