-- ==== Sys2Proof/WellFormed.lean ====
section
/-! DEFINITION. Which commands are well-formed: a symbol operand is at most 256 (30_encoding.md R91, R94). -/

namespace Sys2Proof

/-- An operand of class `sym` is a symbol: `ARG <= 256` (30_encoding.md R91). -/
def isSymbolArg (arg : BitVec 10) : Bool := decide (arg.toNat ≤ 256)

/-- The word of a well-formed command is legal (30_encoding.md R94). -/
def Instr.wellFormed : Instr → Bool
  | .nop => true
  | .softReset _ => true
  | .ftClear => true
  | .ftAnalyze => true
  | .ftAddTerminator => true
  | .ftSerialize => true
  | .ftDeserialize => true
  | .ftRead arg => isSymbolArg arg
  | .ftWrite arg => isSymbolArg arg
  | .tbBuild => true
  | .tbReadnode _ => true
  | .ctBuild => true
  | .ctRead arg => isSymbolArg arg
  | .encSymbol arg => isSymbolArg arg
  | .compress => true
  | .decSymbol => true
  | .decompress => true
  | .bwInit => true
  | .bwPutbit _ => true
  | .bwFlush => true
  | .brInit => true
  | .brGetbit => true

end Sys2Proof
end

