-- ==== Sys2Proof/Decode.lean ====
section
/-! DEFINITION. The decoder of command words and, after it, the encoder (30_encoding.md R90 to R96). -/

namespace Sys2Proof

/-- `OP = w[7:0]` (30_encoding.md R91). -/
def opField (w : Word) : BitVec 8 := w.extractLsb' 0 8

/-- `B = w[8]` (30_encoding.md R91). -/
def bField (w : Word) : BitVec 1 := w.extractLsb' 8 1

/-- The reserved field `w[15:9]` (30_encoding.md R90). -/
def lowReserved (w : Word) : BitVec 7 := w.extractLsb' 9 7

/-- `ARG = w[25:16]` (30_encoding.md R91). -/
def argField (w : Word) : BitVec 10 := w.extractLsb' 16 10

/-- The reserved field `w[31:26]` (30_encoding.md R90). -/
def highReserved (w : Word) : BitVec 6 := w.extractLsb' 26 6

/-- Bits [31:8], which SOFT_RESET ignores (30_encoding.md R95). -/
def ignoredField (w : Word) : BitVec 24 := w.extractLsb' 8 24

/-- Class `none`: B and ARG are 0 (30_encoding.md R91); otherwise the word is illegal (R94). -/
def classNone (i : Instr) (w : Word) : Option Instr :=
  if bField w = 0 ∧ argField w = 0 then some i else none

/-- Class `sym`: B is 0 and ARG is a symbol (30_encoding.md R91). -/
def classSym (mk : BitVec 10 → Instr) (w : Word) : Option Instr :=
  if bField w = 0 ∧ isSymbolArg (argField w) then some (mk (argField w)) else none

/-- Class `node`: B is 0 and ARG is any node index (30_encoding.md R91). -/
def classNode (mk : BitVec 10 → Instr) (w : Word) : Option Instr :=
  if bField w = 0 then some (mk (argField w)) else none

/-- Class `bit`: ARG is 0 and B is the operand (30_encoding.md R91). -/
def classBit (mk : Bool → Instr) (w : Word) : Option Instr :=
  if argField w = 0 then some (mk (bField w == 1)) else none

/-- The opcode map, for a word whose reserved fields are 0 (30_encoding.md R92). -/
def decodeOp (w : Word) : Option Instr :=
  match (opField w).toNat with
  | 0x00 => classNone .nop w
  | 0x10 => classNone .ftClear w
  | 0x11 => classNone .ftAnalyze w
  | 0x12 => classNone .ftAddTerminator w
  | 0x13 => classNone .ftSerialize w
  | 0x14 => classNone .ftDeserialize w
  | 0x15 => classSym .ftRead w
  | 0x16 => classSym .ftWrite w
  | 0x20 => classNone .tbBuild w
  | 0x21 => classNode .tbReadnode w
  | 0x28 => classNone .ctBuild w
  | 0x29 => classSym .ctRead w
  | 0x30 => classSym .encSymbol w
  | 0x31 => classNone .compress w
  | 0x38 => classNone .decSymbol w
  | 0x39 => classNone .decompress w
  | 0x40 => classNone .bwInit w
  | 0x41 => classBit .bwPutbit w
  | 0x42 => classNone .bwFlush w
  | 0x48 => classNone .brInit w
  | 0x49 => classNone .brGetbit w
  | _ => none

/-- The command a word encodes; `none` is an illegal word (30_encoding.md R94). SOFT_RESET is recognised by OP alone,
before any other bit is looked at (R95). -/
def decode (w : Word) : Option Instr :=
  if opField w = 0x01 then some (.softReset (ignoredField w))
  else if lowReserved w = 0 ∧ highReserved w = 0 then decodeOp w
  else none

/-- The opcode of a command (30_encoding.md R92). -/
def Instr.opcode : Instr → BitVec 8
  | .nop => 0x00
  | .softReset _ => 0x01
  | .ftClear => 0x10
  | .ftAnalyze => 0x11
  | .ftAddTerminator => 0x12
  | .ftSerialize => 0x13
  | .ftDeserialize => 0x14
  | .ftRead _ => 0x15
  | .ftWrite _ => 0x16
  | .tbBuild => 0x20
  | .tbReadnode _ => 0x21
  | .ctBuild => 0x28
  | .ctRead _ => 0x29
  | .encSymbol _ => 0x30
  | .compress => 0x31
  | .decSymbol => 0x38
  | .decompress => 0x39
  | .bwInit => 0x40
  | .bwPutbit _ => 0x41
  | .bwFlush => 0x42
  | .brInit => 0x48
  | .brGetbit => 0x49

/-- A command word from its operand fields, with the reserved fields 0 (30_encoding.md R90). -/
def commandWord (arg : BitVec 10) (b : BitVec 1) (op : BitVec 8) : Word :=
  (0#6 ++ arg ++ 0#7 ++ b ++ op)

/-- The word of a command (30_encoding.md R90, R92). -/
def encode : Instr → Word
  | .softReset ignored => ignored ++ 0x01#8
  | .ftRead arg => commandWord arg 0 0x15
  | .ftWrite arg => commandWord arg 0 0x16
  | .tbReadnode arg => commandWord arg 0 0x21
  | .ctRead arg => commandWord arg 0 0x29
  | .encSymbol arg => commandWord arg 0 0x30
  | .bwPutbit bit => commandWord 0 (BitVec.ofBool bit) 0x41
  | .nop => commandWord 0 0 0x00
  | .ftClear => commandWord 0 0 0x10
  | .ftAnalyze => commandWord 0 0 0x11
  | .ftAddTerminator => commandWord 0 0 0x12
  | .ftSerialize => commandWord 0 0 0x13
  | .ftDeserialize => commandWord 0 0 0x14
  | .tbBuild => commandWord 0 0 0x20
  | .ctBuild => commandWord 0 0 0x28
  | .compress => commandWord 0 0 0x31
  | .decSymbol => commandWord 0 0 0x38
  | .decompress => commandWord 0 0 0x39
  | .bwInit => commandWord 0 0 0x40
  | .bwFlush => commandWord 0 0 0x42
  | .brInit => commandWord 0 0 0x48
  | .brGetbit => commandWord 0 0 0x49

/-- One row of the opcode map as the table prints it (30_encoding.md R92). -/
abbrev OpcodeRow := Word × Word × Bool

/-- The match value, the mask, and whether ARG must also be a symbol, of the 22 rows (30_encoding.md R92). -/
def opcodeRows : List OpcodeRow :=
  [(0x00000000, 0xFFFFFFFF, false), (0x00000001, 0x000000FF, false), (0x00000010, 0xFFFFFFFF, false),
   (0x00000011, 0xFFFFFFFF, false), (0x00000012, 0xFFFFFFFF, false), (0x00000013, 0xFFFFFFFF, false),
   (0x00000014, 0xFFFFFFFF, false), (0x00000015, 0xFC00FFFF, true), (0x00000016, 0xFC00FFFF, true),
   (0x00000020, 0xFFFFFFFF, false), (0x00000021, 0xFC00FFFF, false), (0x00000028, 0xFFFFFFFF, false),
   (0x00000029, 0xFC00FFFF, true), (0x00000030, 0xFC00FFFF, true), (0x00000031, 0xFFFFFFFF, false),
   (0x00000038, 0xFFFFFFFF, false), (0x00000039, 0xFFFFFFFF, false), (0x00000040, 0xFFFFFFFF, false),
   (0x00000041, 0xFFFFFEFF, false), (0x00000042, 0xFFFFFFFF, false), (0x00000048, 0xFFFFFFFF, false),
   (0x00000049, 0xFFFFFFFF, false)]

/-- "A word `w` selects an opcode row when `w AND mask = match`", with the symbol check of a `sym` row (30_encoding.md R92). -/
def selectsRow (w : Word) (r : OpcodeRow) : Bool :=
  (w &&& r.2.1 == r.1) && (!r.2.2 || isSymbolArg (argField w))

/-- The command that a word of the opcode table decodes to; `w` holds the row's `nbits` bits, the bits above are 0, and a
command is one 32-bit word (30_encoding.md R96). -/
def decodeTableWord (nbits w : Nat) : Option Instr :=
  decode (BitVec.ofNat 32 (w % 2 ^ nbits))

end Sys2Proof
end

