-- ==== Sys2Proof/Config.lean ====
section
/-! DEFINITION. What this hardware fixes (00_scope.md R6) and the free values the spec leaves open. -/

namespace Sys2Proof.Config

/-- The largest legal count, 2^31 - 2 (00_scope.md R6 `MAX_COUNT`). -/
def maxCount : Nat := 0x7FFFFFFE

/-- The size of the node arena (00_scope.md R6 `MAX_NODES`). -/
def maxNodes : Nat := 513

/-- The value of the read-only register ID, ASCII "HUFF" (10_state.md R25). -/
def idValue : Word := 0x48554646

/-- The size in bytes of the register window (10_state.md R23). -/
def windowBytes : Nat := 256

/-- DESIGN CHOICE (log entry 4): what a byte of SRC or DST that the state does not list reads as. -/
def unlistedByte : Byte := 0

/-- FREE VALUE (70_reset_and_hazards.md R351, log entry 7): the beat after which a running command is stopped. -/
opaque stopBeat : Nat → Nat

/-- FREE VALUE (70_reset_and_hazards.md R352, log entry 8): whether a raced byte shows its new value. -/
opaque raceShowsNew : Nat → Bool

/-- FREE VALUE (70_reset_and_hazards.md R350, log entry 9): what a register read while `BUSY = 1` returns. -/
opaque busyReadValue : Nat → Word

/-- FREE VALUE (log entry 9): how many of the host's reads while a SOFT_RESET runs fall before it clears ERR_STICKY. -/
opaque readsBeforeClear : Nat → Nat

end Sys2Proof.Config
end

