-- ==== Sys2Proof/Machine/State.lean ====
section
/-! DEFINITION. The state of the HUFF codec core and of the memories its host owns, as plain data (10_state.md). -/

namespace Sys2Proof.Machine

/-- Why a step stops with a fault. -/
inductive Fault where
  /-- Raised by CT_BUILD, DEC_SYMBOL and the composites over them, when the arena breaks 10_state.md R36 (a child index
  that is no entry of the arena, a cycle). SAFE: the spec's invariant R36 rules it out, and no run reaches it. -/
  | arenaBroken
  deriving DecidableEq, Repr

/-- Why a step has no meaning. -/
inductive Refusal where
  /-- Raised by `exec` only, for an instruction without a meaning yet. SAFE. -/
  | notModelled (mnemonic : String)
  /-- Raised by the bus for a host access of another width or at an unaligned offset: "A model refuses it" (10_state.md R24). SAFE. -/
  | oddAccess
  /-- Raised by the bus for a register access whose address is not in the window at REG_BASE: the core is not selected
  (20_memory.md R71). SAFE. -/
  | outsideWindow
  deriving DecidableEq, Repr

/-- The parameters of 00_scope.md R6, R7 and 20_memory.md R71; no step changes them (log entry 3). -/
structure Params where
  /-- PLATFORM_LE. -/
  platformLE : Bool
  /-- REG_BASE, the platform address of the register window. -/
  regBase : Nat
  deriving DecidableEq, Repr

/-- The fields of STATUS (10_state.md R28). -/
structure Status where
  busy : Bool
  err : Bool
  errSticky : Bool
  errCode : BitVec 4
  lastOp : BitVec 8
  deriving DecidableEq, Repr

/-- The fields of IRQ (10_state.md R41). -/
structure Irq where
  ie : Bool
  pend : Bool
  deriving DecidableEq, Repr

/-- The registers the host writes (10_state.md R29, R30, R31). -/
structure Ports where
  srcPos : Word
  srcLen : Word
  dstPos : Word
  dstCap : Word
  dataIn : Word
  deriving DecidableEq, Repr

/-- The registers that hold a command's results (10_state.md R32, R37). -/
structure Results where
  result : Word
  result2 : Word
  result3 : Word
  codeBits : Vector Word 8
  deriving DecidableEq, Repr

/-- One arena entry (10_state.md R35): a leaf has a symbol, an internal node two children, and both have a weight. -/
inductive Node where
  | leaf (weight : BitVec 40) (sym : Symbol)
  | internal (weight : BitVec 40) (left right : BitVec 10)
  deriving DecidableEq, Repr

/-- The tree (10_state.md R34, R35). `arena` lists the entries whose value the spec specifies, from index 0; the others hold
unspecified values that no command reads (log entry 5). -/
structure Tree where
  valid : Bool
  root : BitVec 10
  nodeCount : BitVec 10
  arena : List Node
  deriving DecidableEq, Repr

/-- One code-table entry (10_state.md R37): code bit `c_i` is bit `i` of `bits`. -/
structure Code where
  present : Bool
  len : BitVec 9
  bits : BitVec 256
  deriving DecidableEq, Repr

/-- The code table and `codesValid` (10_state.md R37). -/
structure Codes where
  valid : Bool
  entries : Vector Code 257
  deriving DecidableEq, Repr

/-- The bit writer (10_state.md R38). -/
structure BitWriter where
  n : BitVec 3
  buf : BitVec 8
  deriving DecidableEq, Repr

/-- The bit reader (10_state.md R39). -/
structure BitReader where
  rem : BitVec 4
  cur : BitVec 8
  deriving DecidableEq, Repr

/-- The hidden sequencer state (10_state.md R40), which exists only while a command runs. `stopAt` and `races` are the
model's own: what the host's accesses during the running command bring about (log entries 7, 8). -/
structure Sequencer where
  /-- How many beats the running command has made. -/
  beat : Nat
  /-- `src_start`. -/
  srcStart : Word
  /-- `walk`. -/
  walk : BitVec 10
  /-- The beat boundary at which the running command is stopped, if it is. -/
  stopAt : Option Nat
  /-- The SRC bytes the host writes while the command runs, with their new values. -/
  races : List Host.Cell
  deriving DecidableEq, Repr

/-- The width of a host access to the register window (10_state.md R24). -/
inductive AccessSize where
  | byte
  | half
  | word
  | double
  deriving DecidableEq, Repr

/-- What the host can do to the core and to its own memories (10_state.md R24, 20_memory.md R60, 70_reset_and_hazards.md R340). -/
inductive HostAccess where
  /-- Write a register at a platform address. -/
  | regWrite (size : AccessSize) (addr : Nat) (value : Word)
  /-- Read a register at a platform address. -/
  | regRead (size : AccessSize) (addr : Nat)
  /-- Write a byte of SRC. -/
  | srcWrite (addr : Word) (value : Byte)
  /-- Read a byte of SRC. -/
  | srcRead (addr : Word)
  /-- Write a byte of DST. -/
  | dstWrite (addr : Word) (value : Byte)
  /-- Read a byte of DST. -/
  | dstRead (addr : Word)
  /-- Assert the reset input. -/
  | hardReset
  deriving DecidableEq, Repr

/-- A host access and whether it falls while the command before it still runs (log entry 2). -/
structure HostOp where
  whileBusy : Bool
  access : HostAccess
  deriving DecidableEq, Repr

/-- The host's side, the model's own fields (log entries 2, 12, 19). -/
structure HostSide where
  /-- The accesses the host has still to make, oldest first. -/
  bus : List HostOp
  /-- What the host's reads returned, newest first. -/
  readLog : List Word
  /-- How many free values have been taken. -/
  draws : Nat
  deriving DecidableEq, Repr

/-- The whole machine. -/
structure State where
  par : Params
  status : Status
  irq : Irq
  ports : Ports
  results : Results
  counts : Vector Word 257
  tree : Tree
  codes : Codes
  bw : BitWriter
  br : BitReader
  seq : Sequencer
  src : List Host.Cell
  dst : List Host.Cell
  host : HostSide
  deriving DecidableEq, Repr

/-- The code of a symbol that has none (10_state.md R37, R42). -/
def Code.absent : Code := { present := false, len := 0, bits := 0 }

/-- An empty code table (10_state.md R42). -/
def Codes.empty : Codes := { valid := false, entries := Vector.replicate 257 Code.absent }

/-- No tree (10_state.md R42). -/
def Tree.none : Tree := { valid := false, root := 0, nodeCount := 0, arena := [] }

/-- The sequencer between commands: "none (the core is idle)" (10_state.md R42, log entry 21). -/
def Sequencer.idle : Sequencer := { beat := 0, srcStart := 0, walk := 0, stopAt := none, races := [] }

/-- The result registers after reset (10_state.md R42). -/
def Results.zero : Results := { result := 0, result2 := 0, result3 := 0, codeBits := Vector.replicate 8 0 }

/-- The machine after hardware reset (10_state.md R42), with no host access waiting and no memory byte listed. -/
def State.reset : State where
  par := { platformLE := true, regBase := 0 }
  status := { busy := false, err := false, errSticky := false, errCode := 0, lastOp := 0 }
  irq := { ie := false, pend := false }
  ports := { srcPos := 0, srcLen := 0, dstPos := 0, dstCap := 0, dataIn := 0 }
  results := Results.zero
  counts := Vector.replicate 257 0
  tree := Tree.none
  codes := Codes.empty
  bw := { n := 0, buf := 0 }
  br := { rem := 0, cur := 0 }
  seq := Sequencer.idle
  src := []
  dst := []
  host := { bus := [], readLog := [], draws := 0 }

/-- Replace STATUS. -/
def State.setStatus (s : State) (x : Status) : State := { s with status := x }
/-- Replace IRQ. -/
def State.setIrq (s : State) (x : Irq) : State := { s with irq := x }
/-- Replace the host-written registers. -/
def State.setPorts (s : State) (x : Ports) : State := { s with ports := x }
/-- Replace the result registers. -/
def State.setResults (s : State) (x : Results) : State := { s with results := x }
/-- Replace the frequency table. -/
def State.setCounts (s : State) (x : Vector Word 257) : State := { s with counts := x }
/-- Replace the tree. -/
def State.setTree (s : State) (x : Tree) : State := { s with tree := x }
/-- Replace the code table. -/
def State.setCodes (s : State) (x : Codes) : State := { s with codes := x }
/-- Replace the bit writer. -/
def State.setBw (s : State) (x : BitWriter) : State := { s with bw := x }
/-- Replace the bit reader. -/
def State.setBr (s : State) (x : BitReader) : State := { s with br := x }
/-- Replace the sequencer state. -/
def State.setSeq (s : State) (x : Sequencer) : State := { s with seq := x }
/-- Replace SRC. -/
def State.setSrc (s : State) (x : List Host.Cell) : State := { s with src := x }
/-- Replace DST. -/
def State.setDst (s : State) (x : List Host.Cell) : State := { s with dst := x }
/-- Replace the host's side. -/
def State.setHost (s : State) (x : HostSide) : State := { s with host := x }

end Sys2Proof.Machine
end

