-- ==== Sys2Proof/Machine/Flags.lean ====
section
/-! DEFINITION. STATUS and IRQ: their words, and what the start and the end of a command do to them. -/

namespace Sys2Proof.Machine

/-- The errors a command can end with (60_exceptions.md R300). -/
inductive ErrorKind where
  | format
  | consistency
  | platform
  | truncated
  | illegalCommand
  | countOverflow
  | io
  | sequence
  deriving DecidableEq, Repr

/-- `code(E)` (60_exceptions.md R300). -/
def ErrorKind.code : ErrorKind → BitVec 4
  | .format => 1
  | .consistency => 2
  | .platform => 3
  | .truncated => 4
  | .illegalCommand => 5
  | .countOverflow => 6
  | .io => 7
  | .sequence => 8

/-- A 1-bit field as a bit vector. -/
def bit1 (b : Bool) : BitVec 1 := BitVec.ofBool b

/-- STATUS as the host reads it (10_state.md R28). -/
def statusWord (x : Status) : Word :=
  0#16 ++ x.lastOp ++ x.errCode ++ 0#1 ++ bit1 x.errSticky ++ bit1 x.err ++ bit1 x.busy

/-- IRQ as the host reads it (10_state.md R41). -/
def irqWord (x : Irq) : Word := 0#30 ++ bit1 x.pend ++ bit1 x.ie

/-- A host write of `v` to IRQ: IE is written, PEND is cleared by writing 1 (10_state.md R41). -/
def irqWrite (x : Irq) (v : Word) : Irq :=
  { ie := v.getLsbD 0, pend := x.pend && !v.getLsbD 1 }

/-- The interrupt output, a level (60_exceptions.md R320). -/
def irqLine (s : State) : Bool := s.irq.ie && s.irq.pend

/-- STATUS after the start steps (47_control.md R271). -/
def statusStarted (x : Status) (op : BitVec 8) : Status :=
  { x with busy := true, lastOp := op, err := false, errCode := 0 }

/-- STATUS after a command ended without an error (47_control.md R273). -/
def statusEnded (x : Status) : Status := { x with busy := false }

/-- STATUS after a command ended with error `e` (47_control.md R273). -/
def statusErrored (x : Status) (e : ErrorKind) : Status :=
  { x with busy := false, err := true, errCode := e.code, errSticky := true }

/-- IRQ after a command's end (47_control.md R273). -/
def irqPended (x : Irq) : Irq := { x with pend := true }

end Sys2Proof.Machine
end

