-- ==== Sys2Proof/Machine/Operands.lean ====
section
/-! DEFINITION. Operands: the symbol of an ARG field, and the register window the host reads and writes. -/

namespace Sys2Proof.Machine

/-- The symbol of an operand of class `sym`, if it is one (30_encoding.md R91). -/
def symbolOf (arg : BitVec 10) : Option Symbol :=
  if h : arg.toNat < 257 then some ⟨arg.toNat, h⟩ else none

/-- BW_STATE (10_state.md R38). -/
def bwWord (x : BitWriter) : Word := 0#16 ++ x.buf ++ 0#5 ++ x.n

/-- BR_STATE (10_state.md R39). -/
def brWord (x : BitReader) : Word := 0#16 ++ x.cur ++ 0#4 ++ x.rem

/-- TREE_STATE (10_state.md R34). -/
def treeWord (t : Tree) (codesValid : Bool) : Word :=
  bit1 t.valid ++ bit1 codesValid ++ 0#4 ++ t.root ++ 0#6 ++ t.nodeCount

/-- CAPS (10_state.md R26). -/
def capsWord (p : Params) : Word := 0#31 ++ bit1 p.platformLE

/-- The value a host read of the register at window offset `off` returns while the core is idle (10_state.md R23, R24): CMD and
the reserved offsets read 0. -/
def readRegister (s : State) (off : Nat) : Word :=
  match off with
  | 0x00 => Config.idValue
  | 0x04 => capsWord s.par
  | 0x0C => statusWord s.status
  | 0x10 => s.ports.srcPos
  | 0x14 => s.ports.srcLen
  | 0x18 => s.ports.dstPos
  | 0x1C => s.ports.dstCap
  | 0x20 => s.ports.dataIn
  | 0x24 => s.results.result
  | 0x28 => s.results.result2
  | 0x2C => s.results.result3
  | 0x30 => bwWord s.bw
  | 0x34 => brWord s.br
  | 0x38 => treeWord s.tree s.codes.valid
  | 0x3C => irqWord s.irq
  | 0x40 => s.results.codeBits[0]
  | 0x44 => s.results.codeBits[1]
  | 0x48 => s.results.codeBits[2]
  | 0x4C => s.results.codeBits[3]
  | 0x50 => s.results.codeBits[4]
  | 0x54 => s.results.codeBits[5]
  | 0x58 => s.results.codeBits[6]
  | 0x5C => s.results.codeBits[7]
  | _ => 0

/-- A host write to the register at window offset `off`, other than CMD, while the core is idle (10_state.md R23, R24): a write to
a read-only or reserved register is ignored. -/
def writeRegister (s : State) (off : Nat) (v : Word) : State :=
  match off with
  | 0x10 => s.setPorts { s.ports with srcPos := v }
  | 0x14 => s.setPorts { s.ports with srcLen := v }
  | 0x18 => s.setPorts { s.ports with dstPos := v }
  | 0x1C => s.setPorts { s.ports with dstCap := v }
  | 0x20 => s.setPorts { s.ports with dataIn := v }
  | 0x3C => s.setIrq (irqWrite s.irq v)
  | _ => s

/-- The offset of CMD (10_state.md R23). -/
def cmdOffset : Nat := 0x08

/-- The window offset of a host register access, or why it has none: the model refuses another width and an unaligned offset
(10_state.md R24), and an address outside the window at REG_BASE (20_memory.md R71). -/
def windowOffset (p : Params) (size : AccessSize) (addr : Nat) : Except Refusal Nat :=
  if addr < p.regBase ∨ p.regBase + Config.windowBytes ≤ addr then .error .outsideWindow
  else if size ≠ .word ∨ (addr - p.regBase) % 4 ≠ 0 then .error .oddAccess
  else .ok (addr - p.regBase)

end Sys2Proof.Machine
end

