-- ==== Sys2Proof/Machine/Ops.lean ====
section
/-! DEFINITION. The operations every command is written over: byte memories, beats, the byte and bit primitives, and how a command
starts, ends and ends with an error. -/

namespace Sys2Proof.Machine

/-! ### Byte memories (20_memory.md R60 to R62) -/

/-- The byte at an address. -/
def memoryGet : List Host.Cell → Nat → Byte
  | [], _ => Config.unlistedByte
  | (k, v) :: rest, a => if k = a then v else memoryGet rest a

/-- Put a cell before the first cell with a greater address. -/
def insertCell : List Host.Cell → Nat → Byte → List Host.Cell
  | [], a, v => [(a, v)]
  | (k, w) :: rest, a, v => if a < k then (a, v) :: (k, w) :: rest else (k, w) :: insertCell rest a v

/-- The memory without a cell at an address. -/
def dropCell (m : List Host.Cell) (a : Nat) : List Host.Cell := m.filter fun c => c.1 != a

/-- Set the byte at an address, keeping the canonical form. -/
def memoryPut (m : List Host.Cell) (a : Nat) (v : Byte) : List Host.Cell :=
  if v = Config.unlistedByte then dropCell m a else insertCell (dropCell m a) a v

/-- The canonical form: addresses of 32 bits, strictly rising, no cell equal to what an unlisted address reads as. -/
abbrev memoryWf (m : List Host.Cell) : Prop :=
  m.Pairwise (fun c d => c.1 < d.1) ∧ ∀ c ∈ m, c.2 ≠ Config.unlistedByte ∧ c.1 < 2 ^ 32

/-! ### How a command's body goes on or stops -/

/-- What a piece of a command's body comes to. -/
inductive Result (α : Type) where
  /-- It went through. -/
  | ok (a : α) (s : State)
  /-- `raise E` (00_scope.md R11). -/
  | raise (e : ErrorKind) (s : State)
  /-- The command was stopped at a beat boundary (70_reset_and_hazards.md R351). -/
  | stopped (s : State)
  /-- The machine stops (see `Fault`). -/
  | faulted (f : Fault)

/-- Go on with `f` if the piece before went through; `raise E` skips the rest (47_control.md R270). -/
def Result.andThen {α β : Type} (r : Result α) (f : α → State → Result β) : Result β :=
  match r with
  | .ok a s => f a s
  | .raise e s => .raise e s
  | .stopped s => .stopped s
  | .faulted x => .faulted x

/-- The next free value's number is used up. -/
def drawn (s : State) : State := s.setHost { s.host with draws := s.host.draws + 1 }

/-- One beat begins (10_state.md R40), unless the command is stopped at this boundary (70_reset_and_hazards.md R351). -/
def beat (s : State) : Result Unit :=
  if s.seq.stopAt = some s.seq.beat then .stopped s
  else .ok () (s.setSeq { s.seq with beat := s.seq.beat + 1 })

/-! ### Byte primitives -/

/-- The value a SRC byte shows while the host is writing it: of each write, the old or the new value (70_reset_and_hazards.md R352);
with the number of the next free value. -/
def racedValue : List Host.Cell → Nat → Byte → Nat → Byte × Nat
  | [], _, v, draws => (v, draws)
  | (k, new) :: rest, a, v, draws =>
    if k = a then racedValue rest a (if Config.raceShowsNew draws then new else v) (draws + 1)
    else racedValue rest a v draws

/-- `MemRead(addr, 1)`: `SRC[addr]` (20_memory.md R61), or for a byte the host writes meanwhile its old or its new value
(70_reset_and_hazards.md R352). -/
def memRead (addr : Word) (s : State) : Result Byte :=
  (beat s).andThen fun _ s =>
    if s.seq.races = [] then .ok (memoryGet s.src addr.toNat) s
    else
      let r := racedValue s.seq.races addr.toNat (memoryGet s.src addr.toNat) s.host.draws
      .ok r.1 (s.setHost { s.host with draws := r.2 })

/-- `MemWrite(addr, 1, v)`: `DST[addr] <- v` (20_memory.md R62). -/
def memWrite (addr : Word) (v : Byte) (s : State) : Result Unit :=
  (beat s).andThen fun _ s => .ok () (s.setDst (memoryPut s.dst addr.toNat v))

/-- The source is exhausted (20_memory.md R63). -/
def exhausted (s : State) : Bool := decide (s.ports.srcLen.toNat ≤ s.ports.srcPos.toNat)

/-- `SRC_POS <- SRC_POS + 1`. -/
def advanceSrc (s : State) : State := s.setPorts { s.ports with srcPos := s.ports.srcPos + 1 }

/-- How many source bytes are left. -/
def bytesLeft (s : State) : Nat := s.ports.srcLen.toNat - s.ports.srcPos.toNat

/-- Read the byte at SRC_POS and step past it. -/
def takeByte (s : State) : Result Byte :=
  (memRead s.ports.srcPos s).andThen fun b s => .ok b (advanceSrc s)

/-- `src_byte(E)` (20_memory.md R64). -/
def srcByte (e : ErrorKind) (s : State) : Result Byte :=
  if exhausted s then .raise e s else takeByte s

/-- `sink_byte(v)` (20_memory.md R65). -/
def sinkByte (v : Byte) (s : State) : Result Unit :=
  if s.ports.dstCap.toNat ≤ s.ports.dstPos.toNat then .raise .io s
  else (memWrite s.ports.dstPos v s).andThen fun _ s =>
    .ok () (s.setPorts { s.ports with dstPos := s.ports.dstPos + 1 })

/-- Append bytes to the sink in order. -/
def sinkBytes : List Byte → State → Result Unit
  | [], s => .ok () s
  | b :: bs, s => (sinkByte b s).andThen fun _ s => sinkBytes bs s

/-- The four bytes of a 32-bit pattern, least significant first (20_memory.md R66). -/
def bytesLE32 (v : Word) : List Byte :=
  [v.extractLsb' 0 8, v.extractLsb' 8 8, v.extractLsb' 16 8, v.extractLsb' 24 8]

/-- The two bytes of a 16-bit pattern, least significant first (20_memory.md R66). -/
def bytesLE16 (v : BitVec 16) : List Byte := [v.extractLsb' 0 8, v.extractLsb' 8 8]

/-- `put_u32le(x)` of the pattern `v = u32(x)` (20_memory.md R66). -/
def putU32le (v : Word) (s : State) : Result Unit := sinkBytes (bytesLE32 v) s

/-- `put_u16le(x)` of the pattern `v = u16(x)` (20_memory.md R66). -/
def putU16le (v : BitVec 16) (s : State) : Result Unit := sinkBytes (bytesLE16 v) s

/-- `s32` of the word with these bytes, least significant first (00_scope.md R9, 20_memory.md R67). -/
def signed32 (b0 b1 b2 b3 : Byte) : Int := (b3 ++ b2 ++ b1 ++ b0).toInt

/-- `s16` of the half word with these bytes, least significant first (00_scope.md R9, 20_memory.md R67). -/
def signed16 (b0 b1 : Byte) : Int := (b1 ++ b0).toInt

/-- `get_s32le(E)` (20_memory.md R67). -/
def getS32le (e : ErrorKind) (s : State) : Result Int :=
  (srcByte e s).andThen fun b0 s => (srcByte e s).andThen fun b1 s =>
  (srcByte e s).andThen fun b2 s => (srcByte e s).andThen fun b3 s => .ok (signed32 b0 b1 b2 b3) s

/-- `get_s16le(E)` (20_memory.md R67). -/
def getS16le (e : ErrorKind) (s : State) : Result Int :=
  (srcByte e s).andThen fun b0 s => (srcByte e s).andThen fun b1 s => .ok (signed16 b0 b1) s

/-! ### Bit primitives -/

/-- A bit at a place of a byte: `b << k`. -/
def bitAt (b : Bool) (k : Nat) : Byte := (BitVec.ofBool b).setWidth 8 <<< k

/-- `putbit(b)` (46_bitstream.md R241). -/
def putbit (b : Bool) (s : State) : Result Unit :=
  if s.bw.n = 7 then
    (sinkByte (s.bw.buf ||| bitAt b 7) s).andThen fun _ s => .ok () (s.setBw { n := 0, buf := 0 })
  else .ok () (s.setBw { n := s.bw.n + 1, buf := s.bw.buf ||| bitAt b s.bw.n.toNat })

/-- `putbit` of each bit in order. -/
def putbits : List Bool → State → Result Unit
  | [], s => .ok () s
  | b :: bs, s => (putbit b s).andThen fun _ s => putbits bs s

/-- The next bit of a reader that holds one: `br_cur[8 - br_rem]` (10_state.md R39). -/
def nextBit (r : BitReader) : Bool := r.cur.getLsbD (8 - r.rem.toNat)

/-- Deliver the next bit of a reader that holds one (46_bitstream.md R246). -/
def deliverBit (s : State) : Result (Option Bool) :=
  .ok (some (nextBit s.br)) (s.setBr { s.br with rem := s.br.rem - 1 })

/-- `getbit()`; `none` is END (46_bitstream.md R246). -/
def getbit (s : State) : Result (Option Bool) :=
  if s.br.rem = 0 then
    if exhausted s then .ok none s
    else (takeByte s).andThen fun b s => deliverBit (s.setBr { rem := 8, cur := b })
  else deliverBit s

/-- How many bits the reader can still deliver. -/
def bitsLeft (s : State) : Nat := s.br.rem.toNat + 8 * bytesLeft s

/-! ### State that several commands clear -/

/-- `for s in 0..256: counts[s] <- 0`. -/
def clearCounts (s : State) : State := s.setCounts (Vector.replicate 257 0)

/-- `codesValid <- 0; for s in 0..256: code[s] <- {present: 0, len: 0, bits: 0}`. -/
def clearCodes (s : State) : State := s.setCodes Codes.empty

/-- `treeValid <- 0`: the whole arena becomes unspecified (10_state.md R35); root and nodeCount stay. -/
def invalidateTree (s : State) : State := s.setTree { s.tree with valid := false, arena := [] }

/-! ### Start and end of a command (47_control.md R270 to R273) -/

/-- The start steps (47_control.md R271). They are also this core's return from an error: the next command's start clears ERR and
ERRCODE (60_exceptions.md R314). -/
def startSteps (op : BitVec 8) (s : State) : State := s.setStatus (statusStarted s.status op)

/-- The end steps of a command that raised no error (47_control.md R273); the hidden sequencer state ends (10_state.md R40). -/
def endSteps (s : State) : State :=
  ((s.setStatus (statusEnded s.status)).setIrq (irqPended s.irq)).setSeq Sequencer.idle

/-- The error end, "the trap entry of this core" (60_exceptions.md R310): the cause is recorded, nothing is undone (R311). -/
def errorEnd (e : ErrorKind) (s : State) : State :=
  ((s.setStatus (statusErrored s.status e)).setIrq (irqPended s.irq)).setSeq Sequencer.idle

/-- The end `ended` of a command whose body came to `s`; but a command that the host stops runs no end steps, however far its body came:
"`ERR`, `ERRCODE` and `ERR_STICKY` are not set for `X`" (70_reset_and_hazards.md R351). -/
def unlessStopped (s ended : State) : State := if s.seq.stopAt = none then ended else s

/-- Step 4 of 47_control.md R270, which a stopped command does not reach (70_reset_and_hazards.md R351). -/
def close (r : Result Unit) : Host.Outcome State Fault Refusal :=
  match r with
  | .ok _ s => .next (unlessStopped s (endSteps s))
  | .raise e s => .next (unlessStopped s (errorEnd e s))
  | .stopped s => .next s
  | .faulted f => .fault f

/-- The platform check (47_control.md R272, 60_exceptions.md R303). -/
def checkPlatform (body : State → Result Unit) (s : State) : Result Unit :=
  if s.par.platformLE then body s else .raise .platform s

/-- A command that passes the platform check without looking: NOP and SOFT_RESET (47_control.md R272). -/
def controlCommand (op : BitVec 8) (body : State → Result Unit) (s : State) : Host.Outcome State Fault Refusal :=
  close (body (startSteps op s))

/-- Any other legal command word (47_control.md R270, R272). -/
def command (op : BitVec 8) (body : State → Result Unit) (s : State) : Host.Outcome State Fault Refusal :=
  close (checkPlatform body (startSteps op s))

/-- An illegal command word: no effect beyond the error report (30_encoding.md R94, 60_exceptions.md R306). -/
def illegalCommand (op : BitVec 8) (s : State) : Host.Outcome State Fault Refusal :=
  close (.raise .illegalCommand (startSteps op s))

/-- A command of class `sym`: the word is illegal if ARG is above 256 (47_control.md R272, 30_encoding.md R94). -/
def symbolCommand (op : BitVec 8) (arg : BitVec 10) (body : Symbol → State → Result Unit) (s : State) :
    Host.Outcome State Fault Refusal :=
  match symbolOf arg with
  | some x => command op (body x) s
  | none => illegalCommand op s

end Sys2Proof.Machine
end

