-- ==== Sys2Proof/Machine/BitStream.lean ====
section
/-! DEFINITION. The bit writer and bit reader commands (46_bitstream.md). -/

namespace Sys2Proof.Machine

/-- A new bit writer: `bw_n <- 0; bw_buf <- 0` (46_bitstream.md R240). -/
def newWriter (s : State) : State := s.setBw { n := 0, buf := 0 }

/-- A new bit reader: `br_rem <- 0; br_cur <- 0` (46_bitstream.md R245). -/
def newReader (s : State) : State := s.setBr { rem := 0, cur := 0 }

/-- BW_INIT (46_bitstream.md R240). -/
def execBwInit (s : State) : Host.Outcome State Fault Refusal := command 0x40 (fun s => .ok () (newWriter s)) s

/-- BW_PUTBIT b (46_bitstream.md R242). -/
def execBwPutbit (bit : Bool) (s : State) : Host.Outcome State Fault Refusal := command 0x41 (putbit bit) s

/-- The body of BW_FLUSH (46_bitstream.md R243). -/
def flushBody (s : State) : Result Unit :=
  if s.bw.n = 0 then .ok () s
  else (sinkByte s.bw.buf s).andThen fun _ s => .ok () (newWriter s)

/-- BW_FLUSH (46_bitstream.md R243). -/
def execBwFlush (s : State) : Host.Outcome State Fault Refusal := command 0x42 flushBody s

/-- BR_INIT (46_bitstream.md R245). -/
def execBrInit (s : State) : Host.Outcome State Fault Refusal := command 0x48 (fun s => .ok () (newReader s)) s

/-- RESULT of BR_GETBIT (46_bitstream.md R250). -/
def getbitResult : Option Bool → Word
  | none => 0x80000000
  | some b => if b then 1 else 0

/-- The body of BR_GETBIT (46_bitstream.md R250). -/
def brGetbitBody (s : State) : Result Unit :=
  (getbit s).andThen fun x s => .ok () (s.setResults { s.results with result := getbitResult x })

/-- BR_GETBIT (46_bitstream.md R250). -/
def execBrGetbit (s : State) : Host.Outcome State Fault Refusal := command 0x49 brGetbitBody s

end Sys2Proof.Machine
end

