-- ==== Sys2Proof/Machine/FrequencyTable.lean ====
section
/-! DEFINITION. The frequency table commands (41_frequency_table.md). -/

namespace Sys2Proof.Machine

/-- `counts[x]`. -/
def countOf (s : State) (x : Symbol) : Word := s.counts[x.val]

/-- `counts[x] <- c`. -/
def setCount (s : State) (x : Symbol) (c : Word) : State := s.setCounts (s.counts.set x.val c)

/-- Add 1 to a count, which must not be `MAX_COUNT` (41_frequency_table.md R141). -/
def addOne (s : State) (x : Symbol) : State := setCount s x (countOf s x + 1)

/-- The count is already `MAX_COUNT`. -/
def countFull (s : State) (x : Symbol) : Bool := countOf s x == BitVec.ofNat 32 Config.maxCount

/-- FT_CLEAR (41_frequency_table.md R130). -/
def execFtClear (s : State) : Host.Outcome State Fault Refusal :=
  command 0x10 (fun s => .ok () (clearCounts s)) s

/-- The scan of FT_ANALYZE (41_frequency_table.md R131); the first argument is the number of bytes left. The byte that would
overflow its count is not consumed. -/
def analyzeLoop : Nat → State → Result Unit
  | 0, s => .ok () s
  | left + 1, s =>
    if exhausted s then .ok () s
    else (memRead s.ports.srcPos s).andThen fun b s =>
      if countFull s (byteSymbol b) then .raise .countOverflow s
      else analyzeLoop left (addOne (advanceSrc s) (byteSymbol b))

/-- The body of FT_ANALYZE (41_frequency_table.md R131). -/
def analyzeBody (s : State) : Result Unit := analyzeLoop (bytesLeft s) (clearCounts s)

/-- FT_ANALYZE (41_frequency_table.md R131). -/
def execFtAnalyze (s : State) : Host.Outcome State Fault Refusal := command 0x11 analyzeBody s

/-- The body of FT_ADD_TERMINATOR (41_frequency_table.md R133). -/
def addTerminatorBody (s : State) : Result Unit :=
  if countFull s terminator then .raise .countOverflow s else .ok () (addOne s terminator)

/-- FT_ADD_TERMINATOR (41_frequency_table.md R133). -/
def execFtAddTerminator (s : State) : Host.Outcome State Fault Refusal := command 0x12 addTerminatorBody s

/-- `max(counts[0..256])`. -/
def tableMax (counts : Vector Word 257) : Nat := counts.toList.foldl (fun m c => max m c.toNat) 0

/-- `max(counts[0..256]) + 1` (41_frequency_table.md R134). -/
def delimiterOf (counts : Vector Word 257) : Word := BitVec.ofNat 32 (tableMax counts + 1)

/-- The pairs of FT_SERIALIZE (41_frequency_table.md R134): count, then symbol, for each non-zero count. -/
def serializePairs : List Symbol → State → Result Unit
  | [], s => .ok () s
  | x :: xs, s =>
    if countOf s x = 0 then serializePairs xs s
    else (putU32le (countOf s x) s).andThen fun _ s =>
      (putU16le (BitVec.ofNat 16 x.val) s).andThen fun _ s => serializePairs xs s

/-- The body of FT_SERIALIZE (41_frequency_table.md R134). -/
def serializeBody (s : State) : Result Unit :=
  let d := delimiterOf s.counts
  (putU32le d s).andThen fun _ s => (serializePairs allSymbols s).andThen fun _ s => putU32le d s

/-- FT_SERIALIZE (41_frequency_table.md R134). -/
def execFtSerialize (s : State) : Host.Outcome State Fault Refusal := command 0x13 serializeBody s

/-- The symbol that a signed 16-bit field names, if it lies in `0..256` (41_frequency_table.md R136). -/
def fieldSymbol (v : Int) : Option Symbol :=
  if h : v.toNat < 257 ∧ 0 ≤ v then some ⟨v.toNat, h.1⟩ else none

/-- The loop of FT_DESERIALIZE (41_frequency_table.md R136); the first argument is at least the number of bytes left, and at 0 the
source is exhausted, which is FormatError. -/
def deserializeLoop (d : Int) : Nat → State → Result Unit
  | 0, s => .raise .format s
  | left + 1, s =>
    (getS32le .format s).andThen fun c s =>
      if c = d then .ok () s
      else if c < 0 ∨ (Config.maxCount : Int) < c then .raise .format s
      else (getS16le .format s).andThen fun v s =>
        match fieldSymbol v with
        | none => .raise .format s
        | some x => deserializeLoop d left (setCount s x (BitVec.ofInt 32 c))

/-- The body of FT_DESERIALIZE (41_frequency_table.md R136): the leading delimiter may have any value. -/
def deserializeBody (s : State) : Result Unit :=
  (getS32le .format (clearCounts s)).andThen fun d s => deserializeLoop d (bytesLeft s) s

/-- FT_DESERIALIZE (41_frequency_table.md R136). -/
def execFtDeserialize (s : State) : Host.Outcome State Fault Refusal := command 0x14 deserializeBody s

/-- FT_READ s (41_frequency_table.md R139). -/
def execFtRead (arg : BitVec 10) (s : State) : Host.Outcome State Fault Refusal :=
  symbolCommand 0x15 arg (fun x s => .ok () (s.setResults { s.results with result := countOf s x })) s

/-- The body of FT_WRITE s (41_frequency_table.md R140). -/
def ftWriteBody (x : Symbol) (s : State) : Result Unit :=
  if Config.maxCount < s.ports.dataIn.toNat then .raise .countOverflow s
  else .ok () (setCount s x s.ports.dataIn)

/-- FT_WRITE s (41_frequency_table.md R140). -/
def execFtWrite (arg : BitVec 10) (s : State) : Host.Outcome State Fault Refusal :=
  symbolCommand 0x16 arg ftWriteBody s

end Sys2Proof.Machine
end

