-- ==== Sys2Proof/Machine/TreeBuilder.lean ====
section
/-! DEFINITION. The tree builder commands (42_tree_builder.md). -/

namespace Sys2Proof.Machine

/-- `node[i].weight` (10_state.md R35). -/
def nodeWeight : Node → BitVec 40
  | .leaf w _ => w
  | .internal w _ _ => w

/-- The leaves: one per non-zero count, in ascending symbol order (42_tree_builder.md R160). -/
def leavesOf (counts : Vector Word 257) : List Node :=
  (allSymbols.filter fun x => counts[x.val] != 0).map fun x => .leaf (counts[x.val].setWidth 40) x

/-- `node[i].weight` of an entry of the arena as a number, compared unsigned (42_tree_builder.md R165). -/
def weightAt (arena : List Node) (i : Nat) : Nat := ((arena[i]?).map fun x => (nodeWeight x).toNat).getD 0

/-- The key of `i` is below the key of `j`: least weight first, then least index (42_tree_builder.md R161). -/
def keyBelow (arena : List Node) (i j : Nat) : Bool :=
  decide (weightAt arena i < weightAt arena j) || (weightAt arena i == weightAt arena j && decide (i < j))

/-- The element of a collection with the least key; the first argument is one element of it. -/
def leastOf (arena : List Node) : Nat → List Nat → Nat
  | i, [] => i
  | i, j :: rest => leastOf arena (if keyBelow arena j i then j else i) rest

/-- Remove the element with the least key from the collection (42_tree_builder.md R160). -/
def takeLeast (arena : List Node) : List Nat → Option (Nat × List Nat)
  | [] => none
  | i :: rest => some (leastOf arena i rest, (i :: rest).erase (leastOf arena i rest))

/-- The new internal node over the first and the second removed node (42_tree_builder.md R163); its weight is their exact sum (R165). -/
def joinNodes (arena : List Node) (a b : Nat) : Node :=
  .internal (BitVec.ofNat 40 (weightAt arena a + weightAt arena b)) (BitVec.ofNat 10 a) (BitVec.ofNat 10 b)

/-- `while |Q| > 1` of TB_BUILD (42_tree_builder.md R160); each pass makes the collection one element smaller, and the first argument
bounds the passes. -/
def joinLoop : Nat → List Nat → List Node → List Nat × List Node
  | 0, q, arena => (q, arena)
  | passes + 1, q, arena =>
    match takeLeast arena q with
    | none => (q, arena)
    | some (a, q1) =>
      match takeLeast arena q1 with
      | none => (q, arena)
      | some (b, q2) => joinLoop passes (q2 ++ [arena.length]) (arena ++ [joinNodes arena a b])

/-- The tree over a list of leaves (42_tree_builder.md R160): the root is the single element left in the collection. -/
def treeOver (leaves : List Node) : Tree :=
  let done := joinLoop leaves.length (List.range leaves.length) leaves
  { valid := true
    root := BitVec.ofNat 10 (done.1.headD 0)
    nodeCount := BitVec.ofNat 10 done.2.length
    arena := done.2 }

/-- The body of TB_BUILD (42_tree_builder.md R160). -/
def tbBuildBody (s : State) : Result Unit :=
  let s := clearCodes (s.setTree Tree.none)
  if leavesOf s.counts = [] then .raise .format s
  else .ok () (s.setTree (treeOver (leavesOf s.counts)))

/-- TB_BUILD (42_tree_builder.md R160). -/
def execTbBuild (s : State) : Host.Outcome State Fault Refusal := command 0x20 tbBuildBody s

/-- `node[i]`, if it is an entry of the arena with a specified value (10_state.md R35). -/
def nodeAt (s : State) (i : BitVec 10) : Option Node := s.tree.arena[i.toNat]?

/-- RESULT3 of TB_READNODE, the node descriptor (42_tree_builder.md R166). -/
def nodeDescriptor : Node → Word
  | .leaf _ x => 0x80000000 ||| BitVec.ofNat 32 x.val
  | .internal _ l r => (l.setWidth 32 <<< 16) ||| r.setWidth 32

/-- The body of TB_READNODE i (42_tree_builder.md R166); SequenceError is checked first. -/
def tbReadnodeBody (i : BitVec 10) (s : State) : Result Unit :=
  if s.tree.valid = false then .raise .sequence s
  else if s.tree.nodeCount.toNat ≤ i.toNat then .raise .illegalCommand s
  else
    match nodeAt s i with
    | none => .faulted .arenaBroken
    | some x =>
      .ok () (s.setResults { s.results with
        result := (nodeWeight x).extractLsb' 0 32
        result2 := ((nodeWeight x).extractLsb' 32 8).setWidth 32
        result3 := nodeDescriptor x })

/-- TB_READNODE i (42_tree_builder.md R166). -/
def execTbReadnode (arg : BitVec 10) (s : State) : Host.Outcome State Fault Refusal :=
  command 0x21 (tbReadnodeBody arg) s

end Sys2Proof.Machine
end

