-- ==== Sys2Proof/Machine/CodeTable.lean ====
section
/-! DEFINITION. The code table commands (43_code_table.md). -/

namespace Sys2Proof.Machine

/-- `code[x]`. -/
def codeOf (s : State) (x : Symbol) : Code := s.codes.entries[x.val]

/-- `p | (1 << n)`: the path with a 1 appended as step `n` (43_code_table.md R180). -/
def appendOne (n : Nat) (p : BitVec 256) : BitVec 256 := p ||| (1#256 <<< n)

/-- `visit(i, n, p)` of CT_BUILD (43_code_table.md R180). The first argument bounds the depth; `none` means that the arena breaks
10_state.md R36. -/
def visit (arena : List Node) : Nat → BitVec 10 → Nat → BitVec 256 → Vector Code 257 → Option (Vector Code 257)
  | 0, _, _, _, _ => none
  | depth + 1, i, n, p, table =>
    match arena[i.toNat]? with
    | none => none
    | some (.leaf _ x) => some (table.set x.val { present := true, len := BitVec.ofNat 9 n, bits := p })
    | some (.internal _ l r) =>
      (visit arena depth l (n + 1) p table).bind fun table =>
        visit arena depth r (n + 1) (appendOne n p) table

/-- The code table of a tree: every node of a path has a smaller index than the one before it, so a path is no longer than the
arena (42_tree_builder.md R168). -/
def codesOfTree (t : Tree) : Option (Vector Code 257) :=
  visit t.arena t.arena.length t.root 0 0 (Vector.replicate 257 Code.absent)

/-- The body of CT_BUILD (43_code_table.md R180). -/
def ctBuildBody (s : State) : Result Unit :=
  if s.tree.valid = false then .raise .sequence s
  else
    match codesOfTree s.tree with
    | none => .faulted .arenaBroken
    | some table => .ok () (s.setCodes { valid := true, entries := table })

/-- CT_BUILD (43_code_table.md R180). -/
def execCtBuild (s : State) : Host.Outcome State Fault Refusal := command 0x28 ctBuildBody s

/-- RESULT of CT_READ (43_code_table.md R185). -/
def codeResult (c : Code) : Word := if c.present then 0x80000000 ||| c.len.setWidth 32 else 0

/-- CODE_BITS0..7 of CT_READ: `bits[32k+31 : 32k]` (43_code_table.md R185, 10_state.md R37). -/
def codeBitsOf (c : Code) : Vector Word 8 := Vector.ofFn fun k => c.bits.extractLsb' (32 * k.val) 32

/-- The body of CT_READ s (43_code_table.md R185). -/
def ctReadBody (x : Symbol) (s : State) : Result Unit :=
  if s.codes.valid = false then .raise .sequence s
  else .ok () (s.setResults { s.results with result := codeResult (codeOf s x), codeBits := codeBitsOf (codeOf s x) })

/-- CT_READ s (43_code_table.md R185). -/
def execCtRead (arg : BitVec 10) (s : State) : Host.Outcome State Fault Refusal := symbolCommand 0x29 arg ctReadBody s

end Sys2Proof.Machine
end

