-- ==== Sys2Proof/Machine/Compress.lean ====
section
/-! DEFINITION. The compress commands (44_compress.md). -/

namespace Sys2Proof.Machine

/-- The bits of a code in order, `c_0` first (00_scope.md R10, 10_state.md R37). -/
def codeBitList (c : Code) : List Bool := (List.range c.len.toNat).map fun k => c.bits.getLsbD k

/-- The body of ENC_SYMBOL s (44_compress.md R200). -/
def encSymbolBody (x : Symbol) (s : State) : Result Unit :=
  if s.codes.valid = false ∨ (codeOf s x).present = false then .raise .consistency s
  else putbits (codeBitList (codeOf s x)) s

/-- ENC_SYMBOL s (44_compress.md R200). -/
def execEncSymbol (arg : BitVec 10) (s : State) : Host.Outcome State Fault Refusal :=
  symbolCommand 0x30 arg encSymbolBody s

/-- `SRC_POS <- src_start` of COMPRESS, as a beat of its own (44_compress.md R205 step 5, log entry 7). -/
def rewind (s : State) : Result Unit :=
  (beat s).andThen fun _ s => .ok () (s.setPorts { s.ports with srcPos := s.seq.srcStart })

/-- Step 6 of COMPRESS (44_compress.md R205); the first argument is the number of bytes left. -/
def encodeLoop : Nat → State → Result Unit
  | 0, s => encSymbolBody terminator s
  | left + 1, s =>
    if exhausted s then encSymbolBody terminator s
    else (takeByte s).andThen fun b s =>
      (encSymbolBody (byteSymbol b) s).andThen fun _ s => encodeLoop left s

/-- What COMPRESS does before its step 1 (44_compress.md R205). -/
def compressStart (s : State) : State :=
  newWriter (clearCodes (invalidateTree (s.setSeq { s.seq with srcStart := s.ports.srcPos })))

/-- The body of COMPRESS (44_compress.md R205). -/
def compressBody (s : State) : Result Unit :=
  (analyzeBody (compressStart s)).andThen fun _ s =>
  (addTerminatorBody s).andThen fun _ s =>
  (serializeBody s).andThen fun _ s =>
  (tbBuildBody s).andThen fun _ s =>
  (ctBuildBody s).andThen fun _ s =>
  (rewind s).andThen fun _ s =>
  (encodeLoop (bytesLeft s) s).andThen fun _ s => flushBody s

/-- COMPRESS (44_compress.md R205). -/
def execCompress (s : State) : Host.Outcome State Fault Refusal := command 0x31 compressBody s

end Sys2Proof.Machine
end

