-- ==== Sys2Proof/Machine/Control.lean ====
section
/-! DEFINITION. The control commands NOP and SOFT_RESET (47_control.md). -/

namespace Sys2Proof.Machine

/-- NOP: the body is empty (47_control.md R274). -/
def execNop (s : State) : Host.Outcome State Fault Refusal :=
  controlCommand 0x00 (fun s => .ok () s) s

/-- The body of SOFT_RESET (47_control.md R276). -/
def softResetBody (s : State) : State :=
  let s := clearCodes ((clearCounts s).setTree Tree.none)
  let s := (s.setResults Results.zero).setBw { n := 0, buf := 0 }
  (s.setBr { rem := 0, cur := 0 }).setStatus { s.status with errSticky := false }

/-- SOFT_RESET (47_control.md R276); bits [31:8] of its word are ignored (30_encoding.md R95). Its body is one beat, before which another
SOFT_RESET word can stop it (70_reset_and_hazards.md R351, R358; log entry 7). -/
def execSoftReset (_ignored : BitVec 24) (s : State) : Host.Outcome State Fault Refusal :=
  controlCommand 0x01 (fun s => (beat s).andThen fun _ s => .ok () (softResetBody s)) s

/-- What hardware reset leaves (70_reset_and_hazards.md R340): every piece of core state at its reset value; the parameters, the
memories and the host's side are not the core's. -/
def hardReset (s : State) : State :=
  { State.reset with par := s.par, src := s.src, dst := s.dst, host := s.host }

end Sys2Proof.Machine
end

