-- ==== Sys2Proof/Machine/Decompress.lean ====
section
/-! DEFINITION. The decompress commands (45_decompress.md). -/

namespace Sys2Proof.Machine

/-- `walk <- i`. -/
def setWalk (s : State) (i : BitVec 10) : State := s.setSeq { s.seq with walk := i }

/-- `RESULT <- x` for a decoded symbol. -/
def setSymbol (s : State) (x : Symbol) : State := s.setResults { s.results with result := BitVec.ofNat 32 x.val }

/-- The loop of DEC_SYMBOL from an internal node (45_decompress.md R222, R223); the first argument is the number of bits the reader
can still deliver, and at 0 the next `getbit` is END. -/
def walkLoop : Nat → State → Result Unit
  | 0, s => .raise .truncated s
  | bits + 1, s =>
    (getbit s).andThen fun x s =>
      match x with
      | none => .raise .truncated s
      | some b =>
        match nodeAt s s.seq.walk with
        | some (.internal _ l r) =>
          let s := setWalk s (if b then r else l)
          match nodeAt s s.seq.walk with
          | some (.leaf _ x) => .ok () (setSymbol s x)
          | some (.internal _ _ _) => walkLoop bits s
          | none => .faulted .arenaBroken
        | _ => .faulted .arenaBroken

/-- The body of DEC_SYMBOL (45_decompress.md R222, R224). -/
def decSymbolBody (s : State) : Result Unit :=
  if s.tree.valid = false then .raise .sequence s
  else
    let s := setWalk s s.tree.root
    match nodeAt s s.seq.walk with
    | none => .faulted .arenaBroken
    | some (.leaf _ x) => if x = terminator then .ok () (setSymbol s terminator) else .raise .consistency s
    | some (.internal _ _ _) => walkLoop (bitsLeft s) s

/-- DEC_SYMBOL (45_decompress.md R222). -/
def execDecSymbol (s : State) : Host.Outcome State Fault Refusal := command 0x38 decSymbolBody s

/-- Step 3 of DECOMPRESS (45_decompress.md R228). A decoded data symbol takes at least one bit, so the loop ends within the bits the
reader can deliver, which the first argument counts; at 0 no data symbol can be decoded. -/
def decodeLoop : Nat → State → Result Unit
  | 0, s =>
    (decSymbolBody s).andThen fun _ s => if s.results.result = 256 then .ok () s else .raise .truncated s
  | bits + 1, s =>
    (decSymbolBody s).andThen fun _ s =>
      if s.results.result = 256 then .ok () s
      else (sinkByte (s.results.result.setWidth 8) s).andThen fun _ s => decodeLoop bits s

/-- What DECOMPRESS does before its step 1 (45_decompress.md R228). -/
def decompressStart (s : State) : State := newReader (clearCodes (invalidateTree s))

/-- The checks of step 1 of DECOMPRESS: an all-zero table and a table without the terminator are FormatError (45_decompress.md R228, R229). -/
def checkTable (s : State) : Result Unit :=
  if allSymbols.all (fun x => countOf s x == 0) then .raise .format s
  else if countOf s terminator = 0 then .raise .format s
  else .ok () s

/-- The body of DECOMPRESS (45_decompress.md R228). -/
def decompressBody (s : State) : Result Unit :=
  (deserializeBody (decompressStart s)).andThen fun _ s =>
  (checkTable s).andThen fun _ s =>
  (tbBuildBody s).andThen fun _ s => decodeLoop (bitsLeft s) s

/-- DECOMPRESS (45_decompress.md R228). -/
def execDecompress (s : State) : Host.Outcome State Fault Refusal := command 0x39 decompressBody s

end Sys2Proof.Machine
end

