-- ==== Sys2Proof/Machine/Dispatch.lean ====
section
/-! DEFINITION. What each command does: one arm per constructor of Instr. -/

namespace Sys2Proof.Machine

/-- Run one command whole, from its CMD write to its end (47_control.md R270). -/
def exec (i : Instr) (s : State) : Host.Outcome State Fault Refusal :=
  match i with
  | .nop => Sys2Proof.Machine.execNop s
  | .softReset ignored => Sys2Proof.Machine.execSoftReset ignored s
  | .ftClear => Sys2Proof.Machine.execFtClear s
  | .ftAnalyze => Sys2Proof.Machine.execFtAnalyze s
  | .ftAddTerminator => Sys2Proof.Machine.execFtAddTerminator s
  | .ftSerialize => Sys2Proof.Machine.execFtSerialize s
  | .ftDeserialize => Sys2Proof.Machine.execFtDeserialize s
  | .ftRead arg => Sys2Proof.Machine.execFtRead arg s
  | .ftWrite arg => Sys2Proof.Machine.execFtWrite arg s
  | .tbBuild => Sys2Proof.Machine.execTbBuild s
  | .tbReadnode arg => Sys2Proof.Machine.execTbReadnode arg s
  | .ctBuild => Sys2Proof.Machine.execCtBuild s
  | .ctRead arg => Sys2Proof.Machine.execCtRead arg s
  | .encSymbol arg => Sys2Proof.Machine.execEncSymbol arg s
  | .compress => Sys2Proof.Machine.execCompress s
  | .decSymbol => Sys2Proof.Machine.execDecSymbol s
  | .decompress => Sys2Proof.Machine.execDecompress s
  | .bwInit => Sys2Proof.Machine.execBwInit s
  | .bwPutbit bit => Sys2Proof.Machine.execBwPutbit bit s
  | .bwFlush => Sys2Proof.Machine.execBwFlush s
  | .brInit => Sys2Proof.Machine.execBrInit s
  | .brGetbit => Sys2Proof.Machine.execBrGetbit s

end Sys2Proof.Machine
end

