-- ==== Sys2Proof/Machine/Bus.lean ====
section
/-! DEFINITION. The host's accesses: to the register window, to SRC and DST, and the reset input, while the core is idle and while
a command runs (10_state.md R24, 20_memory.md R60, 70_reset_and_hazards.md R340, R350 to R352). -/

namespace Sys2Proof.Machine

/-- A host read returned a value (log entry 12). -/
def logRead (s : State) (v : Word) : State := s.setHost { s.host with readLog := v :: s.host.readLog }

/-- Run the command that a word encodes (47_control.md R270, R272); a word that encodes none ends with IllegalCommand. -/
def runWord (w : Word) (s : State) : Host.Outcome State Fault Refusal :=
  match decode w with
  | some i => exec i s
  | none => illegalCommand (opField w) s

/-! ### Accesses while a command runs (70_reset_and_hazards.md R350 to R352) -/

/-- The word, if the access writes a SOFT_RESET word to CMD. -/
def softResetWord (p : Params) : HostAccess → Option Word
  | .regWrite size addr w =>
    match windowOffset p size addr with
    | .ok off => if off = cmdOffset ∧ opField w = 0x01 then some w else none
    | .error _ => none
  | _ => none

/-- Why the model refuses an access while a command runs, if it does: only where it is no access to a register (10_state.md R24,
20_memory.md R71). A write of a register, and of CMD other than of a SOFT_RESET word, is dropped (70_reset_and_hazards.md R350, log
entry 10). -/
def busyRefusal (p : Params) : HostAccess → Option Refusal
  | .regWrite size addr _ | .regRead size addr =>
    match windowOffset p size addr with
    | .ok _ => none
    | .error r => some r
  | _ => none

/-- The SRC bytes the host writes while the command runs (70_reset_and_hazards.md R352). -/
def racedCells (during : List HostAccess) : List Host.Cell :=
  during.filterMap fun
    | .srcWrite a v => some (a.toNat, v)
    | _ => none

/-- How many reads the host has made while the command that started at `start` runs. -/
def readsSince (start s : State) : Nat := s.host.readLog.length - start.host.readLog.length

/-- STATUS while the command of opcode `op` runs, started from `start`; `s` is what the command left, with the reads so far. It is the
current value (70_reset_and_hazards.md R350): only SOFT_RESET changes it meanwhile, by clearing ERR_STICKY once, between two of the host's
reads. Which two is one free value for the whole command (log entry 9); a SOFT_RESET that is stopped before its body never clears it. -/
def busyStatus (op : BitVec 8) (start s : State) : Status :=
  { statusStarted start.status op with
    errSticky := start.status.errSticky &&
      (op != 0x01 || s.status.errSticky || decide (readsSince start s < Config.readsBeforeClear start.host.draws)) }

/-- A host register read while a command runs: STATUS, ID and CAPS are exact, any other value is free (70_reset_and_hazards.md R350). -/
def busyRead (op : BitVec 8) (start : State) (off : Nat) (s : State) : State :=
  match off with
  | 0x00 => logRead s Config.idValue
  | 0x04 => logRead s (capsWord s.par)
  | 0x0C => logRead (drawn s) (statusWord (busyStatus op start s))
  | _ => logRead (drawn s) (Config.busyReadValue s.host.draws)

/-- The command that started at `start` and came to `s` wrote this DST byte: it writes ascending offsets from DST_POS (20_memory.md R70). -/
def coreWrote (start s : State) (a : Word) : Bool :=
  decide (start.ports.dstPos.toNat ≤ a.toNat) && decide (a.toNat < s.ports.dstPos.toNat)

/-- What one host access while the command ran leaves (70_reset_and_hazards.md R350, R352); a register write leaves nothing. `old` is
DST as it would be without the command; a raced DST byte ends as the core's or the host's value, and a raced read shows the old or the
new value. DESIGN CHOICE (log entry 8): R352 speaks of one host write, and of several to one DST byte that the command writes too the
model takes each as a race of its own, so the byte ends as the core's value or as any of the host's, an earlier one included. -/
def settleAccess (op : BitVec 8) (start : State) (a : HostAccess) (old : List Host.Cell) (s : State) :
    List Host.Cell × State :=
  match a with
  | .srcWrite addr v => (old, s.setSrc (memoryPut s.src addr.toNat v))
  | .srcRead addr => (old, logRead s ((memoryGet s.src addr.toNat).setWidth 32))
  | .dstWrite addr v =>
    (memoryPut old addr.toNat v,
      if coreWrote start s addr && Config.raceShowsNew s.host.draws then drawn s
      else (drawn s).setDst (memoryPut s.dst addr.toNat v))
  | .dstRead addr =>
    (old, logRead (drawn s)
      ((memoryGet (if Config.raceShowsNew s.host.draws then s.dst else old) addr.toNat).setWidth 32))
  | .regRead size addr =>
    match windowOffset start.par size addr with
    | .ok off => (old, busyRead op start off s)
    | .error _ => (old, s)
  | .regWrite _ _ _ => (old, s)
  | .hardReset => (old, s)

/-- What the host accesses while the command ran leave, in their order. -/
def settleAll (op : BitVec 8) (start : State) : List HostAccess → List Host.Cell → State → State
  | [], _, s => s
  | a :: rest, old, s =>
    settleAll op start rest (settleAccess op start a old s).1 (settleAccess op start a old s).2

/-- The sequencer of a command that the host accesses while it runs; `stop` if the last of these accesses stops it. The beat at which
it stops is free (70_reset_and_hazards.md R351, log entry 7). -/
def armed (during : List HostAccess) (stop : Bool) (s : State) : State :=
  (if stop then drawn s else s).setSeq { Sequencer.idle with
    stopAt := if stop then some (Config.stopBeat s.host.draws) else none
    races := racedCells during }

/-- Run the command of word `w` with host accesses falling while it runs, none of which starts another command. -/
def runBusy (w : Word) (during : List HostAccess) (stop : Bool) (s : State) : Host.Outcome State Fault Refusal :=
  match during.findSome? (busyRefusal s.par) with
  | some r => .refused r
  | none =>
    match runWord w (armed during stop s) with
    | .next t => .next ((settleAll (opField w) s during s.dst t).setSeq Sequencer.idle)
    | .fault f => .fault f
    | .refused r => .refused r

/-- Put accesses back at the front of the host's queue. -/
def requeue (rest : List HostAccess) (s : State) : State :=
  s.setHost { s.host with bus := rest.map (fun a => { whileBusy := false, access := a }) ++ s.host.bus }

/-- The command of word `w` runs, the accesses `before` have fallen while it runs, and the ones listed fall then too. A SOFT_RESET word
stops it and runs SOFT_RESET, during which the rest fall (70_reset_and_hazards.md R351); a hardware reset stops it and leaves the core
idle (R340). -/
def overlapped (w : Word) (before : List HostAccess) : List HostAccess → State → Host.Outcome State Fault Refusal
  | [], s => runBusy w before false s
  | a :: rest, s =>
    match softResetWord s.par a with
    | some w' =>
      match runBusy w before true s with
      | .next t => overlapped w' [] rest t
      | .fault f => .fault f
      | .refused r => .refused r
    | none =>
      if a = .hardReset then
        match runBusy w before true s with
        | .next t => .next (requeue rest (hardReset t))
        | .fault f => .fault f
        | .refused r => .refused r
      else overlapped w (before ++ [a]) rest s

/-- A host write of a word to CMD while the core is idle (10_state.md R27): the command runs to its end, with the accesses of the
queue that are marked as falling while it runs. -/
def startCommand (w : Word) (s : State) : Host.Outcome State Fault Refusal :=
  match s.host.bus.takeWhile (·.whileBusy) with
  | [] => runWord w s
  | op :: ops =>
    overlapped w [] ((op :: ops).map (·.access))
      (s.setHost { s.host with bus := s.host.bus.dropWhile (·.whileBusy) })

/-- A host access while the core is idle (10_state.md R24, 20_memory.md R60, 70_reset_and_hazards.md R340). -/
def serve (a : HostAccess) (s : State) : Host.Outcome State Fault Refusal :=
  match a with
  | .regWrite size addr v =>
    match windowOffset s.par size addr with
    | .ok off => if off = cmdOffset then startCommand v s else .next (writeRegister s off v)
    | .error r => .refused r
  | .regRead size addr =>
    match windowOffset s.par size addr with
    | .ok off => .next (logRead s (readRegister s off))
    | .error r => .refused r
  | .srcWrite addr v => .next (s.setSrc (memoryPut s.src addr.toNat v))
  | .srcRead addr => .next (logRead s ((memoryGet s.src addr.toNat).setWidth 32))
  | .dstWrite addr v => .next (s.setDst (memoryPut s.dst addr.toNat v))
  | .dstRead addr => .next (logRead s ((memoryGet s.dst addr.toNat).setWidth 32))
  | .hardReset => .next (hardReset s)

/-- The host makes its oldest access, and with none to make the core stays idle (60_exceptions.md R331, log entry 20). -/
def nextAccess (s : State) : Host.Outcome State Fault Refusal :=
  match s.host.bus with
  | [] => .next s
  | op :: rest => serve op.access (s.setHost { s.host with bus := rest })

/-- The host's next access is the write of a command word to CMD, with no access falling while that command runs (log entry 2). -/
def withCommand (s : State) (w : Word) : State :=
  s.setHost { s.host with
    bus := { whileBusy := false, access := .regWrite .word (s.par.regBase + cmdOffset) w } ::
      s.host.bus.dropWhile (·.whileBusy) }

end Sys2Proof.Machine
end

