-- ==== Sys2Proof/Machine/Step.lean ====
section
/-! DEFINITION. One step of the machine. -/

namespace Sys2Proof.Machine

/-- One step: the host makes its oldest access. A write to CMD runs the command whole (47_control.md R270, log entry 1). -/
def step (s : State) : Host.Outcome State Fault Refusal := nextAccess s

/-- The state with an instruction placed where `step` takes its next one: at the front of the host's queue, as a write to CMD. -/
def State.withFetchWord (s : State) (nbits w : Nat) : State := withCommand s (BitVec.ofNat 32 (w % 2 ^ nbits))

end Sys2Proof.Machine
end

