-- ==== Sys2Proof/Laws/Encoding.lean ====
section
/-! SUPPORT. The fields of an encoded command word (30_encoding.md R90, R91). -/

namespace Sys2Proof

theorem opField_commandWord (a : BitVec 10) (b : BitVec 1) (op : BitVec 8) : opField (commandWord a b op) = op := by
  ext i hi
  simp only [opField, commandWord, BitVec.getElem_extractLsb', BitVec.getLsbD_append]
  rw [if_pos (by omega), Nat.zero_add, BitVec.getLsbD_eq_getElem hi]

theorem bField_commandWord (a : BitVec 10) (b : BitVec 1) (op : BitVec 8) : bField (commandWord a b op) = b := by
  ext i hi
  simp only [bField, commandWord, BitVec.getElem_extractLsb', BitVec.getLsbD_append]
  rw [if_neg (by omega), if_pos (by omega), show 8 + i - 8 = i by omega, BitVec.getLsbD_eq_getElem hi]

theorem lowReserved_commandWord (a : BitVec 10) (b : BitVec 1) (op : BitVec 8) : lowReserved (commandWord a b op) = 0 := by
  ext i hi
  simp only [lowReserved, commandWord, BitVec.getElem_extractLsb', BitVec.getLsbD_append]
  rw [if_neg (by omega), if_neg (by omega), if_pos (by omega)]
  simp

theorem argField_commandWord (a : BitVec 10) (b : BitVec 1) (op : BitVec 8) : argField (commandWord a b op) = a := by
  ext i hi
  simp only [argField, commandWord, BitVec.getElem_extractLsb', BitVec.getLsbD_append]
  rw [if_neg (by omega), if_neg (by omega), if_neg (by omega), if_pos (by omega)]
  rw [show 16 + i - 8 - 1 - 7 = i by omega, BitVec.getLsbD_eq_getElem hi]

theorem highReserved_commandWord (a : BitVec 10) (b : BitVec 1) (op : BitVec 8) : highReserved (commandWord a b op) = 0 := by
  ext i hi
  simp only [highReserved, commandWord, BitVec.getElem_extractLsb', BitVec.getLsbD_append]
  rw [if_neg (by omega), if_neg (by omega), if_neg (by omega), if_neg (by omega)]
  simp

theorem opField_softReset (x : BitVec 24) : opField (x ++ 0x01#8) = 0x01 := by
  ext i hi
  simp only [opField, BitVec.getElem_extractLsb', BitVec.getLsbD_append]
  rw [if_pos (by omega), Nat.zero_add, BitVec.getLsbD_eq_getElem hi]
  rfl

theorem ignoredField_softReset (x : BitVec 24) : ignoredField (x ++ 0x01#8) = x := by
  ext i hi
  simp only [ignoredField, BitVec.getElem_extractLsb', BitVec.getLsbD_append]
  rw [if_neg (by omega), show 8 + i - 8 = i by omega, BitVec.getLsbD_eq_getElem hi]

/-- A word whose reserved fields are 0 is the command word of its other fields. -/
theorem eq_commandWord {w : Word} (hl : lowReserved w = 0) (hh : highReserved w = 0) :
    w = commandWord (argField w) (bField w) (opField w) := by
  ext i hi
  rw [← BitVec.getLsbD_eq_getElem hi, ← BitVec.getLsbD_eq_getElem hi]
  simp only [commandWord, BitVec.getLsbD_append]
  split_ifs with h1 h2 h3 h4
  · simp [opField, h1]
  · simp [bField, show i = 8 by omega]
  · have := congrArg (fun x => x.getLsbD (i - 9)) hl
    simp only [lowReserved, BitVec.getLsbD_extractLsb', show 9 + (i - 9) = i by omega] at this
    simpa [show i - 9 < 7 by omega] using this
  · simp only [argField, BitVec.getLsbD_extractLsb']
    simp [show i - 8 - 1 - 7 < 10 by omega, show 16 + (i - 8 - 1 - 7) = i by omega]
  · have := congrArg (fun x => x.getLsbD (i - 26)) hh
    simp only [highReserved, BitVec.getLsbD_extractLsb', show 26 + (i - 26) = i by omega] at this
    simpa [show i - 26 < 6 by omega] using this

/-- A word whose opcode is SOFT_RESET's is its ignored bits over that opcode. -/
theorem eq_softResetWord {w : Word} (h : opField w = 0x01) : w = ignoredField w ++ 0x01#8 := by
  ext i hi
  rw [← BitVec.getLsbD_eq_getElem hi, ← BitVec.getLsbD_eq_getElem hi, BitVec.getLsbD_append]
  split_ifs with h1
  · have := congrArg (fun x => x.getLsbD i) h
    simpa [opField, h1] using this
  · simp only [ignoredField, BitVec.getLsbD_extractLsb']
    simp [show i - 8 < 24 by omega, show 8 + (i - 8) = i by omega]

end Sys2Proof
end

