-- ==== Sys2Proof/Laws/PerInstr.lean ====
section
/-! SUPPORT. Statements about every instruction, one lemma per constructor of Instr. -/

namespace Sys2Proof.Laws.EncodedOpcode

/-- OP of an instruction's word is the instruction's opcode (30_encoding.md R90, R92). -/
def Statement (i : Instr) : Prop := opField (encode i) = i.opcode

theorem nop : Statement .nop := opField_commandWord _ _ _
theorem softReset (ignored : BitVec 24) : Statement (.softReset ignored) := opField_softReset ignored
theorem ftClear : Statement .ftClear := opField_commandWord _ _ _
theorem ftAnalyze : Statement .ftAnalyze := opField_commandWord _ _ _
theorem ftAddTerminator : Statement .ftAddTerminator := opField_commandWord _ _ _
theorem ftSerialize : Statement .ftSerialize := opField_commandWord _ _ _
theorem ftDeserialize : Statement .ftDeserialize := opField_commandWord _ _ _
theorem ftRead (arg : BitVec 10) : Statement (.ftRead arg) := opField_commandWord _ _ _
theorem ftWrite (arg : BitVec 10) : Statement (.ftWrite arg) := opField_commandWord _ _ _
theorem tbBuild : Statement .tbBuild := opField_commandWord _ _ _
theorem tbReadnode (arg : BitVec 10) : Statement (.tbReadnode arg) := opField_commandWord _ _ _
theorem ctBuild : Statement .ctBuild := opField_commandWord _ _ _
theorem ctRead (arg : BitVec 10) : Statement (.ctRead arg) := opField_commandWord _ _ _
theorem encSymbol (arg : BitVec 10) : Statement (.encSymbol arg) := opField_commandWord _ _ _
theorem compress : Statement .compress := opField_commandWord _ _ _
theorem decSymbol : Statement .decSymbol := opField_commandWord _ _ _
theorem decompress : Statement .decompress := opField_commandWord _ _ _
theorem bwInit : Statement .bwInit := opField_commandWord _ _ _
theorem bwPutbit (bit : Bool) : Statement (.bwPutbit bit) := opField_commandWord _ _ _
theorem bwFlush : Statement .bwFlush := opField_commandWord _ _ _
theorem brInit : Statement .brInit := opField_commandWord _ _ _
theorem brGetbit : Statement .brGetbit := opField_commandWord _ _ _

end Sys2Proof.Laws.EncodedOpcode
end

