-- ==== Sys2Proof/Safety.lean ====
section
/-! DEFINITION. The terms the claims use: what a legal state is, how a command's end shows, and the byte and bit sequences that the
stream format and the bit buffers stand for. -/

namespace Sys2Proof.Machine

/-! ### Where commands run -/

/-- No command is in flight (70_reset_and_hazards.md R343): the hidden sequencer state does not exist. -/
def State.quiet (s : State) : Prop := s.seq = Sequencer.idle

/-- No host access falls while the command runs: it is neither stopped nor raced. -/
def State.undisturbed (s : State) : Prop := s.seq.stopAt = none ∧ s.seq.races = []

/-- `PLATFORM_LE = true`, which is this hardware (00_scope.md R7). -/
def State.littleEndian (s : State) : Prop := s.par.platformLE = true

/-! ### How a command's end shows (10_state.md R28, R41, 47_control.md R271, R273) -/

/-- A command of opcode `op` ended without an error, with `s` as its body left it. -/
def afterSuccess (op : BitVec 8) (s : State) : State :=
  { s with
    status := { busy := false, err := false, errSticky := s.status.errSticky, errCode := 0, lastOp := op }
    irq := { ie := s.irq.ie, pend := true }
    seq := Sequencer.idle }

/-- A command of opcode `op` ended with the error of this code, with `s` as its body left it. -/
def afterError (op : BitVec 8) (code : BitVec 4) (s : State) : State :=
  { s with
    status := { busy := false, err := true, errSticky := true, errCode := code, lastOp := op }
    irq := { ie := s.irq.ie, pend := true }
    seq := Sequencer.idle }

/-- The next step's outcome is this state. -/
def answers (o : Host.Outcome State Fault Refusal) (P : State → Prop) : Prop :=
  ∃ t, o = .next t ∧ P t

/-- Every register reads its reset value, the tables are cleared and no command is in flight (10_state.md R42); CAPS is hardwired (R26). -/
def State.hasResetValues (t : State) : Prop :=
  readRegister t 0x00 = 0x48554646 ∧ readRegister t 0x04 = (if t.par.platformLE then 1 else 0) ∧
  (∀ off : Nat, off ≠ 0x00 → off ≠ 0x04 → readRegister t off = 0) ∧
  (∀ x : Symbol, countOf t x = 0 ∧ codeOf t x = { present := false, len := 0, bits := 0 }) ∧
  t.tree.valid = false ∧ t.codes.valid = false ∧ t.seq = Sequencer.idle

/-- STATUS as it reads while the command of word `w` runs: BUSY 1, ERR 0, ERRCODE 0, the command's LAST_OP, ERR_STICKY only if it was set
before, and 0 in every bit marked 0 (10_state.md R28, 47_control.md R271). -/
def busyStatusWord (w : Word) (sticky : Bool) (v : Word) : Prop :=
  v.getLsbD 0 = true ∧ v.getLsbD 1 = false ∧ (v.getLsbD 2 = true → sticky = true) ∧ v.getLsbD 3 = false ∧
  v.extractLsb' 4 4 = 0 ∧ v.extractLsb' 8 8 = w.extractLsb' 0 8 ∧ v.extractLsb' 16 16 = 0

/-- Run commands one after another, each to its end (70_reset_and_hazards.md R354). -/
def runAll : List Instr → State → Option State
  | [], s => some s
  | i :: rest, s =>
    match exec i s with
    | .next t => runAll rest t
    | _ => none

/-! ### Bytes -/

/-- The source bytes from SRC_POS to exhaustion (20_memory.md R63). -/
def sourceBytes (s : State) : List Byte :=
  (List.range (bytesLeft s)).map fun k => memoryGet s.src (s.ports.srcPos.toNat + k)

/-- How many bytes the sink still takes (20_memory.md R65). -/
def room (s : State) : Nat := s.ports.dstCap.toNat - s.ports.dstPos.toNat

/-- Bytes written at ascending addresses (20_memory.md R70). -/
def writeBytes : List Host.Cell → Nat → List Byte → List Host.Cell
  | m, _, [] => m
  | m, a, b :: bs => writeBytes (memoryPut m a b) (a + 1) bs

/-- The state with bytes appended to the sink. -/
def appended (s : State) (bs : List Byte) : State :=
  { s with
    dst := writeBytes s.dst s.ports.dstPos.toNat bs
    ports := { s.ports with dstPos := BitVec.ofNat 32 (s.ports.dstPos.toNat + bs.length) } }

/-- The state with source bytes consumed. -/
def consumed (s : State) (n : Nat) : State :=
  { s with ports := { s.ports with srcPos := BitVec.ofNat 32 (s.ports.srcPos.toNat + n) } }

/-- A number as so many bytes, least significant first (20_memory.md R68). -/
def littleEndianBytes (width v : Nat) : List Byte :=
  (List.range width).map fun j => BitVec.ofNat 8 (v / 256 ^ j)

/-! ### The frequency table (41_frequency_table.md) -/

/-- Every count is at most `MAX_COUNT` (10_state.md R33). -/
def countsLegal (counts : Vector Word 257) : Prop := ∀ x : Symbol, counts[x.val].toNat ≤ Config.maxCount

/-- How often a byte value occurs, as a table of counts; the terminator does not occur (41_frequency_table.md R132). -/
def occurrences (bytes : List Byte) (x : Symbol) : Nat := bytes.countP fun b => b.toNat == x.val

/-- The table of the occurrence counts (41_frequency_table.md R132). -/
def occurrenceTable (bytes : List Byte) : Vector Word 257 :=
  Vector.ofFn fun x => BitVec.ofNat 32 (occurrences bytes x)

/-- The table that COMPRESS builds: the occurrences and a terminator count of 1 (44_compress.md R206). -/
def compressTable (bytes : List Byte) : Vector Word 257 := (occurrenceTable bytes).set terminator.val 1

/-- The present symbols, ascending. -/
def presentSymbols (counts : Vector Word 257) : List Symbol := allSymbols.filter fun x => counts[x.val] != 0

/-- The largest count. -/
def largestCount (counts : Vector Word 257) : Nat := (allSymbols.map fun x => counts[x.val].toNat).foldr max 0

/-- A serialized table: delimiter, (count, symbol) of the present symbols, delimiter (30_encoding.md R97). -/
def serializedTable (counts : Vector Word 257) : List Byte :=
  littleEndianBytes 4 (largestCount counts + 1) ++
  (presentSymbols counts).flatMap (fun x =>
    littleEndianBytes 4 counts[x.val].toNat ++ littleEndianBytes 2 x.val) ++
  littleEndianBytes 4 (largestCount counts + 1)

/-- The number that bytes stand for, least significant first (20_memory.md R67). -/
def bytesValue (bytes : List Byte) : Nat := bytes.foldr (fun b rest => b.toNat + 256 * rest) 0

/-- The signed reading of so many bytes: `s32` for four and `s16` for two (00_scope.md R9). -/
def signedValue (bytes : List Byte) : Int :=
  if 2 * bytesValue bytes < 256 ^ bytes.length then bytesValue bytes
  else (bytesValue bytes : Int) - (256 ^ bytes.length : Nat)

/-- What reading pairs up to the delimiter `d` comes to (41_frequency_table.md R136): whether the terminating delimiter was found, the
table, and how many bytes were taken, over the table and the number so far. -/
def readPairs (d : Int) : List Byte → Vector Word 257 → Nat → Bool × Vector Word 257 × Nat
  | b0 :: b1 :: b2 :: b3 :: rest, table, taken =>
    let c := signedValue [b0, b1, b2, b3]
    if c = d then (true, table, taken + 4)
    else if c < 0 ∨ (Config.maxCount : Int) < c then (false, table, taken + 4)
    else
      match rest with
      | s0 :: s1 :: rest =>
        if h : bytesValue [s0, s1] ≤ 256 then
          readPairs d rest (table.set (bytesValue [s0, s1]) (BitVec.ofInt 32 c)) (taken + 6)
        else (false, table, taken + 6)
      | short => (false, table, taken + 4 + short.length)
  | short, table, taken => (false, table, taken + short.length)

/-- What reading a serialized table comes to (41_frequency_table.md R136). -/
def readTable (bytes : List Byte) : Bool × Vector Word 257 × Nat :=
  if bytes.length < 4 then (false, Vector.replicate 257 0, bytes.length)
  else readPairs (signedValue (bytes.take 4)) (bytes.drop 4) (Vector.replicate 257 0) 4

/-! ### Bits (30_encoding.md R100, 46_bitstream.md) -/

/-- Up to eight bits as a byte, the first at bit 0 and the missing ones 0. -/
def packByte (bits : List Bool) : Byte :=
  BitVec.ofNat 8 (bits.foldr (fun b rest => b.toNat + 2 * rest) 0)

/-- The whole bytes of a bit sequence. -/
def wholeBytes (bits : List Bool) : List Byte :=
  (List.range (bits.length / 8)).map fun j => packByte ((bits.drop (8 * j)).take 8)

/-- The bits after the whole bytes. -/
def restBits (bits : List Bool) : List Bool := bits.drop (8 * (bits.length / 8))

/-- A bit sequence packed LSB-first and zero-padded to a whole byte (30_encoding.md R100). -/
def packBits (bits : List Bool) : List Byte :=
  if restBits bits = [] then wholeBytes bits else wholeBytes bits ++ [packByte (restBits bits)]

/-- The buffered bits of a writer, in write order (10_state.md R38). -/
def bufferedBits (w : BitWriter) : List Bool := (List.range w.n.toNat).map fun k => w.buf.getLsbD k

/-- A writer that holds these bits (10_state.md R38). -/
def writerOf (bits : List Bool) : BitWriter := { n := BitVec.ofNat 3 bits.length, buf := packByte bits }

/-- The bits of a byte, bit 0 first. -/
def byteBits (b : Byte) : List Bool := (List.range 8).map fun k => b.getLsbD k

/-- The bits the reader delivers from now to its END (46_bitstream.md R246). -/
def readerBits (s : State) : List Bool :=
  (byteBits s.br.cur).drop (8 - s.br.rem.toNat) ++ (sourceBytes s).flatMap byteBits

/-! ### Trees and codes -/

/-- The entry is a leaf (10_state.md R35). -/
def Node.isLeaf : Node → Bool
  | .leaf _ _ => true
  | .internal _ _ _ => false

/-- The symbol of a leaf. -/
def Node.symbol? : Node → Option Symbol
  | .leaf _ x => some x
  | .internal _ _ _ => none

/-- The children of an entry, left first. -/
def Node.children : Node → List (BitVec 10)
  | .leaf _ _ => []
  | .internal _ l r => [l, r]

/-- The invariants of a valid tree (10_state.md R36). -/
def treeSound (t : Tree) : Prop :=
  ∃ leaves joins : List Node,
    t.arena = leaves ++ joins ∧ leaves.length = joins.length + 1 ∧ leaves.length ≤ 257 ∧
    (∀ x ∈ leaves, x.isLeaf = true ∧ nodeWeight x ≠ 0) ∧ (leaves.filterMap Node.symbol?).Pairwise (· < ·) ∧
    (∀ x ∈ joins, x.isLeaf = false) ∧
    t.root.toNat = 2 * leaves.length - 2 ∧ t.nodeCount.toNat = 2 * leaves.length - 1 ∧
    (∀ (i : Nat) (w : BitVec 40) (l r : BitVec 10), t.arena[i]? = some (.internal w l r) → l.toNat < i ∧ r.toNat < i) ∧
    (t.arena.flatMap Node.children).Nodup

/-- The entry at the end of a path from an entry: bit 0 goes left, bit 1 goes right (30_encoding.md R101, 45_decompress.md R223). -/
def nodeOnPath (arena : List Node) : BitVec 10 → List Bool → Option Node
  | i, [] => arena[i.toNat]?
  | i, b :: bs =>
    match arena[i.toNat]? with
    | some (.internal _ l r) => nodeOnPath arena (if b then r else l) bs
    | _ => none

/-- No code of the table is a prefix of another symbol's (43_code_table.md R181). -/
def prefixFree (codes : Codes) : Prop :=
  ∀ x y : Symbol, x ≠ y → codes.entries[x.val].present = true → codes.entries[y.val].present = true →
    ¬ codeBitList codes.entries[x.val] <+: codeBitList codes.entries[y.val]

/-- The code of a symbol in the codes of a table of counts. -/
def codeIn (counts : Vector Word 257) (x : Symbol) : List Bool :=
  match codesOfTree (treeOver (leavesOf counts)) with
  | none => []
  | some table => codeBitList table[x.val]

/-- The code bits of a sequence of source bytes and of the terminator after them (30_encoding.md R100). -/
def streamBits (counts : Vector Word 257) (bytes : List Byte) : List Bool :=
  (bytes.map byteSymbol ++ [terminator]).flatMap (codeIn counts)

/-- The HUFF stream of a sequence of source bytes (30_encoding.md R97, 44_compress.md R206). -/
def huffStream (bytes : List Byte) : List Byte :=
  serializedTable (compressTable bytes) ++ packBits (streamBits (compressTable bytes) bytes)

/-! ### Legal states -/

/-- Bits `bw_n .. 7` of `bw_buf` are 0 (10_state.md R38). -/
def writerLegal (w : BitWriter) : Prop := w.buf.toNat < 2 ^ w.n.toNat

/-- `br_rem` is 0 to 8 (10_state.md R39). -/
def readerLegal (r : BitReader) : Prop := r.rem.toNat ≤ 8

/-- STATUS between commands (10_state.md R28, 60_exceptions.md R300): not busy, ERR exactly when there is an error code, which is one of
1 to 8, and then ERR_STICKY. -/
def statusLegal (x : Status) : Prop :=
  x.busy = false ∧ (x.err = true ↔ x.errCode ≠ 0) ∧ x.errCode.toNat ≤ 8 ∧ (x.err = true → x.errSticky = true)

/-- A valid tree satisfies R36, and without one no arena entry is specified (10_state.md R35, R36). -/
def treeLegal (t : Tree) : Prop := (t.valid = true → treeSound t) ∧ (t.valid = false → t.arena = [])

/-- A valid code table is that of the current tree, and any other is cleared (10_state.md R37, 43_code_table.md R180). -/
def codesLegal (s : State) : Prop :=
  (s.codes.valid = true → s.tree.valid = true ∧ codesOfTree s.tree = some s.codes.entries) ∧
  (s.codes.valid = false → s.codes = Codes.empty)

/-- Both memories are in canonical form. -/
def memoriesLegal (s : State) : Prop := memoryWf s.src ∧ memoryWf s.dst

/-- A state a step can leave. -/
def State.legal (s : State) : Prop :=
  s.quiet ∧ statusLegal s.status ∧ countsLegal s.counts ∧ treeLegal s.tree ∧ codesLegal s ∧ writerLegal s.bw ∧
  readerLegal s.br ∧ memoriesLegal s

end Sys2Proof.Machine
end

