-- ==== Sys2Proof/Certificates/Slice0/Obligations.lean ====
section
/-! DEFINITION. The statements about the machine, for the provers. -/

open Sys2Proof Sys2Proof.Machine

/-! ### Encoding -/

/-- Decoding the word of a well-formed command gives the command back (30_encoding.md R90, R91, R92). -/
def Obligations.DecodeOfEncodeIsTheInstruction : Prop :=
  ∀ i : Instr, i.wellFormed = true → decode (encode i) = some i

/-- A legal word is the word of the well-formed command it decodes to (30_encoding.md R90, R91, R92). Of a SOFT_RESET word this holds
because the model's instruction keeps the bits [31:8] that R95 says are ignored: the model's form, log entry 16. -/
def Obligations.EncodeOfDecodeIsTheWord : Prop :=
  ∀ (w : Word) (i : Instr), decode w = some i → i.wellFormed = true ∧ encode i = w

/-- Every word selects at most one row of the opcode map; a word is illegal exactly when it selects none, and otherwise its command has
the opcode of the row it selects (30_encoding.md R92). -/
def Obligations.EveryWordSelectsAtMostOneRow : Prop :=
  ∀ w : Word,
    (opcodeRows.filter (selectsRow w)).length ≤ 1 ∧
    (decode w = none ↔ ∀ r ∈ opcodeRows, selectsRow w r = false) ∧
    ∀ i, decode w = some i → ∃ r ∈ opcodeRows, selectsRow w r = true ∧ opField r.1 = i.opcode

/-- The illegal words are the five cases of 30_encoding.md R94, and an illegal word ends with IllegalCommand and no other effect. -/
def Obligations.IllegalWordsOnlyReportTheError : Prop :=
  (∀ w : Word, decode w = none ↔
    (opField w).toNat ∉ [0x00, 0x01, 0x10, 0x11, 0x12, 0x13, 0x14, 0x15, 0x16, 0x20, 0x21, 0x28, 0x29, 0x30, 0x31, 0x38,
        0x39, 0x40, 0x41, 0x42, 0x48, 0x49] ∨
    (opField w ≠ 0x01 ∧ (lowReserved w ≠ 0 ∨ highReserved w ≠ 0)) ∨
    (bField w ≠ 0 ∧ opField w ≠ 0x41 ∧ opField w ≠ 0x01) ∨
    (argField w ≠ 0 ∧ (opField w).toNat ∉ [0x01, 0x15, 0x16, 0x21, 0x29, 0x30]) ∨
    (256 < (argField w).toNat ∧ (opField w).toNat ∈ [0x15, 0x16, 0x29, 0x30])) ∧
  ∀ (w : Word) (s : State), s.quiet → decode w = none → runWord w s = .next (afterError (opField w) 5 s)

/-- SOFT_RESET is recognised by its opcode alone, and bits [31:8] of its word change nothing (30_encoding.md R95). -/
def Obligations.SoftResetIgnoresTheOtherBits : Prop :=
  (∀ w : Word, opField w = 0x01 → decode w = some (.softReset (ignoredField w))) ∧
  ∀ (s : State) (v w : Word), opField v = 0x01 → opField w = 0x01 → runWord v s = runWord w s

/-- The example words of 30_encoding.md R103 decode to the commands printed beside them. -/
def Obligations.ExampleWordsDecode : Prop :=
  decode 0x00000000 = some .nop ∧ decode 0x00000001 = some (.softReset 0) ∧ decode 0x00410015 = some (.ftRead 65) ∧
  decode 0x01000016 = some (.ftWrite 256) ∧ decode 0x02000021 = some (.tbReadnode 512) ∧
  decode 0x00620029 = some (.ctRead 98) ∧ decode 0x00610030 = some (.encSymbol 97) ∧
  decode 0x00000141 = some (.bwPutbit true) ∧ decode 0x00000041 = some (.bwPutbit false) ∧
  decode 0x00000031 = some .compress ∧ decode 0x00000039 = some .decompress ∧
  decode 0x01010015 = none ∧ decode 0x00000100 = none

/-! ### Steps -/

/-- Where the host's oldest access writes a legal word to CMD, and the next one does not fall while that command runs, the step is that
command's `exec` with the access taken off the queue; and so it is after `withFetchWord` (10_state.md R27, 47_control.md R270). -/
def Obligations.StepRunsTheDecodedCommand : Prop :=
  (∀ (s : State) (flag : Bool) (w : Word) (rest : List HostOp) (i : Instr),
    s.host.bus = { whileBusy := flag, access := .regWrite .word (s.par.regBase + 0x08) w } :: rest →
    (∀ op ∈ rest.head?, op.whileBusy = false) → decode w = some i →
    step s = exec i (s.setHost { s.host with bus := rest })) ∧
  ∀ (s : State) (w : Word) (i : Instr), decode w = some i →
    step (s.withFetchWord 32 w.toNat) =
      exec i (s.setHost { s.host with bus := s.host.bus.dropWhile (·.whileBusy) })

/-- Where the host's oldest access writes an illegal word to CMD, the step ends with IllegalCommand and changes nothing but STATUS,
IRQ.PEND and the queue (30_encoding.md R94, 60_exceptions.md R306). -/
def Obligations.StepOfAnIllegalWordReportsIllegalCommand : Prop :=
  ∀ (s : State) (w : Word) (rest : List HostOp), s.quiet →
    s.host.bus = { whileBusy := false, access := .regWrite .word (s.par.regBase + 0x08) w } :: rest →
    (∀ op ∈ rest.head?, op.whileBusy = false) → decode w = none →
    step s = .next { s with
      status := { busy := false, err := true, errSticky := true, errCode := 5, lastOp := w.extractLsb' 0 8 }
      irq := { ie := s.irq.ie, pend := true }
      host := { s.host with bus := rest } }

/-- Every command that a legal core runs ends: it is not busy, its opcode is in LAST_OP, PEND is set and IE kept, the hidden state is
gone, and the state is legal (47_control.md R273, 70_reset_and_hazards.md R344, R358). -/
def Obligations.EveryCommandEnds : Prop :=
  ∀ (i : Instr) (s : State), s.legal → answers (exec i s) fun t =>
    t.status.busy = false ∧ t.status.lastOp = i.opcode ∧ t.irq = { ie := s.irq.ie, pend := true } ∧ t.legal

/-! ### Invariants -/

/-- The reset state is legal (10_state.md R42). -/
def Obligations.ResetStateIsLegal : Prop := State.reset.legal

/-- Every step of a legal machine that leaves a state leaves a legal one: no command in flight, counts at most MAX_COUNT (10_state.md
R33), a valid tree as R36 says, a valid code table that of the current tree (R37), buffers as R38 and R39 say, an error code that R300
lists, and memories in canonical form. -/
def Obligations.StepKeepsLegalStates : Prop :=
  ∀ s t : State, s.legal → step s = .next t → t.legal

/-- No step of a legal machine ends in a fault (10_state.md R36, 45_decompress.md R223). -/
def Obligations.StepOfALegalStateDoesNotFault : Prop :=
  ∀ (s : State) (f : Fault), s.legal → step s ≠ .fault f

/-- No step changes PLATFORM_LE or REG_BASE (00_scope.md R6, 20_memory.md R71). -/
def Obligations.StepKeepsTheParameters : Prop :=
  ∀ s t : State, step s = .next t → t.par = s.par

/-! ### What commands leave unchanged -/

/-- No command writes SRC, SRC_LEN, DST_CAP, DATA_IN, IRQ.IE, the parameters or the host's side (10_state.md R29, R30, R31, R41,
20_memory.md R60). -/
def Obligations.CommandsKeepWhatIsTheHosts : Prop :=
  ∀ (i : Instr) (s t : State), s.quiet → exec i s = .next t →
    t.src = s.src ∧ t.ports.srcLen = s.ports.srcLen ∧ t.ports.dstCap = s.ports.dstCap ∧ t.ports.dataIn = s.ports.dataIn ∧
    t.irq.ie = s.irq.ie ∧ t.par = s.par ∧ t.host = s.host

/-- A command writes DST only at the offsets from DST_POS at its start up to DST_POS at its end, and those lie below DST_CAP
(20_memory.md R65, R70). -/
def Obligations.CommandsWriteDstOnlyFromDstPosOn : Prop :=
  ∀ (i : Instr) (s t : State), s.quiet → exec i s = .next t →
    s.ports.dstPos.toNat ≤ t.ports.dstPos.toNat ∧
    (t.ports.dstPos = s.ports.dstPos ∨ t.ports.dstPos.toNat ≤ s.ports.dstCap.toNat) ∧
    ∀ a : Nat, (a < s.ports.dstPos.toNat ∨ t.ports.dstPos.toNat ≤ a) → memoryGet t.dst a = memoryGet s.dst a

/-- A command moves SRC_POS only onward and not past SRC_LEN (10_state.md R29, 20_memory.md R63, R64). -/
def Obligations.CommandsMoveSrcPosOnlyOnward : Prop :=
  ∀ (i : Instr) (s t : State), s.quiet → exec i s = .next t →
    s.ports.srcPos.toNat ≤ t.ports.srcPos.toNat ∧
    (t.ports.srcPos = s.ports.srcPos ∨ t.ports.srcPos.toNat ≤ s.ports.srcLen.toNat)

/-- Each piece of state is changed only by the commands listed for it (10_state.md R43, and R32 for the result registers). -/
def Obligations.CommandsWriteOnlyTheirState : Prop :=
  ∀ (i : Instr) (s t : State), s.quiet → exec i s = .next t →
    ((i.opcode.toNat ∉ [0x10, 0x11, 0x12, 0x14, 0x16, 0x31, 0x39, 0x01]) → t.counts = s.counts) ∧
    ((i.opcode.toNat ∉ [0x20, 0x31, 0x39, 0x01]) → t.tree = s.tree) ∧
    ((i.opcode.toNat ∉ [0x20, 0x28, 0x31, 0x39, 0x01]) → t.codes = s.codes) ∧
    ((i.opcode.toNat ∉ [0x40, 0x41, 0x42, 0x30, 0x31, 0x01]) → t.bw = s.bw) ∧
    ((i.opcode.toNat ∉ [0x48, 0x49, 0x38, 0x39, 0x01]) → t.br = s.br) ∧
    ((i.opcode.toNat ∉ [0x11, 0x14, 0x49, 0x38, 0x31, 0x39]) → t.ports.srcPos = s.ports.srcPos) ∧
    ((i.opcode.toNat ∉ [0x13, 0x41, 0x42, 0x30, 0x31, 0x39]) → t.ports.dstPos = s.ports.dstPos ∧ t.dst = s.dst) ∧
    ((i.opcode.toNat ∉ [0x29, 0x01]) → t.results.codeBits = s.results.codeBits) ∧
    ((i.opcode.toNat ∉ [0x15, 0x21, 0x29, 0x49, 0x38, 0x39, 0x01]) → t.results.result = s.results.result) ∧
    ((i.opcode.toNat ∉ [0x21, 0x01]) → t.results.result2 = s.results.result2 ∧ t.results.result3 = s.results.result3)

/-! ### Errors -/

/-- With `PLATFORM_LE = false` every well-formed command but NOP and SOFT_RESET ends with PlatformError and no other effect
(60_exceptions.md R303); with `PLATFORM_LE = true` none does. -/
def Obligations.BigEndianPlatformEndsWithPlatformError : Prop :=
  (∀ (i : Instr) (s : State), s.quiet → i.wellFormed = true → s.par.platformLE = false → i.opcode ≠ 0x00 → i.opcode ≠ 0x01 →
    exec i s = .next (afterError i.opcode 3 s)) ∧
  ∀ (i : Instr) (s t : State), s.quiet → s.par.platformLE = true → exec i s = .next t → t.status.errCode ≠ 3

/-- A command ends with an error only of the kinds listed for it (60_exceptions.md R301). -/
def Obligations.CommandsRaiseOnlyTheirErrors : Prop :=
  ∀ (i : Instr) (s t : State), s.quiet → exec i s = .next t →
    t.status.errCode = 0 ∨
    (t.status.errCode = 1 ∧ i.opcode.toNat ∈ [0x14, 0x20, 0x39]) ∨
    (t.status.errCode = 2 ∧ i.opcode.toNat ∈ [0x30, 0x31, 0x38]) ∨
    (t.status.errCode = 3 ∧ i.opcode.toNat ∉ [0x00, 0x01]) ∨
    (t.status.errCode = 4 ∧ i.opcode.toNat ∈ [0x38, 0x39]) ∨
    (t.status.errCode = 5 ∧ i.opcode.toNat ∈ [0x15, 0x16, 0x21, 0x29, 0x30]) ∨
    (t.status.errCode = 6 ∧ i.opcode.toNat ∈ [0x11, 0x12, 0x16, 0x31]) ∨
    (t.status.errCode = 7 ∧ i.opcode.toNat ∈ [0x13, 0x30, 0x31, 0x39, 0x41, 0x42]) ∨
    (t.status.errCode = 8 ∧ i.opcode.toNat ∈ [0x21, 0x28, 0x29, 0x38])

/-- ERR shows the last command's error and ERR_STICKY any error since a SOFT_RESET, which is the only command that clears it
(10_state.md R28, 60_exceptions.md R314). -/
def Obligations.ErrShowsTheLastErrorAndStickyAnyError : Prop :=
  ∀ (i : Instr) (s t : State), s.quiet → exec i s = .next t →
    (t.status.err = true ↔ t.status.errCode ≠ 0) ∧
    (i.opcode ≠ 0x01 → t.status.errSticky = (s.status.errSticky || t.status.err)) ∧
    (i.opcode = 0x01 → t.status.errSticky = false ∧ t.status.err = false)

/-! ### Control commands and reset -/

/-- NOP ends without an error and leaves everything else; its word is illegal if any other bit is set (47_control.md R274). SOFT_RESET clears
the codec state, the results and ERR_STICKY, and keeps all else (R276). -/
def Obligations.NopKeepsAllAndSoftResetClearsTheCodecState : Prop :=
  (∀ s : State, s.quiet → exec .nop s = .next (afterSuccess 0x00 s)) ∧
  (∀ w : Word, opField w = 0x00 → w ≠ 0 → decode w = none) ∧
  ∀ (s : State) (ignored : BitVec 24), s.quiet → exec (.softReset ignored) s = .next { s with
    status := { busy := false, err := false, errSticky := false, errCode := 0, lastOp := 0x01 }
    irq := { ie := s.irq.ie, pend := true }
    results := { result := 0, result2 := 0, result3 := 0, codeBits := Vector.replicate 8 0 }
    counts := Vector.replicate 257 0
    tree := { valid := false, root := 0, nodeCount := 0, arena := [] }
    codes := { valid := false, entries := Vector.replicate 257 { present := false, len := 0, bits := 0 } }
    bw := { n := 0, buf := 0 }
    br := { rem := 0, cur := 0 }
    seq := Sequencer.idle }

/-- After the reset input every register reads its reset value, the tables and buffers are cleared, no command is in flight, and SRC is as
before (10_state.md R42, 70_reset_and_hazards.md R340). An idle core leaves DST as before; a command that it stops leaves only bytes of DST
from DST_POS at its start up to DST_CAP. That the reset is an access of the host's queue, and that the parameters and the host's side stay,
is the model's form (log entries 2, 3, 15); the beat at which the command stops is a free value (log entry 7). -/
def Obligations.HardwareResetLeavesTheResetValues : Prop :=
  (∀ (s : State) (flag : Bool) (rest : List HostOp), s.host.bus = { whileBusy := flag, access := .hardReset } :: rest →
    answers (step s) fun t =>
      t.hasResetValues ∧ t.src = s.src ∧ t.dst = s.dst ∧ t.par = s.par ∧ t.host = { s.host with bus := rest }) ∧
  ∀ (s : State) (w : Word) (rest : List HostOp), s.legal →
    s.host.bus = { whileBusy := false, access := .regWrite .word (s.par.regBase + 0x08) w } ::
      { whileBusy := true, access := .hardReset } :: rest →
    (∀ op ∈ rest, op.whileBusy = false) →
    answers (step s) fun t =>
      t.hasResetValues ∧ t.src = s.src ∧ t.par = s.par ∧ t.host.bus = rest ∧ t.host.readLog = s.host.readLog ∧
      ∀ a : Nat, (a < s.ports.dstPos.toNat ∨ s.ports.dstCap.toNat ≤ a) → memoryGet t.dst a = memoryGet s.dst a

/-! ### Frequency table -/

/-- FT_CLEAR (41_frequency_table.md R130), and FT_ADD_TERMINATOR (R133). -/
def Obligations.FtClearAndFtAddTerminatorSetTheCounts : Prop :=
  ∀ s : State, s.quiet → s.littleEndian →
    exec .ftClear s = .next (afterSuccess 0x10 { s with counts := Vector.replicate 257 0 }) ∧
    exec .ftAddTerminator s =
      if (s.counts[256]).toNat = 0x7FFFFFFE then .next (afterError 0x12 6 s)
      else .next (afterSuccess 0x12 { s with counts := s.counts.set 256 (s.counts[256] + 1) })

/-- FT_ANALYZE counts the occurrences of the source bytes and consumes them all, if no count overflows (41_frequency_table.md R132). -/
def Obligations.FtAnalyzeCountsTheSourceBytes : Prop :=
  ∀ s : State, s.quiet → s.littleEndian →
    (∀ x : Symbol, occurrences (sourceBytes s) x ≤ Config.maxCount) →
    exec .ftAnalyze s = .next (afterSuccess 0x11
      (consumed { s with counts := occurrenceTable (sourceBytes s) } (bytesLeft s)))

/-- FT_ANALYZE ends with CountOverflow at the first byte that would make a count pass MAX_COUNT; that byte is not consumed and the counts
of the bytes before it stay (41_frequency_table.md R131, 60_exceptions.md R307). -/
def Obligations.FtAnalyzeStopsAtTheOverflowingByte : Prop :=
  ∀ (s : State) (k : Nat) (b : Byte), s.quiet → s.littleEndian → (sourceBytes s)[k]? = some b →
    (∀ x : Symbol, occurrences ((sourceBytes s).take k) x ≤ Config.maxCount) →
    occurrences ((sourceBytes s).take k) (byteSymbol b) = Config.maxCount →
    exec .ftAnalyze s = .next (afterError 0x11 6
      (consumed { s with counts := occurrenceTable ((sourceBytes s).take k) } k))

/-- FT_SERIALIZE writes the serialized table, or with too little room as much of it as fits and ends with IOError; nothing else changes
(41_frequency_table.md R134). -/
def Obligations.FtSerializeWritesTheTable : Prop :=
  ∀ s : State, s.quiet → s.littleEndian → countsLegal s.counts →
    exec .ftSerialize s =
      if (serializedTable s.counts).length ≤ room s then
        .next (afterSuccess 0x13 (appended s (serializedTable s.counts)))
      else .next (afterError 0x13 7 (appended s ((serializedTable s.counts).take (room s))))

/-- The delimiter that a serialized table starts with is greater than every count, so it equals none of them, and it is the largest count
plus 1, which fits a positive signed 32-bit field (41_frequency_table.md R134, R135). -/
def Obligations.DelimiterExceedsEveryCount : Prop :=
  ∀ counts : Vector Word 257, countsLegal counts →
    (serializedTable counts).take 4 = bytesLE32 (delimiterOf counts) ∧
    (∀ x : Symbol, counts[x.val].toNat < (delimiterOf counts).toNat) ∧ (delimiterOf counts).toNat < 2 ^ 31 ∧
    ((delimiterOf counts).toNat = 1 ∨ ∃ x : Symbol, counts[x.val].toNat + 1 = (delimiterOf counts).toNat)

/-- FT_DESERIALIZE reads the table at SRC_POS, or ends with FormatError where R136 says; the bytes taken stay consumed and the pairs
stored before an error stay (41_frequency_table.md R136). -/
def Obligations.FtDeserializeReadsTheTable : Prop :=
  ∀ s : State, s.quiet → s.littleEndian →
    exec .ftDeserialize s =
      let r := readTable (sourceBytes s)
      let t := consumed { s with counts := r.2.1 } r.2.2
      if r.1 = true then .next (afterSuccess 0x14 t) else .next (afterError 0x14 1 t)

/-- The bytes that FT_SERIALIZE writes, placed in the source before any trailing bytes, are read back by FT_DESERIALIZE as the same table,
`8 + 6*P` bytes being consumed (41_frequency_table.md R137, R138). -/
def Obligations.SerializedTableDeserializesToItself : Prop :=
  ∀ s : State, s.quiet → s.littleEndian → countsLegal s.counts → 8 + 6 * (presentSymbols s.counts).length ≤ room s →
    answers (exec .ftSerialize s) fun t =>
      t.ports.dstPos.toNat = s.ports.dstPos.toNat + (8 + 6 * (presentSymbols s.counts).length) ∧
      ∀ (u : State) (extra : List Byte), u.quiet → u.littleEndian →
        sourceBytes u = (List.range (8 + 6 * (presentSymbols s.counts).length)).map
          (fun k => memoryGet t.dst (s.ports.dstPos.toNat + k)) ++ extra →
        exec .ftDeserialize u = .next (afterSuccess 0x14
          (consumed { u with counts := s.counts } (8 + 6 * (presentSymbols s.counts).length)))

/-- FT_READ s for every ARG (41_frequency_table.md R139), and FT_WRITE s for every ARG and every DATA_IN (R140). -/
def Obligations.FtReadAndFtWriteReachOneCount : Prop :=
  ∀ (s : State) (arg : BitVec 10), s.quiet → s.littleEndian →
    (exec (.ftRead arg) s =
      if h : arg.toNat ≤ 256 then
        .next (afterSuccess 0x15 { s with results := { s.results with result := s.counts[arg.toNat] } })
      else .next (afterError 0x15 5 s)) ∧
    exec (.ftWrite arg) s =
      if h : arg.toNat ≤ 256 then
        if 0x7FFFFFFE < s.ports.dataIn.toNat then .next (afterError 0x16 6 s)
        else .next (afterSuccess 0x16 { s with counts := s.counts.set arg.toNat s.ports.dataIn })
      else .next (afterError 0x16 5 s)

/-! ### Tree builder -/

/-- TB_BUILD ends with FormatError and no tree if every count is 0. Otherwise it builds a tree whose first entries are the leaves of the
present symbols, ascending, and whose other entries are internal nodes over earlier entries, with the root last, and it clears the code
table; nothing else changes (42_tree_builder.md R160, R162). -/
def Obligations.TbBuildLaysOutTheArena : Prop :=
  ∀ s : State, s.quiet → s.littleEndian →
    ((∀ x : Symbol, s.counts[x.val] = 0) →
      exec .tbBuild s = .next (afterError 0x20 1 { s with tree := Tree.none, codes := Codes.empty })) ∧
    (∀ L : Nat, (presentSymbols s.counts).length = L → 0 < L → ∃ tree : Tree,
      exec .tbBuild s = .next (afterSuccess 0x20 { s with tree := tree, codes := Codes.empty }) ∧
      tree.valid = true ∧ tree.root.toNat = 2 * L - 2 ∧ tree.nodeCount.toNat = 2 * L - 1 ∧ tree.arena.length = 2 * L - 1 ∧
      (∀ (k : Nat) (x : Symbol), (presentSymbols s.counts)[k]? = some x →
        tree.arena[k]? = some (.leaf (s.counts[x.val].setWidth 40) x)) ∧
      ∀ k : Nat, L ≤ k → k < 2 * L - 1 → ∃ w l r, tree.arena[k]? = some (.internal w l r) ∧ l.toNat < k ∧ r.toNat < k)

/-- Among the entries that are no child of an earlier internal node, an internal node's left child is the one of least weight and, at
equal weights, least index, and its right child the next one; its weight is the exact sum of theirs (42_tree_builder.md R161, R163). -/
def Obligations.TbBuildJoinsTheLeastWeights : Prop :=
  ∀ s t : State, s.quiet → s.littleEndian → countsLegal s.counts → (∃ x : Symbol, s.counts[x.val] ≠ 0) → exec .tbBuild s = .next t →
    ∀ (i : Nat) (w : BitVec 40) (l r : BitVec 10), t.tree.arena[i]? = some (.internal w l r) →
      let free := fun j : Nat => j < i ∧ ∀ (k : Nat) (w' : BitVec 40) (l' r' : BitVec 10), k < i →
        t.tree.arena[k]? = some (.internal w' l' r') → l'.toNat ≠ j ∧ r'.toNat ≠ j
      let below := fun j k : Nat => weightAt t.tree.arena j < weightAt t.tree.arena k ∨
        (weightAt t.tree.arena j = weightAt t.tree.arena k ∧ j < k)
      free l.toNat ∧ free r.toNat ∧ below l.toNat r.toNat ∧
      (∀ j, free j → j ≠ l.toNat → j ≠ r.toNat → below r.toNat j) ∧
      w.toNat = weightAt t.tree.arena l.toNat + weightAt t.tree.arena r.toNat

/-- The weight of the root is the sum of all counts, below 2^40 (42_tree_builder.md R165). -/
def Obligations.RootWeightIsTheSumOfTheCounts : Prop :=
  ∀ s t : State, s.quiet → s.littleEndian → countsLegal s.counts → (∃ x : Symbol, s.counts[x.val] ≠ 0) → exec .tbBuild s = .next t →
    weightAt t.tree.arena t.tree.root.toNat = (allSymbols.map fun x => s.counts[x.val].toNat).sum ∧
    (allSymbols.map fun x => s.counts[x.val].toNat).sum < 2 ^ 40

/-- TB_BUILD is a function of the counts alone (42_tree_builder.md R167). -/
def Obligations.TbBuildDependsOnTheCountsAlone : Prop :=
  ∀ s u t v : State, s.quiet → u.quiet → s.littleEndian → u.littleEndian → s.counts = u.counts →
    exec .tbBuild s = .next t → exec .tbBuild u = .next v → t.tree = v.tree ∧ t.status.errCode = v.status.errCode

/-- TB_READNODE i, for every index, on a core whose tree is as 10_state.md R36 says (42_tree_builder.md R166). -/
def Obligations.TbReadnodeReturnsTheNode : Prop :=
  ∀ (s : State) (i : BitVec 10), s.quiet → s.littleEndian → treeLegal s.tree →
    (s.tree.valid = false → exec (.tbReadnode i) s = .next (afterError 0x21 8 s)) ∧
    (s.tree.valid = true → s.tree.nodeCount.toNat ≤ i.toNat → exec (.tbReadnode i) s = .next (afterError 0x21 5 s)) ∧
    (s.tree.valid = true → i.toNat < s.tree.nodeCount.toNat → ∃ x : Node, s.tree.arena[i.toNat]? = some x ∧
      exec (.tbReadnode i) s = .next (afterSuccess 0x21 { s with results := { s.results with
        result := (nodeWeight x).extractLsb' 0 32
        result2 := 0#24 ++ (nodeWeight x).extractLsb' 32 8
        result3 := match x with
          | .leaf _ y => 0x80000000 + BitVec.ofNat 32 y.val
          | .internal _ l r => 0#6 ++ l ++ 0#6 ++ r } }))

/-! ### Codes -/

/-- CT_BUILD gives every symbol of the tree the path from the root to its leaf, 0 for left and 1 for right, and no code to the others;
nothing else changes. Without a valid tree it ends with SequenceError and no other effect (43_code_table.md R180). -/
def Obligations.CtBuildRecordsTheTreePaths : Prop :=
  ∀ s : State, s.quiet → s.littleEndian →
    (s.tree.valid = false → exec .ctBuild s = .next (afterError 0x28 8 s)) ∧
    (s.tree.valid = true → treeSound s.tree → ∃ e : Vector Code 257,
      exec .ctBuild s = .next (afterSuccess 0x28 { s with codes := { valid := true, entries := e } }) ∧
      ∀ x : Symbol,
        (e[x.val].present = true ∧ (∃ w, nodeOnPath s.tree.arena s.tree.root (codeBitList e[x.val]) = some (.leaf w x)) ∧
          e[x.val].bits.toNat < 2 ^ e[x.val].len.toNat ∧ e[x.val].len.toNat ≤ 256) ∨
        (e[x.val] = { present := false, len := 0, bits := 0 } ∧ ∀ w, Node.leaf w x ∉ s.tree.arena))

/-- After a CT_BUILD on any sound tree the symbols with a code are those with a leaf, and no code is a prefix of another; so after TB_BUILD
and CT_BUILD the symbols with a code are those with a non-zero count (43_code_table.md R181). -/
def Obligations.CodesArePrefixFree : Prop :=
  (∀ s : State, s.quiet → s.littleEndian → s.tree.valid = true → treeSound s.tree →
    answers (exec .ctBuild s) fun u => u.codes.valid = true ∧ prefixFree u.codes ∧
      ∀ x : Symbol, (codeOf u x).present = true ↔ ∃ w, Node.leaf w x ∈ s.tree.arena) ∧
  ∀ s : State, s.quiet → s.littleEndian → (∃ x : Symbol, s.counts[x.val] ≠ 0) →
    ∃ u : State, runAll [.tbBuild, .ctBuild] s = some u ∧ u.codes.valid = true ∧ prefixFree u.codes ∧
      ∀ x : Symbol, (codeOf u x).present = true ↔ s.counts[x.val] ≠ 0

/-- CT_READ s, for every ARG (43_code_table.md R185). -/
def Obligations.CtReadReturnsTheCode : Prop :=
  ∀ (s : State) (arg : BitVec 10), s.quiet → s.littleEndian →
    exec (.ctRead arg) s =
      if h : arg.toNat ≤ 256 then
        if s.codes.valid = false then .next (afterError 0x29 8 s)
        else
          let c := s.codes.entries[arg.toNat]
          .next (afterSuccess 0x29 { s with results := { s.results with
            result := if c.present then 1#1 ++ 0#22 ++ c.len else 0
            codeBits := #v[c.bits.extractLsb' 0 32, c.bits.extractLsb' 32 32, c.bits.extractLsb' 64 32,
              c.bits.extractLsb' 96 32, c.bits.extractLsb' 128 32, c.bits.extractLsb' 160 32,
              c.bits.extractLsb' 192 32, c.bits.extractLsb' 224 32] } })
      else .next (afterError 0x29 5 s)

/-! ### Bit writer and bit reader -/

/-- BW_INIT drops the buffered bits and writes no byte (46_bitstream.md R240); BR_INIT starts a new reader at SRC_POS (R245). -/
def Obligations.BwInitAndBrInitEmptyTheBuffers : Prop :=
  ∀ s : State, s.quiet → s.littleEndian →
    exec .bwInit s = .next (afterSuccess 0x40 { s with bw := { n := 0, buf := 0 } }) ∧
    exec .brInit s = .next (afterSuccess 0x48 { s with br := { rem := 0, cur := 0 } })

/-- BW_PUTBIT b buffers the bit, and on the eighth writes the byte of the eight bits; with a full sink the eighth ends with IOError and
nothing changes (46_bitstream.md R242). -/
def Obligations.BwPutbitAddsOneBit : Prop :=
  ∀ (s : State) (b : Bool), s.quiet → s.littleEndian → writerLegal s.bw →
    exec (.bwPutbit b) s =
      if s.bw.n.toNat < 7 then .next (afterSuccess 0x41 { s with bw := writerOf (bufferedBits s.bw ++ [b]) })
      else if 0 < room s then
        .next (afterSuccess 0x41 { appended s [packByte (bufferedBits s.bw ++ [b])] with bw := { n := 0, buf := 0 } })
      else .next (afterError 0x41 7 s)

/-- BW_FLUSH writes a partial byte, zero-padded, and writes nothing if no bit is buffered; with a full sink it ends with IOError and the
bits stay buffered (46_bitstream.md R243). -/
def Obligations.BwFlushWritesThePartialByte : Prop :=
  ∀ s : State, s.quiet → s.littleEndian → writerLegal s.bw →
    exec .bwFlush s =
      if bufferedBits s.bw = [] then .next (afterSuccess 0x42 s)
      else if 0 < room s then
        .next (afterSuccess 0x42 { appended s [packByte (bufferedBits s.bw)] with bw := { n := 0, buf := 0 } })
      else .next (afterError 0x42 7 s)

/-- From an empty writer, eight bits give one byte, at the eighth; one to seven bits give none, and a flush after them one; a flush of no
bits gives none (46_bitstream.md R244). -/
def Obligations.WriterEmitsAByteAtItsBoundaries : Prop :=
  ∀ (s : State) (bits : List Bool), s.quiet → s.littleEndian → s.bw = { n := 0, buf := 0 } → 0 < room s → bits.length ≤ 8 →
    ∃ t u : State, runAll (bits.map .bwPutbit) s = some t ∧ runAll (bits.map .bwPutbit ++ [.bwFlush]) s = some u ∧
      t.ports.dstPos.toNat = s.ports.dstPos.toNat + bits.length / 8 ∧
      u.ports.dstPos.toNat = s.ports.dstPos.toNat + (bits.length + 7) / 8

/-- BR_GETBIT returns the next bit of the reader's sequence, or 0x80000000 at its end, which is no error and changes nothing else; a new
byte is taken only when a bit is needed and none is held (46_bitstream.md R246, R250). -/
def Obligations.BrGetbitReturnsTheNextBit : Prop :=
  ∀ s : State, s.quiet → s.littleEndian → readerLegal s.br →
    (readerBits s = [] → exec .brGetbit s =
      .next (afterSuccess 0x49 { s with results := { s.results with result := 0x80000000 } })) ∧
    (∀ (b : Bool) (rest : List Bool), readerBits s = b :: rest → answers (exec .brGetbit s) fun t =>
      readerBits t = rest ∧
      t = afterSuccess 0x49 { consumed s (if s.br.rem = 0 then 1 else 0) with
        results := { s.results with result := if b then 1 else 0 }
        br := if s.br.rem = 0 then { rem := 7, cur := memoryGet s.src s.ports.srcPos.toNat }
          else { rem := s.br.rem - 1, cur := s.br.cur } })

/-- What BW_PUTBIT and BW_FLUSH write from an empty writer, placed in the source, is what a new reader delivers: the same bits, then fewer
than eight padding zeros, then the end (46_bitstream.md R247). -/
def Obligations.ReaderDeliversWhatTheWriterWrote : Prop :=
  ∀ (s : State) (bits : List Bool), s.quiet → s.littleEndian → s.bw = { n := 0, buf := 0 } → (bits.length + 7) / 8 ≤ room s →
    ∃ t : State, runAll (bits.map .bwPutbit ++ [.bwFlush]) s = some t ∧
      t.ports.dstPos.toNat = s.ports.dstPos.toNat + (bits.length + 7) / 8 ∧
      ∀ u : State, u.br = { rem := 0, cur := 0 } →
        sourceBytes u = (List.range ((bits.length + 7) / 8)).map (fun k => memoryGet t.dst (s.ports.dstPos.toNat + k)) →
        ∃ pad : Nat, pad < 8 ∧ readerBits u = bits ++ List.replicate pad false

/-! ### Compress and decompress -/

/-- ENC_SYMBOL s, for every ARG: the code's bits join the buffered ones; every eight give a byte of the sink, and where a byte does not fit
the command ends with IOError, the seven bits before the failing one staying buffered. Without a code it ends with ConsistencyError and no
other effect (44_compress.md R200). -/
def Obligations.EncSymbolWritesTheCode : Prop :=
  ∀ (s : State) (arg : BitVec 10), s.quiet → s.littleEndian → writerLegal s.bw →
    exec (.encSymbol arg) s =
      if h : arg.toNat ≤ 256 then
        if s.codes.valid = true ∧ s.codes.entries[arg.toNat].present = true then
          let bits := bufferedBits s.bw ++ codeBitList s.codes.entries[arg.toNat]
          if bits.length / 8 ≤ room s then
            .next (afterSuccess 0x30 { appended s (wholeBytes bits) with bw := writerOf (restBits bits) })
          else
            .next (afterError 0x30 7 { appended s ((wholeBytes bits).take (room s)) with
              bw := writerOf ((bits.drop (8 * room s)).take 7) })
        else .next (afterError 0x30 2 s)
      else .next (afterError 0x30 5 s)

/-- COMPRESS writes exactly the HUFF stream of the source bytes: the serialized table of their counts with a terminator count of 1, then
their codes in order and the terminator's, packed LSB-first and zero-padded (44_compress.md R206); it leaves the counts, the tree and the
codes of that table, an empty writer, and the source consumed (R205). -/
def Obligations.CompressWritesTheHuffStream : Prop :=
  ∀ s : State, s.quiet → s.littleEndian → (∀ x : Symbol, occurrences (sourceBytes s) x ≤ Config.maxCount) →
    (huffStream (sourceBytes s)).length ≤ room s →
    ∃ e : Vector Code 257, codesOfTree (treeOver (leavesOf (compressTable (sourceBytes s)))) = some e ∧
      exec .compress s = .next (afterSuccess 0x31
        { appended (consumed s (bytesLeft s)) (huffStream (sourceBytes s)) with
          counts := compressTable (sourceBytes s)
          tree := treeOver (leavesOf (compressTable (sourceBytes s)))
          codes := { valid := true, entries := e }
          bw := { n := 0, buf := 0 } })

/-- What COMPRESS leaves when it fails (44_compress.md R205, 60_exceptions.md R311): with CountOverflow in the scan, the counts of the bytes
before the failing one; with IOError, the part of the stream that fits the sink: if the table does not fit, no tree and no code; else the
tree, the codes, in the writer the bits after the last whole byte, and SRC_POS past the byte whose code the failing bit belongs to, or past
the source. That root and nodeCount keep their values before TB_BUILD is the model's reading of `treeValid <- 0` (log entry 5). -/
def Obligations.CompressEndsWhereItFails : Prop :=
  ∀ s : State, s.quiet → s.littleEndian →
    let failedBefore := fun (code : BitVec 4) (u : State) => afterError 0x31 code
      { u with tree := { s.tree with valid := false, arena := [] }, codes := Codes.empty, bw := { n := 0, buf := 0 } }
    (∀ (k : Nat) (b : Byte), (sourceBytes s)[k]? = some b →
      (∀ x : Symbol, occurrences ((sourceBytes s).take k) x ≤ Config.maxCount) →
      occurrences ((sourceBytes s).take k) (byteSymbol b) = Config.maxCount →
      exec .compress s =
        .next (failedBefore 6 (consumed { s with counts := occurrenceTable ((sourceBytes s).take k) } k))) ∧
    ((∀ x : Symbol, occurrences (sourceBytes s) x ≤ Config.maxCount) →
      let counts := compressTable (sourceBytes s)
      let head := (serializedTable counts).length
      (room s < head → exec .compress s = .next (failedBefore 7
        (appended (consumed { s with counts := counts } (bytesLeft s)) ((serializedTable counts).take (room s))))) ∧
      (head ≤ room s → room s < (huffStream (sourceBytes s)).length →
        let bits := streamBits counts (sourceBytes s)
        let failing := 8 * (room s - head) + 7
        let coded := fun k : Nat => (((sourceBytes s).take k).map byteSymbol).flatMap (codeIn counts)
        ∃ (m : Nat) (e : Vector Code 257), m ≤ bytesLeft s ∧ (m = bytesLeft s ∨ failing < (coded m).length) ∧
          (m = 0 ∨ (coded (m - 1)).length ≤ failing) ∧ codesOfTree (treeOver (leavesOf counts)) = some e ∧
          exec .compress s = .next (afterError 0x31 7
            { appended (consumed s m) ((huffStream (sourceBytes s)).take (room s)) with
              counts := counts
              tree := treeOver (leavesOf counts)
              codes := { valid := true, entries := e }
              bw := writerOf ((bits.drop (8 * (room s - head))).take 7) })))

/-- DEC_SYMBOL on a valid tree as 10_state.md R36 says: a terminator that is the only leaf is returned without a bit, a data symbol that is
the only leaf is ConsistencyError, a path to a leaf at the front of the reader's bits is taken off and gives its symbol, and bits that end
before a leaf are TruncatedStreamError; without a tree it ends with SequenceError (45_decompress.md R222, R224). -/
def Obligations.DecSymbolWalksToALeaf : Prop :=
  ∀ s : State, s.quiet → s.littleEndian → readerLegal s.br →
    (s.tree.valid = false → exec .decSymbol s = .next (afterError 0x38 8 s)) ∧
    (s.tree.valid = true → treeSound s.tree →
      (∀ w, nodeOnPath s.tree.arena s.tree.root [] = some (.leaf w terminator) →
        exec .decSymbol s = .next (afterSuccess 0x38 { s with results := { s.results with result := 256 } })) ∧
      (∀ w x, x ≠ terminator → nodeOnPath s.tree.arena s.tree.root [] = some (.leaf w x) →
        exec .decSymbol s = .next (afterError 0x38 2 s)) ∧
      (∀ (path rest : List Bool) (w : BitVec 40) (x : Symbol), path ≠ [] →
        nodeOnPath s.tree.arena s.tree.root path = some (.leaf w x) → readerBits s = path ++ rest →
        answers (exec .decSymbol s) fun t => readerBits t = rest ∧
          t = afterSuccess 0x38 { s with
            results := { s.results with result := BitVec.ofNat 32 x.val }
            br := t.br
            ports := { s.ports with srcPos := t.ports.srcPos } }) ∧
      (∀ (w : BitVec 40) (l r : BitVec 10), nodeOnPath s.tree.arena s.tree.root (readerBits s) = some (.internal w l r) →
        answers (exec .decSymbol s) fun t => readerBits t = [] ∧
          t = afterError 0x38 4 { s with br := t.br, ports := { s.ports with srcPos := t.ports.srcPos } }))

/-- DECOMPRESS of the HUFF stream of a sequence of bytes writes exactly these bytes, with no error: it leaves the stream's counts and their
tree, no code, a RESULT of 256, the source consumed, and fewer than eight padding zeros in the reader (45_decompress.md R228, R230). So the
stream that COMPRESS writes, placed in the source, is decompressed to the bytes that were compressed (44_compress.md R207). -/
def Obligations.DecompressUndoesCompress : Prop :=
  (∀ (u : State) (bytes : List Byte), u.quiet → u.littleEndian → (∀ x : Symbol, occurrences bytes x ≤ Config.maxCount) →
    sourceBytes u = huffStream bytes → bytes.length ≤ room u →
    answers (exec .decompress u) fun v =>
      v = afterSuccess 0x39 { appended (consumed u (bytesLeft u)) bytes with
        counts := compressTable bytes
        tree := treeOver (leavesOf (compressTable bytes))
        codes := Codes.empty
        results := { u.results with result := 256 }
        br := v.br } ∧ v.br.rem.toNat < 8 ∧ ∀ b ∈ readerBits v, b = false) ∧
  ∀ s : State, s.quiet → s.littleEndian → (∀ x : Symbol, occurrences (sourceBytes s) x ≤ Config.maxCount) →
    (huffStream (sourceBytes s)).length ≤ room s →
    answers (exec .compress s) fun t => t.status.err = false ∧
      ∀ u : State, u.quiet → u.littleEndian → bytesLeft s ≤ room u →
        sourceBytes u = (List.range (t.ports.dstPos.toNat - s.ports.dstPos.toNat)).map
          (fun k => memoryGet t.dst (s.ports.dstPos.toNat + k)) →
        answers (exec .decompress u) fun v => v.status.err = false ∧ v.ports.srcPos = u.ports.srcLen ∧
          v.ports.dstPos.toNat = u.ports.dstPos.toNat + bytesLeft s ∧
          v.dst = writeBytes u.dst u.ports.dstPos.toNat (sourceBytes s)

/-- DECOMPRESS on a source that starts with a table with a terminator (45_decompress.md R228, R230, 60_exceptions.md R311): where the bits
after it are the codes of some bytes and then the terminator's, it writes these bytes and ends without an error; where they are the codes
of some bytes and then end before a leaf, it writes these bytes and ends with TruncatedStreamError; where they are the codes of as many
bytes as fit the sink and then of one more, it writes those that fit and ends with IOError. RESULT is the last symbol decoded, and the
bits after it are left to the reader. -/
def Obligations.DecompressDecodesUntilItEnds : Prop :=
  ∀ (s : State) (out : List Byte) (rest : List Bool), s.quiet → s.littleEndian →
    let counts := (readTable (sourceBytes s)).2.1
    let tree := treeOver (leavesOf counts)
    let bits := ((sourceBytes s).drop (readTable (sourceBytes s)).2.2).flatMap byteBits
    let code := fun b : Byte => codeIn counts (byteSymbol b)
    let left := fun (result : Word) (t : State) =>
      { appended s out with
        counts := counts
        tree := tree
        codes := Codes.empty
        results := { s.results with result := result }
        br := t.br
        ports := { (appended s out).ports with srcPos := t.ports.srcPos } }
    (readTable (sourceBytes s)).1 = true → counts[256] ≠ 0 → (∀ b ∈ out, counts[(byteSymbol b).val] ≠ 0) → out.length ≤ room s →
    (bits = out.flatMap code ++ codeIn counts terminator ++ rest →
      answers (exec .decompress s) fun t => t = afterSuccess 0x39 (left 256 t) ∧ t.br.rem.toNat < 8 ∧ readerBits t = rest) ∧
    (bits = out.flatMap code ++ rest → (∃ w l r, nodeOnPath tree.arena tree.root rest = some (.internal w l r)) →
      answers (exec .decompress s) fun t =>
        t = afterError 0x39 4 (left ((out.getLast?.map fun b => b.setWidth 32).getD s.results.result) t) ∧
        t.br.rem.toNat < 8 ∧ readerBits t = []) ∧
    ∀ b : Byte, counts[(byteSymbol b).val] ≠ 0 → out.length = room s → bits = out.flatMap code ++ code b ++ rest →
      answers (exec .decompress s) fun t =>
        t = afterError 0x39 7 (left (b.setWidth 32) t) ∧ t.br.rem.toNat < 8 ∧ readerBits t = rest

/-- DECOMPRESS rejects a table that is malformed, and one without the terminator, with FormatError before any byte is decoded: the tree is
invalid, the codes are cleared, the reader is new and the sink is as before (45_decompress.md R228, R229, 41_frequency_table.md R136). That
root and nodeCount keep their values is the model's reading of `treeValid <- 0` (log entry 5). -/
def Obligations.DecompressRejectsABadTable : Prop :=
  ∀ s : State, s.quiet → s.littleEndian →
    ((readTable (sourceBytes s)).1 = false ∨ (readTable (sourceBytes s)).2.1[256] = 0) →
    exec .decompress s = .next (afterError 0x39 1
      { consumed s (readTable (sourceBytes s)).2.2 with
        counts := (readTable (sourceBytes s)).2.1
        tree := { s.tree with valid := false, arena := [] }
        codes := Codes.empty
        br := { rem := 0, cur := 0 } })

/-! ### Bytes of the memories -/

/-- MemWrite sets one byte of DST and no other, and MemRead returns a byte of SRC; nothing else changes but the count of beats
(20_memory.md R61, R62). -/
def Obligations.MemWriteChangesOneByte : Prop :=
  ∀ (s : State) (addr : Word) (v : Byte), s.undisturbed →
    (∃ t, memWrite addr v s = .ok () t ∧ t = { s with seq := { s.seq with beat := s.seq.beat + 1 }, dst := t.dst } ∧
      ∀ a : Nat, memoryGet t.dst a = if a = addr.toNat then v else memoryGet s.dst a) ∧
    memRead addr s = .ok (memoryGet s.src addr.toNat) { s with seq := { s.seq with beat := s.seq.beat + 1 } }

/-! ### The host's accesses -/

/-- A word-sized host read at a word-aligned offset of the window returns the register of that offset and changes nothing else: ID and CAPS
their constants, CMD and the reserved offsets 0, STATUS, IRQ and the state registers their fields, and 0 in every bit marked 0 (10_state.md R23, R24, R25, R26). -/
def Obligations.HostReadsReturnTheRegisters : Prop :=
  ∀ (s : State) (flag : Bool) (off : Nat) (rest : List HostOp), off < 256 → off % 4 = 0 →
    s.host.bus = { whileBusy := flag, access := .regRead .word (s.par.regBase + off) } :: rest →
    ∃ v : Word, step s = .next { s with host := { s.host with bus := rest, readLog := v :: s.host.readLog } } ∧
      (off = 0x00 → v = 0x48554646) ∧ (off = 0x04 → v = if s.par.platformLE then 1 else 0) ∧
      (off = 0x08 → v = 0) ∧ (0x60 ≤ off → v = 0) ∧
      (off = 0x0C → v.getLsbD 0 = s.status.busy ∧ v.getLsbD 1 = s.status.err ∧ v.getLsbD 2 = s.status.errSticky ∧
        v.getLsbD 3 = false ∧ v.extractLsb' 4 4 = s.status.errCode ∧ v.extractLsb' 8 8 = s.status.lastOp ∧ v.extractLsb' 16 16 = 0) ∧
      (off = 0x10 → v = s.ports.srcPos) ∧ (off = 0x14 → v = s.ports.srcLen) ∧ (off = 0x18 → v = s.ports.dstPos) ∧
      (off = 0x1C → v = s.ports.dstCap) ∧ (off = 0x20 → v = s.ports.dataIn) ∧ (off = 0x24 → v = s.results.result) ∧
      (off = 0x28 → v = s.results.result2) ∧ (off = 0x2C → v = s.results.result3) ∧
      (off = 0x30 → v.extractLsb' 0 3 = s.bw.n ∧ v.extractLsb' 3 5 = 0 ∧ v.extractLsb' 8 8 = s.bw.buf ∧ v.extractLsb' 16 16 = 0) ∧
      (off = 0x34 → v.extractLsb' 0 4 = s.br.rem ∧ v.extractLsb' 4 4 = 0 ∧ v.extractLsb' 8 8 = s.br.cur ∧ v.extractLsb' 16 16 = 0) ∧
      (off = 0x38 → v.getLsbD 31 = s.tree.valid ∧ v.getLsbD 30 = s.codes.valid ∧ v.extractLsb' 26 4 = 0 ∧
        v.extractLsb' 16 10 = s.tree.root ∧ v.extractLsb' 10 6 = 0 ∧ v.extractLsb' 0 10 = s.tree.nodeCount) ∧
      (off = 0x3C → v.getLsbD 0 = s.irq.ie ∧ v.getLsbD 1 = s.irq.pend ∧ v.extractLsb' 2 30 = 0) ∧
      ∀ k : Fin 8, off = 0x40 + 4 * k.val → v = s.results.codeBits[k.val]

/-- A word-sized host write at a word-aligned offset of the window other than CMD writes the host-written registers, and is ignored at
every read-only or reserved offset (10_state.md R23, R24); IRQ takes IE and clears PEND by a written 1 (R41). -/
def Obligations.HostWritesReachOnlyTheirRegister : Prop :=
  ∀ (s : State) (flag : Bool) (off : Nat) (v : Word) (rest : List HostOp), off < 256 → off % 4 = 0 → off ≠ 0x08 →
    s.host.bus = { whileBusy := flag, access := .regWrite .word (s.par.regBase + off) v } :: rest →
    step s = .next { s with
      ports := {
        srcPos := if off = 0x10 then v else s.ports.srcPos
        srcLen := if off = 0x14 then v else s.ports.srcLen
        dstPos := if off = 0x18 then v else s.ports.dstPos
        dstCap := if off = 0x1C then v else s.ports.dstCap
        dataIn := if off = 0x20 then v else s.ports.dataIn }
      irq := if off = 0x3C then { ie := v.getLsbD 0, pend := if v.getLsbD 1 then false else s.irq.pend } else s.irq
      host := { s.host with bus := rest } }

/-- A host register access of another width, or at an unaligned offset, is refused (10_state.md R24). -/
def Obligations.OddHostAccessesAreRefused : Prop :=
  ∀ (s : State) (flag : Bool) (size : AccessSize) (off : Nat) (v : Word) (rest : List HostOp), off < 256 →
    (size ≠ .word ∨ off % 4 ≠ 0) →
    (s.host.bus = { whileBusy := flag, access := .regWrite size (s.par.regBase + off) v } :: rest ∨
      s.host.bus = { whileBusy := flag, access := .regRead size (s.par.regBase + off) } :: rest) →
    step s = .refused .oddAccess

/-- The interrupt output is IE and PEND: the end of any command raises it where IE is 1, and a host write of 1 to PEND lowers it
(60_exceptions.md R320). -/
def Obligations.InterruptFollowsIeAndPend : Prop :=
  (∀ (i : Instr) (s t : State), s.quiet → exec i s = .next t → irqLine t = s.irq.ie ∧ t.irq.pend = true ∧ t.status.busy = false) ∧
  ∀ (s t : State) (v : Word) (rest : List HostOp), v.getLsbD 1 = true →
    s.host.bus = { whileBusy := false, access := .regWrite .word (s.par.regBase + 0x3C) v } :: rest →
    step s = .next t → irqLine t = false

/-- A write to a register, or to CMD of a word other than a SOFT_RESET word, that falls while a command runs is dropped, whatever other
accesses fall before and after it: the step is that without the write, so no command runs for it and LAST_OP is the running command's
(70_reset_and_hazards.md R350; the model gives the effect, log entry 10). After a hardware reset no command runs any more. -/
def Obligations.WritesWhileBusyAreDropped : Prop :=
  ∀ (s : State) (w v : Word) (off : Nat) (before after : List HostOp), s.quiet → off < 256 → off % 4 = 0 →
    (off = 0x08 → opField v ≠ 0x01) → (∀ op ∈ before, op.whileBusy = true ∧ op.access ≠ .hardReset) →
    s.host.bus = { whileBusy := false, access := .regWrite .word (s.par.regBase + 0x08) w } ::
      (before ++ { whileBusy := true, access := .regWrite .word (s.par.regBase + off) v } :: after) →
    step s = step (s.setHost { s.host with
      bus := { whileBusy := false, access := .regWrite .word (s.par.regBase + 0x08) w } :: (before ++ after) })

/-- A register read that falls while a command runs leaves all but the read log and the count of free values as without it: ID and CAPS
return their constants, and STATUS BUSY 1, ERR 0, ERRCODE 0, the running command's LAST_OP and the old ERR_STICKY, which only a running
SOFT_RESET may already have cleared; any other register returns some value (70_reset_and_hazards.md R350). Of two reads of STATUS while one
command runs the second shows ERR_STICKY 1 only if the first does. While a SOFT_RESET runs that has stopped a command, ERR_STICKY is 1 only
if it was 1 before that command, and if the first command is a SOFT_RESET too, a read of STATUS before it stops that shows 0 is followed by
no 1 (R351). The read log is the model's own (log entry 12), and when SOFT_RESET clears ERR_STICKY is a free value (log entry 9). -/
def Obligations.ReadsWhileBusyShowTheRunningCommand : Prop :=
  (∀ (s t : State) (w : Word) (off : Nat) (rest : List HostOp), s.quiet → off < 256 → off % 4 = 0 →
    s.host.bus = { whileBusy := false, access := .regWrite .word (s.par.regBase + 0x08) w } ::
      { whileBusy := true, access := .regRead .word (s.par.regBase + off) } :: rest →
    (∀ op ∈ rest, op.whileBusy = false) →
    step (s.setHost { s.host with
      bus := { whileBusy := false, access := .regWrite .word (s.par.regBase + 0x08) w } :: rest }) = .next t →
    ∃ (v : Word) (n : Nat),
      step s = .next { t with host := { t.host with readLog := v :: t.host.readLog, draws := n } } ∧
      (off = 0x00 → v = 0x48554646) ∧ (off = 0x04 → v = if s.par.platformLE then 1 else 0) ∧
      (off = 0x0C → busyStatusWord w s.status.errSticky v ∧ (opField w ≠ 0x01 → v.getLsbD 2 = s.status.errSticky))) ∧
  (∀ (s t : State) (w : Word) (rest : List HostOp), s.quiet →
    s.host.bus = { whileBusy := false, access := .regWrite .word (s.par.regBase + 0x08) w } ::
      { whileBusy := true, access := .regRead .word (s.par.regBase + 0x0C) } ::
      { whileBusy := true, access := .regRead .word (s.par.regBase + 0x0C) } :: rest →
    (∀ op ∈ rest, op.whileBusy = false) →
    step (s.setHost { s.host with
      bus := { whileBusy := false, access := .regWrite .word (s.par.regBase + 0x08) w } :: rest }) = .next t →
    ∃ (v₁ v₂ : Word) (n : Nat),
      step s = .next { t with host := { t.host with readLog := v₂ :: v₁ :: t.host.readLog, draws := n } } ∧
      busyStatusWord w s.status.errSticky v₁ ∧ busyStatusWord w s.status.errSticky v₂ ∧
      (v₂.getLsbD 2 = true → v₁.getLsbD 2 = true)) ∧
  (∀ (s : State) (w v : Word) (rest : List HostOp), s.legal → opField v = 0x01 →
    s.host.bus = { whileBusy := false, access := .regWrite .word (s.par.regBase + 0x08) w } ::
      { whileBusy := true, access := .regRead .word (s.par.regBase + 0x0C) } ::
      { whileBusy := true, access := .regWrite .word (s.par.regBase + 0x08) v } ::
      { whileBusy := true, access := .regRead .word (s.par.regBase + 0x0C) } :: rest →
    (∀ op ∈ rest, op.whileBusy = false) →
    answers (step s) fun t => ∃ r₁ r₂ : Word, t.host.readLog = r₂ :: r₁ :: s.host.readLog ∧
      busyStatusWord w s.status.errSticky r₁ ∧ busyStatusWord v s.status.errSticky r₂ ∧
      (r₂.getLsbD 2 = true → r₁.getLsbD 2 = true)) ∧
  ∀ (s : State) (w v : Word) (rest : List HostOp), s.legal → opField v = 0x01 →
    s.host.bus = { whileBusy := false, access := .regWrite .word (s.par.regBase + 0x08) w } ::
      { whileBusy := true, access := .regWrite .word (s.par.regBase + 0x08) v } ::
      { whileBusy := true, access := .regRead .word (s.par.regBase + 0x0C) } :: rest →
    (∀ op ∈ rest, op.whileBusy = false) →
    answers (step s) fun t => ∃ r : Word, t.host.readLog = r :: s.host.readLog ∧ busyStatusWord v s.status.errSticky r

/-- Races while a command runs (70_reset_and_hazards.md R352): a read of a source byte by the command gives its old value or one the host
writes meanwhile, and after the command SRC holds the host's; a DST byte the host writes ends as the host's value, or, if the command
wrote it too, as either; a host read of DST gives the byte's old or its new value. Which one is a free value (log entry 8). -/
def Obligations.RacesShowTheOldOrTheNewByte : Prop :=
  (∀ (s : State) (addr : Word), s.seq.stopAt = none → ∃ (v : Byte) (n : Nat),
    memRead addr s = .ok v { s with seq := { s.seq with beat := s.seq.beat + 1 }, host := { s.host with draws := n } } ∧
    (v = memoryGet s.src addr.toNat ∨ (addr.toNat, v) ∈ s.seq.races)) ∧
  (∀ (s : State) (w a : Word) (v : Byte) (rest : List HostOp), s.legal →
    s.host.bus = { whileBusy := false, access := .regWrite .word (s.par.regBase + 0x08) w } ::
      { whileBusy := true, access := .srcWrite a v } :: rest →
    (∀ op ∈ rest, op.whileBusy = false) →
    answers (step s) fun t => ∀ b : Nat, memoryGet t.src b = if b = a.toNat then v else memoryGet s.src b) ∧
  ∀ (s t : State) (w a : Word) (v : Byte) (rest : List HostOp), s.quiet → (∀ op ∈ rest, op.whileBusy = false) →
    step (s.setHost { s.host with
      bus := { whileBusy := false, access := .regWrite .word (s.par.regBase + 0x08) w } :: rest }) = .next t →
    (s.host.bus = { whileBusy := false, access := .regWrite .word (s.par.regBase + 0x08) w } ::
        { whileBusy := true, access := .dstWrite a v } :: rest →
      ∃ (d : List Host.Cell) (n : Nat), step s = .next { t with dst := d, host := { t.host with draws := n } } ∧
        (memoryGet d a.toNat = v ∨
          (s.ports.dstPos.toNat ≤ a.toNat ∧ a.toNat < t.ports.dstPos.toNat ∧ memoryGet d a.toNat = memoryGet t.dst a.toNat)) ∧
        ∀ b : Nat, b ≠ a.toNat → memoryGet d b = memoryGet t.dst b) ∧
    (s.host.bus = { whileBusy := false, access := .regWrite .word (s.par.regBase + 0x08) w } ::
        { whileBusy := true, access := .dstRead a } :: rest →
      ∃ (r : Byte) (n : Nat),
        step s = .next { t with host := { t.host with readLog := r.setWidth 32 :: t.host.readLog, draws := n } } ∧
        (r = memoryGet s.dst a.toNat ∨ r = memoryGet t.dst a.toNat))

/-- A SOFT_RESET written while a command runs stops it and leaves the codec state cleared; of the stopped command only SRC_POS, DST_POS and
DST bytes from DST_POS at its start up to DST_POS survive (70_reset_and_hazards.md R351). -/
def Obligations.SoftResetStopsTheRunningCommand : Prop :=
  ∀ (s : State) (w v : Word) (rest : List HostOp), s.legal → opField v = 0x01 →
    s.host.bus = { whileBusy := false, access := .regWrite .word (s.par.regBase + 0x08) w } ::
      { whileBusy := true, access := .regWrite .word (s.par.regBase + 0x08) v } :: rest →
    (∀ op ∈ rest, op.whileBusy = false) →
    answers (step s) fun t =>
      t.status = { busy := false, err := false, errSticky := false, errCode := 0, lastOp := 0x01 } ∧
      t.irq = { ie := s.irq.ie, pend := true } ∧
      t.counts = Vector.replicate 257 0 ∧ t.tree = Tree.none ∧ t.codes = Codes.empty ∧ t.results = Results.zero ∧
      t.bw = { n := 0, buf := 0 } ∧ t.br = { rem := 0, cur := 0 } ∧ t.seq = Sequencer.idle ∧
      t.ports = { s.ports with srcPos := t.ports.srcPos, dstPos := t.ports.dstPos } ∧ t.src = s.src ∧ t.par = s.par ∧
      t.host.bus = rest ∧ t.host.readLog = s.host.readLog ∧
      s.ports.dstPos.toNat ≤ t.ports.dstPos.toNat ∧
      ∀ a : Nat, (a < s.ports.dstPos.toNat ∨ t.ports.dstPos.toNat ≤ a) → memoryGet t.dst a = memoryGet s.dst a
end

