-- ==== Sys2Proof/Laws/Memory.lean ====
section
/-! SUPPORT. Byte memories: read after write, and the canonical form. -/

namespace Sys2Proof.Machine

theorem memoryGet_of_not_mem {m : List Host.Cell} {a : Nat} (h : ∀ c ∈ m, c.1 ≠ a) :
    memoryGet m a = Config.unlistedByte := by
  induction m with
  | nil => rfl
  | cons c rest ih =>
    obtain ⟨k, v⟩ := c
    have hk : k ≠ a := h (k, v) (by simp)
    simp only [memoryGet, hk, if_false]
    exact ih fun c hc => h c (by simp [hc])

theorem memoryGet_dropCell (m : List Host.Cell) (a b : Nat) :
    memoryGet (dropCell m a) b = if a = b then Config.unlistedByte else memoryGet m b := by
  induction m with
  | nil => simp [dropCell, memoryGet]
  | cons c rest ih =>
    obtain ⟨k, v⟩ := c
    simp only [dropCell] at ih ⊢
    by_cases hk : k = a
    · subst hk
      simp only [bne_self_eq_false, Bool.false_eq_true, not_false_eq_true, List.filter_cons_of_neg, ih, memoryGet]
      split_ifs <;> rfl
    · rw [List.filter_cons_of_pos (by simpa using hk)]
      simp only [memoryGet, ih]
      split_ifs <;> simp_all

theorem memoryGet_insertCell {m : List Host.Cell} {a : Nat} (v : Byte) (h : ∀ c ∈ m, c.1 ≠ a) (b : Nat) :
    memoryGet (insertCell m a v) b = if a = b then v else memoryGet m b := by
  induction m with
  | nil => simp [insertCell, memoryGet]
  | cons c rest ih =>
    obtain ⟨k, w⟩ := c
    have hk : k ≠ a := h (k, w) (by simp)
    have ih := ih fun c hc => h c (by simp [hc])
    simp only [insertCell]
    split_ifs with h1 h2 h2
    · subst h2; simp [memoryGet]
    · simp [memoryGet, h2]
    · subst h2; simp [memoryGet, hk, ih]
    · simp [memoryGet, ih, h2]

theorem not_mem_dropCell (m : List Host.Cell) (a : Nat) : ∀ c ∈ dropCell m a, c.1 ≠ a := by
  intro c hc
  simpa using (List.mem_filter.mp hc).2

/-- A read after a write: the written byte at its address, any other byte as before (20_memory.md R62). -/
theorem memoryGet_memoryPut (m : List Host.Cell) (a b : Nat) (v : Byte) :
    memoryGet (memoryPut m a v) b = if a = b then v else memoryGet m b := by
  unfold memoryPut
  split_ifs with hv hab hab
  · simp [memoryGet_dropCell, hab, hv]
  · simp [memoryGet_dropCell, hab]
  · rw [memoryGet_insertCell v (not_mem_dropCell m a), if_pos hab]
  · simp [memoryGet_insertCell v (not_mem_dropCell m a), memoryGet_dropCell, hab]

theorem mem_insertCell {m : List Host.Cell} {a : Nat} {v : Byte} {c : Host.Cell} :
    c ∈ insertCell m a v ↔ c = (a, v) ∨ c ∈ m := by
  induction m with
  | nil => simp [insertCell]
  | cons d rest ih =>
    obtain ⟨k, w⟩ := d
    simp only [insertCell]
    split_ifs
    · simp
    · simp only [List.mem_cons, ih]; tauto

theorem pairwise_insertCell {m : List Host.Cell} {a : Nat} (v : Byte)
    (h : m.Pairwise fun c d => c.1 < d.1) (ha : ∀ c ∈ m, c.1 ≠ a) :
    (insertCell m a v).Pairwise fun c d => c.1 < d.1 := by
  induction m with
  | nil => simp [insertCell]
  | cons d rest ih =>
    obtain ⟨k, w⟩ := d
    rw [List.pairwise_cons] at h
    have hka : k ≠ a := ha (k, w) (by simp)
    simp only [insertCell]
    split_ifs with h1
    · rw [List.pairwise_cons]
      refine ⟨?_, by rw [List.pairwise_cons]; exact h⟩
      intro c hc
      rcases List.mem_cons.mp hc with rfl | hc
      · exact h1
      · exact Nat.lt_trans h1 (h.1 c hc)
    · rw [List.pairwise_cons]
      refine ⟨?_, ih h.2 fun c hc => ha c (by simp [hc])⟩
      intro c hc
      rcases mem_insertCell.mp hc with rfl | hc
      · show k < a; omega
      · exact h.1 c hc

/-- A write of a byte keeps the canonical form. -/
theorem memoryPut_wf {m : List Host.Cell} (a : Word) (v : Byte) (h : memoryWf m) :
    memoryWf (memoryPut m a.toNat v) := by
  have hd : memoryWf (dropCell m a.toNat) :=
    ⟨h.1.sublist List.filter_sublist, fun c hc => h.2 c (List.mem_filter.mp hc).1⟩
  unfold memoryPut
  split_ifs with hv
  · exact hd
  · refine ⟨pairwise_insertCell v hd.1 (not_mem_dropCell m _), ?_⟩
    intro c hc
    rcases mem_insertCell.mp hc with rfl | hc
    · exact ⟨hv, a.isLt⟩
    · exact hd.2 c hc

/-- Nothing is listed in the memories of the reset state, which is canonical. -/
theorem memoryWf_reset : memoryWf State.reset.src ∧ memoryWf State.reset.dst := by decide

theorem memoryGet_writeBytes (bs : List Byte) (m : List Host.Cell) (a b : Nat) :
    memoryGet (writeBytes m a bs) b = if h : a ≤ b ∧ b < a + bs.length then bs[b - a] else memoryGet m b := by
  induction bs generalizing m a with
  | nil => simp only [writeBytes, List.length_nil, Nat.add_zero]; rw [dif_neg (by omega)]
  | cons v bs ih =>
    simp only [writeBytes, ih, memoryGet_memoryPut, List.length_cons]
    by_cases h : a + 1 ≤ b ∧ b < a + 1 + bs.length
    · rw [dif_pos h, dif_pos (by omega)]
      obtain ⟨d, rfl⟩ : ∃ d, b = a + 1 + d := ⟨b - (a + 1), by omega⟩
      simp [show a + 1 + d - a = d + 1 by omega]
    · rw [dif_neg h]
      by_cases hb : a = b
      · subst hb; rw [if_pos rfl, dif_pos (by omega)]; simp
      · rw [if_neg hb, dif_neg (by omega)]

theorem writeBytes_append (xs ys : List Byte) (m : List Host.Cell) (a : Nat) :
    writeBytes m a (xs ++ ys) = writeBytes (writeBytes m a xs) (a + xs.length) ys := by
  induction xs generalizing m a with
  | nil => rfl
  | cons x xs ih => simp only [List.cons_append, writeBytes, ih, List.length_cons]; congr 1; omega

end Sys2Proof.Machine
end

