-- ==== Sys2Proof/Laws/State.lean ====
section
/-! SUPPORT. One lemma per field per update of State. -/

namespace Sys2Proof.Machine

@[simp] theorem State.setStatus_par (s : State) (x : Status) : (s.setStatus x).par = s.par := rfl
@[simp] theorem State.setStatus_status (s : State) (x : Status) : (s.setStatus x).status = x := rfl
@[simp] theorem State.setStatus_irq (s : State) (x : Status) : (s.setStatus x).irq = s.irq := rfl
@[simp] theorem State.setStatus_ports (s : State) (x : Status) : (s.setStatus x).ports = s.ports := rfl
@[simp] theorem State.setStatus_results (s : State) (x : Status) : (s.setStatus x).results = s.results := rfl
@[simp] theorem State.setStatus_counts (s : State) (x : Status) : (s.setStatus x).counts = s.counts := rfl
@[simp] theorem State.setStatus_tree (s : State) (x : Status) : (s.setStatus x).tree = s.tree := rfl
@[simp] theorem State.setStatus_codes (s : State) (x : Status) : (s.setStatus x).codes = s.codes := rfl
@[simp] theorem State.setStatus_bw (s : State) (x : Status) : (s.setStatus x).bw = s.bw := rfl
@[simp] theorem State.setStatus_br (s : State) (x : Status) : (s.setStatus x).br = s.br := rfl
@[simp] theorem State.setStatus_seq (s : State) (x : Status) : (s.setStatus x).seq = s.seq := rfl
@[simp] theorem State.setStatus_src (s : State) (x : Status) : (s.setStatus x).src = s.src := rfl
@[simp] theorem State.setStatus_dst (s : State) (x : Status) : (s.setStatus x).dst = s.dst := rfl
@[simp] theorem State.setStatus_host (s : State) (x : Status) : (s.setStatus x).host = s.host := rfl

@[simp] theorem State.setIrq_par (s : State) (x : Irq) : (s.setIrq x).par = s.par := rfl
@[simp] theorem State.setIrq_status (s : State) (x : Irq) : (s.setIrq x).status = s.status := rfl
@[simp] theorem State.setIrq_irq (s : State) (x : Irq) : (s.setIrq x).irq = x := rfl
@[simp] theorem State.setIrq_ports (s : State) (x : Irq) : (s.setIrq x).ports = s.ports := rfl
@[simp] theorem State.setIrq_results (s : State) (x : Irq) : (s.setIrq x).results = s.results := rfl
@[simp] theorem State.setIrq_counts (s : State) (x : Irq) : (s.setIrq x).counts = s.counts := rfl
@[simp] theorem State.setIrq_tree (s : State) (x : Irq) : (s.setIrq x).tree = s.tree := rfl
@[simp] theorem State.setIrq_codes (s : State) (x : Irq) : (s.setIrq x).codes = s.codes := rfl
@[simp] theorem State.setIrq_bw (s : State) (x : Irq) : (s.setIrq x).bw = s.bw := rfl
@[simp] theorem State.setIrq_br (s : State) (x : Irq) : (s.setIrq x).br = s.br := rfl
@[simp] theorem State.setIrq_seq (s : State) (x : Irq) : (s.setIrq x).seq = s.seq := rfl
@[simp] theorem State.setIrq_src (s : State) (x : Irq) : (s.setIrq x).src = s.src := rfl
@[simp] theorem State.setIrq_dst (s : State) (x : Irq) : (s.setIrq x).dst = s.dst := rfl
@[simp] theorem State.setIrq_host (s : State) (x : Irq) : (s.setIrq x).host = s.host := rfl

@[simp] theorem State.setPorts_par (s : State) (x : Ports) : (s.setPorts x).par = s.par := rfl
@[simp] theorem State.setPorts_status (s : State) (x : Ports) : (s.setPorts x).status = s.status := rfl
@[simp] theorem State.setPorts_irq (s : State) (x : Ports) : (s.setPorts x).irq = s.irq := rfl
@[simp] theorem State.setPorts_ports (s : State) (x : Ports) : (s.setPorts x).ports = x := rfl
@[simp] theorem State.setPorts_results (s : State) (x : Ports) : (s.setPorts x).results = s.results := rfl
@[simp] theorem State.setPorts_counts (s : State) (x : Ports) : (s.setPorts x).counts = s.counts := rfl
@[simp] theorem State.setPorts_tree (s : State) (x : Ports) : (s.setPorts x).tree = s.tree := rfl
@[simp] theorem State.setPorts_codes (s : State) (x : Ports) : (s.setPorts x).codes = s.codes := rfl
@[simp] theorem State.setPorts_bw (s : State) (x : Ports) : (s.setPorts x).bw = s.bw := rfl
@[simp] theorem State.setPorts_br (s : State) (x : Ports) : (s.setPorts x).br = s.br := rfl
@[simp] theorem State.setPorts_seq (s : State) (x : Ports) : (s.setPorts x).seq = s.seq := rfl
@[simp] theorem State.setPorts_src (s : State) (x : Ports) : (s.setPorts x).src = s.src := rfl
@[simp] theorem State.setPorts_dst (s : State) (x : Ports) : (s.setPorts x).dst = s.dst := rfl
@[simp] theorem State.setPorts_host (s : State) (x : Ports) : (s.setPorts x).host = s.host := rfl

@[simp] theorem State.setResults_par (s : State) (x : Results) : (s.setResults x).par = s.par := rfl
@[simp] theorem State.setResults_status (s : State) (x : Results) : (s.setResults x).status = s.status := rfl
@[simp] theorem State.setResults_irq (s : State) (x : Results) : (s.setResults x).irq = s.irq := rfl
@[simp] theorem State.setResults_ports (s : State) (x : Results) : (s.setResults x).ports = s.ports := rfl
@[simp] theorem State.setResults_results (s : State) (x : Results) : (s.setResults x).results = x := rfl
@[simp] theorem State.setResults_counts (s : State) (x : Results) : (s.setResults x).counts = s.counts := rfl
@[simp] theorem State.setResults_tree (s : State) (x : Results) : (s.setResults x).tree = s.tree := rfl
@[simp] theorem State.setResults_codes (s : State) (x : Results) : (s.setResults x).codes = s.codes := rfl
@[simp] theorem State.setResults_bw (s : State) (x : Results) : (s.setResults x).bw = s.bw := rfl
@[simp] theorem State.setResults_br (s : State) (x : Results) : (s.setResults x).br = s.br := rfl
@[simp] theorem State.setResults_seq (s : State) (x : Results) : (s.setResults x).seq = s.seq := rfl
@[simp] theorem State.setResults_src (s : State) (x : Results) : (s.setResults x).src = s.src := rfl
@[simp] theorem State.setResults_dst (s : State) (x : Results) : (s.setResults x).dst = s.dst := rfl
@[simp] theorem State.setResults_host (s : State) (x : Results) : (s.setResults x).host = s.host := rfl

@[simp] theorem State.setCounts_par (s : State) (x : Vector Word 257) : (s.setCounts x).par = s.par := rfl
@[simp] theorem State.setCounts_status (s : State) (x : Vector Word 257) : (s.setCounts x).status = s.status := rfl
@[simp] theorem State.setCounts_irq (s : State) (x : Vector Word 257) : (s.setCounts x).irq = s.irq := rfl
@[simp] theorem State.setCounts_ports (s : State) (x : Vector Word 257) : (s.setCounts x).ports = s.ports := rfl
@[simp] theorem State.setCounts_results (s : State) (x : Vector Word 257) : (s.setCounts x).results = s.results := rfl
@[simp] theorem State.setCounts_counts (s : State) (x : Vector Word 257) : (s.setCounts x).counts = x := rfl
@[simp] theorem State.setCounts_tree (s : State) (x : Vector Word 257) : (s.setCounts x).tree = s.tree := rfl
@[simp] theorem State.setCounts_codes (s : State) (x : Vector Word 257) : (s.setCounts x).codes = s.codes := rfl
@[simp] theorem State.setCounts_bw (s : State) (x : Vector Word 257) : (s.setCounts x).bw = s.bw := rfl
@[simp] theorem State.setCounts_br (s : State) (x : Vector Word 257) : (s.setCounts x).br = s.br := rfl
@[simp] theorem State.setCounts_seq (s : State) (x : Vector Word 257) : (s.setCounts x).seq = s.seq := rfl
@[simp] theorem State.setCounts_src (s : State) (x : Vector Word 257) : (s.setCounts x).src = s.src := rfl
@[simp] theorem State.setCounts_dst (s : State) (x : Vector Word 257) : (s.setCounts x).dst = s.dst := rfl
@[simp] theorem State.setCounts_host (s : State) (x : Vector Word 257) : (s.setCounts x).host = s.host := rfl

@[simp] theorem State.setTree_par (s : State) (x : Tree) : (s.setTree x).par = s.par := rfl
@[simp] theorem State.setTree_status (s : State) (x : Tree) : (s.setTree x).status = s.status := rfl
@[simp] theorem State.setTree_irq (s : State) (x : Tree) : (s.setTree x).irq = s.irq := rfl
@[simp] theorem State.setTree_ports (s : State) (x : Tree) : (s.setTree x).ports = s.ports := rfl
@[simp] theorem State.setTree_results (s : State) (x : Tree) : (s.setTree x).results = s.results := rfl
@[simp] theorem State.setTree_counts (s : State) (x : Tree) : (s.setTree x).counts = s.counts := rfl
@[simp] theorem State.setTree_tree (s : State) (x : Tree) : (s.setTree x).tree = x := rfl
@[simp] theorem State.setTree_codes (s : State) (x : Tree) : (s.setTree x).codes = s.codes := rfl
@[simp] theorem State.setTree_bw (s : State) (x : Tree) : (s.setTree x).bw = s.bw := rfl
@[simp] theorem State.setTree_br (s : State) (x : Tree) : (s.setTree x).br = s.br := rfl
@[simp] theorem State.setTree_seq (s : State) (x : Tree) : (s.setTree x).seq = s.seq := rfl
@[simp] theorem State.setTree_src (s : State) (x : Tree) : (s.setTree x).src = s.src := rfl
@[simp] theorem State.setTree_dst (s : State) (x : Tree) : (s.setTree x).dst = s.dst := rfl
@[simp] theorem State.setTree_host (s : State) (x : Tree) : (s.setTree x).host = s.host := rfl

@[simp] theorem State.setCodes_par (s : State) (x : Codes) : (s.setCodes x).par = s.par := rfl
@[simp] theorem State.setCodes_status (s : State) (x : Codes) : (s.setCodes x).status = s.status := rfl
@[simp] theorem State.setCodes_irq (s : State) (x : Codes) : (s.setCodes x).irq = s.irq := rfl
@[simp] theorem State.setCodes_ports (s : State) (x : Codes) : (s.setCodes x).ports = s.ports := rfl
@[simp] theorem State.setCodes_results (s : State) (x : Codes) : (s.setCodes x).results = s.results := rfl
@[simp] theorem State.setCodes_counts (s : State) (x : Codes) : (s.setCodes x).counts = s.counts := rfl
@[simp] theorem State.setCodes_tree (s : State) (x : Codes) : (s.setCodes x).tree = s.tree := rfl
@[simp] theorem State.setCodes_codes (s : State) (x : Codes) : (s.setCodes x).codes = x := rfl
@[simp] theorem State.setCodes_bw (s : State) (x : Codes) : (s.setCodes x).bw = s.bw := rfl
@[simp] theorem State.setCodes_br (s : State) (x : Codes) : (s.setCodes x).br = s.br := rfl
@[simp] theorem State.setCodes_seq (s : State) (x : Codes) : (s.setCodes x).seq = s.seq := rfl
@[simp] theorem State.setCodes_src (s : State) (x : Codes) : (s.setCodes x).src = s.src := rfl
@[simp] theorem State.setCodes_dst (s : State) (x : Codes) : (s.setCodes x).dst = s.dst := rfl
@[simp] theorem State.setCodes_host (s : State) (x : Codes) : (s.setCodes x).host = s.host := rfl

@[simp] theorem State.setBw_par (s : State) (x : BitWriter) : (s.setBw x).par = s.par := rfl
@[simp] theorem State.setBw_status (s : State) (x : BitWriter) : (s.setBw x).status = s.status := rfl
@[simp] theorem State.setBw_irq (s : State) (x : BitWriter) : (s.setBw x).irq = s.irq := rfl
@[simp] theorem State.setBw_ports (s : State) (x : BitWriter) : (s.setBw x).ports = s.ports := rfl
@[simp] theorem State.setBw_results (s : State) (x : BitWriter) : (s.setBw x).results = s.results := rfl
@[simp] theorem State.setBw_counts (s : State) (x : BitWriter) : (s.setBw x).counts = s.counts := rfl
@[simp] theorem State.setBw_tree (s : State) (x : BitWriter) : (s.setBw x).tree = s.tree := rfl
@[simp] theorem State.setBw_codes (s : State) (x : BitWriter) : (s.setBw x).codes = s.codes := rfl
@[simp] theorem State.setBw_bw (s : State) (x : BitWriter) : (s.setBw x).bw = x := rfl
@[simp] theorem State.setBw_br (s : State) (x : BitWriter) : (s.setBw x).br = s.br := rfl
@[simp] theorem State.setBw_seq (s : State) (x : BitWriter) : (s.setBw x).seq = s.seq := rfl
@[simp] theorem State.setBw_src (s : State) (x : BitWriter) : (s.setBw x).src = s.src := rfl
@[simp] theorem State.setBw_dst (s : State) (x : BitWriter) : (s.setBw x).dst = s.dst := rfl
@[simp] theorem State.setBw_host (s : State) (x : BitWriter) : (s.setBw x).host = s.host := rfl

@[simp] theorem State.setBr_par (s : State) (x : BitReader) : (s.setBr x).par = s.par := rfl
@[simp] theorem State.setBr_status (s : State) (x : BitReader) : (s.setBr x).status = s.status := rfl
@[simp] theorem State.setBr_irq (s : State) (x : BitReader) : (s.setBr x).irq = s.irq := rfl
@[simp] theorem State.setBr_ports (s : State) (x : BitReader) : (s.setBr x).ports = s.ports := rfl
@[simp] theorem State.setBr_results (s : State) (x : BitReader) : (s.setBr x).results = s.results := rfl
@[simp] theorem State.setBr_counts (s : State) (x : BitReader) : (s.setBr x).counts = s.counts := rfl
@[simp] theorem State.setBr_tree (s : State) (x : BitReader) : (s.setBr x).tree = s.tree := rfl
@[simp] theorem State.setBr_codes (s : State) (x : BitReader) : (s.setBr x).codes = s.codes := rfl
@[simp] theorem State.setBr_bw (s : State) (x : BitReader) : (s.setBr x).bw = s.bw := rfl
@[simp] theorem State.setBr_br (s : State) (x : BitReader) : (s.setBr x).br = x := rfl
@[simp] theorem State.setBr_seq (s : State) (x : BitReader) : (s.setBr x).seq = s.seq := rfl
@[simp] theorem State.setBr_src (s : State) (x : BitReader) : (s.setBr x).src = s.src := rfl
@[simp] theorem State.setBr_dst (s : State) (x : BitReader) : (s.setBr x).dst = s.dst := rfl
@[simp] theorem State.setBr_host (s : State) (x : BitReader) : (s.setBr x).host = s.host := rfl

@[simp] theorem State.setSeq_par (s : State) (x : Sequencer) : (s.setSeq x).par = s.par := rfl
@[simp] theorem State.setSeq_status (s : State) (x : Sequencer) : (s.setSeq x).status = s.status := rfl
@[simp] theorem State.setSeq_irq (s : State) (x : Sequencer) : (s.setSeq x).irq = s.irq := rfl
@[simp] theorem State.setSeq_ports (s : State) (x : Sequencer) : (s.setSeq x).ports = s.ports := rfl
@[simp] theorem State.setSeq_results (s : State) (x : Sequencer) : (s.setSeq x).results = s.results := rfl
@[simp] theorem State.setSeq_counts (s : State) (x : Sequencer) : (s.setSeq x).counts = s.counts := rfl
@[simp] theorem State.setSeq_tree (s : State) (x : Sequencer) : (s.setSeq x).tree = s.tree := rfl
@[simp] theorem State.setSeq_codes (s : State) (x : Sequencer) : (s.setSeq x).codes = s.codes := rfl
@[simp] theorem State.setSeq_bw (s : State) (x : Sequencer) : (s.setSeq x).bw = s.bw := rfl
@[simp] theorem State.setSeq_br (s : State) (x : Sequencer) : (s.setSeq x).br = s.br := rfl
@[simp] theorem State.setSeq_seq (s : State) (x : Sequencer) : (s.setSeq x).seq = x := rfl
@[simp] theorem State.setSeq_src (s : State) (x : Sequencer) : (s.setSeq x).src = s.src := rfl
@[simp] theorem State.setSeq_dst (s : State) (x : Sequencer) : (s.setSeq x).dst = s.dst := rfl
@[simp] theorem State.setSeq_host (s : State) (x : Sequencer) : (s.setSeq x).host = s.host := rfl

@[simp] theorem State.setSrc_par (s : State) (x : List Host.Cell) : (s.setSrc x).par = s.par := rfl
@[simp] theorem State.setSrc_status (s : State) (x : List Host.Cell) : (s.setSrc x).status = s.status := rfl
@[simp] theorem State.setSrc_irq (s : State) (x : List Host.Cell) : (s.setSrc x).irq = s.irq := rfl
@[simp] theorem State.setSrc_ports (s : State) (x : List Host.Cell) : (s.setSrc x).ports = s.ports := rfl
@[simp] theorem State.setSrc_results (s : State) (x : List Host.Cell) : (s.setSrc x).results = s.results := rfl
@[simp] theorem State.setSrc_counts (s : State) (x : List Host.Cell) : (s.setSrc x).counts = s.counts := rfl
@[simp] theorem State.setSrc_tree (s : State) (x : List Host.Cell) : (s.setSrc x).tree = s.tree := rfl
@[simp] theorem State.setSrc_codes (s : State) (x : List Host.Cell) : (s.setSrc x).codes = s.codes := rfl
@[simp] theorem State.setSrc_bw (s : State) (x : List Host.Cell) : (s.setSrc x).bw = s.bw := rfl
@[simp] theorem State.setSrc_br (s : State) (x : List Host.Cell) : (s.setSrc x).br = s.br := rfl
@[simp] theorem State.setSrc_seq (s : State) (x : List Host.Cell) : (s.setSrc x).seq = s.seq := rfl
@[simp] theorem State.setSrc_src (s : State) (x : List Host.Cell) : (s.setSrc x).src = x := rfl
@[simp] theorem State.setSrc_dst (s : State) (x : List Host.Cell) : (s.setSrc x).dst = s.dst := rfl
@[simp] theorem State.setSrc_host (s : State) (x : List Host.Cell) : (s.setSrc x).host = s.host := rfl

@[simp] theorem State.setDst_par (s : State) (x : List Host.Cell) : (s.setDst x).par = s.par := rfl
@[simp] theorem State.setDst_status (s : State) (x : List Host.Cell) : (s.setDst x).status = s.status := rfl
@[simp] theorem State.setDst_irq (s : State) (x : List Host.Cell) : (s.setDst x).irq = s.irq := rfl
@[simp] theorem State.setDst_ports (s : State) (x : List Host.Cell) : (s.setDst x).ports = s.ports := rfl
@[simp] theorem State.setDst_results (s : State) (x : List Host.Cell) : (s.setDst x).results = s.results := rfl
@[simp] theorem State.setDst_counts (s : State) (x : List Host.Cell) : (s.setDst x).counts = s.counts := rfl
@[simp] theorem State.setDst_tree (s : State) (x : List Host.Cell) : (s.setDst x).tree = s.tree := rfl
@[simp] theorem State.setDst_codes (s : State) (x : List Host.Cell) : (s.setDst x).codes = s.codes := rfl
@[simp] theorem State.setDst_bw (s : State) (x : List Host.Cell) : (s.setDst x).bw = s.bw := rfl
@[simp] theorem State.setDst_br (s : State) (x : List Host.Cell) : (s.setDst x).br = s.br := rfl
@[simp] theorem State.setDst_seq (s : State) (x : List Host.Cell) : (s.setDst x).seq = s.seq := rfl
@[simp] theorem State.setDst_src (s : State) (x : List Host.Cell) : (s.setDst x).src = s.src := rfl
@[simp] theorem State.setDst_dst (s : State) (x : List Host.Cell) : (s.setDst x).dst = x := rfl
@[simp] theorem State.setDst_host (s : State) (x : List Host.Cell) : (s.setDst x).host = s.host := rfl

@[simp] theorem State.setHost_par (s : State) (x : HostSide) : (s.setHost x).par = s.par := rfl
@[simp] theorem State.setHost_status (s : State) (x : HostSide) : (s.setHost x).status = s.status := rfl
@[simp] theorem State.setHost_irq (s : State) (x : HostSide) : (s.setHost x).irq = s.irq := rfl
@[simp] theorem State.setHost_ports (s : State) (x : HostSide) : (s.setHost x).ports = s.ports := rfl
@[simp] theorem State.setHost_results (s : State) (x : HostSide) : (s.setHost x).results = s.results := rfl
@[simp] theorem State.setHost_counts (s : State) (x : HostSide) : (s.setHost x).counts = s.counts := rfl
@[simp] theorem State.setHost_tree (s : State) (x : HostSide) : (s.setHost x).tree = s.tree := rfl
@[simp] theorem State.setHost_codes (s : State) (x : HostSide) : (s.setHost x).codes = s.codes := rfl
@[simp] theorem State.setHost_bw (s : State) (x : HostSide) : (s.setHost x).bw = s.bw := rfl
@[simp] theorem State.setHost_br (s : State) (x : HostSide) : (s.setHost x).br = s.br := rfl
@[simp] theorem State.setHost_seq (s : State) (x : HostSide) : (s.setHost x).seq = s.seq := rfl
@[simp] theorem State.setHost_src (s : State) (x : HostSide) : (s.setHost x).src = s.src := rfl
@[simp] theorem State.setHost_dst (s : State) (x : HostSide) : (s.setHost x).dst = s.dst := rfl
@[simp] theorem State.setHost_host (s : State) (x : HostSide) : (s.setHost x).host = x := rfl

end Sys2Proof.Machine
end

