-- ==== Sys2Proof/Laws/Ops.lean ====
section
/-! SUPPORT. What each shared operation can do: once in general (what it keeps, whether it can stop), and once exactly, where no host
access falls while the command runs. -/

namespace Sys2Proof.Machine

/-! ### What a piece of a body keeps -/

/-- The piece leaves `P`; it can be stopped only if `S`, and the machine can fault only if `F`. -/
def Result.meets {α : Type} (P : State → Prop) (S F : Prop) : Result α → Prop
  | .ok _ s => P s
  | .raise _ s => P s
  | .stopped s => S ∧ P s
  | .faulted _ => F

theorem Result.meets_andThen {α β : Type} {P Q : State → Prop} {S F : Prop} {r : Result α}
    {f : α → State → Result β} (hr : r.meets P S F) (hPQ : ∀ s, P s → Q s)
    (hf : ∀ a s, P s → (f a s).meets Q S F) : (r.andThen f).meets Q S F := by
  cases r with
  | ok a s => exact hf a s hr
  | raise e s => exact hPQ s hr
  | stopped s => exact ⟨hr.1, hPQ s hr.2⟩
  | faulted x => exact hr

theorem Result.meets_then {α β : Type} {P : State → Prop} {S F : Prop} {r : Result α}
    {f : α → State → Result β} (hr : r.meets P S F) (hf : ∀ a s, P s → (f a s).meets P S F) :
    (r.andThen f).meets P S F := Result.meets_andThen hr (fun _ h => h) hf

theorem Result.meets_imp {α : Type} {P Q : State → Prop} {S F : Prop} {r : Result α}
    (h : r.meets P S F) (hPQ : ∀ s, P s → Q s) : r.meets Q S F := by
  cases r with
  | ok a s => exact hPQ s h
  | raise e s => exact hPQ s h
  | stopped s => exact ⟨h.1, hPQ s h.2⟩
  | faulted x => exact h

/-- `P` is kept by the beats and the free values of a running command, which can be stopped only if `S`. -/
structure KeepsHidden (P : State → Prop) (S : Prop) : Prop where
  beat : ∀ t n, P t → P (t.setSeq { t.seq with beat := n })
  draws : ∀ t n, t.seq.races ≠ [] → P t → P (t.setHost { t.host with draws := n })
  stop : ∀ t, P t → S ∨ t.seq.stopAt = none

/-- `P` is kept by `walk <- i`. -/
def KeepsWalk (P : State → Prop) : Prop := ∀ t i, P t → P (t.setSeq { t.seq with walk := i })

/-- `P` is kept by a step past a source byte. -/
def KeepsSrcPos (P : State → Prop) : Prop := ∀ t, exhausted t = false → P t → P (advanceSrc t)

/-- `P` is kept by `SRC_POS <- src_start`. -/
def KeepsRewind (P : State → Prop) : Prop := ∀ t, P t → P (t.setPorts { t.ports with srcPos := t.seq.srcStart })

/-- The byte is stored at DST_POS and DST_POS steps past it (20_memory.md R65). -/
def sunk (t : State) (v : Byte) : State :=
  (t.setDst (memoryPut t.dst t.ports.dstPos.toNat v)).setPorts { t.ports with dstPos := t.ports.dstPos + 1 }

/-- `P` is kept by a byte appended to a sink that has room. -/
def KeepsSink (P : State → Prop) : Prop := ∀ t v, t.ports.dstPos.toNat < t.ports.dstCap.toNat → P t → P (sunk t v)

/-- `P` is kept by a legal change of the writer. -/
def KeepsWriter (P : State → Prop) : Prop :=
  ∀ t w, (writerLegal t.bw → writerLegal w) → P t → P (t.setBw w)

/-- `P` is kept by a legal change of the reader. -/
def KeepsReader (P : State → Prop) : Prop :=
  ∀ t r, (readerLegal t.br → readerLegal r) → P t → P (t.setBr r)

/-- `P` is kept by a legal change of the counts. -/
def KeepsCounts (P : State → Prop) : Prop :=
  ∀ t c, (countsLegal t.counts → countsLegal c) → P t → P (t.setCounts c)

/-- `P` is kept by a change of the result registers. -/
def KeepsResults (P : State → Prop) : Prop := ∀ t r, P t → P (t.setResults r)

variable {P : State → Prop} {S F : Prop} {s : State}

/-- So many beats have been made. -/
def beaten (s : State) (n : Nat) : State := s.setSeq { s.seq with beat := s.seq.beat + n }

/-- Everything a beat can do: the command is stopped before it, or it is made. -/
theorem beat_cases (s : State) :
    (s.seq.stopAt = some s.seq.beat ∧ beat s = .stopped s) ∨ beat s = .ok () (beaten s 1) := by
  unfold beat
  split_ifs with h
  · exact Or.inl ⟨h, rfl⟩
  · exact Or.inr rfl

/-- Everything a read of a source byte can do: it is stopped, or gives a byte after one beat, with free values taken if the host writes
source bytes meanwhile. -/
theorem memRead_cases (a : Word) (s : State) :
    (s.seq.stopAt = some s.seq.beat ∧ memRead a s = .stopped s) ∨
    (s.seq.races = [] ∧ memRead a s = .ok (memoryGet s.src a.toNat) (beaten s 1)) ∨
    (s.seq.races ≠ [] ∧ ∃ v n, memRead a s = .ok v ((beaten s 1).setHost { s.host with draws := n })) := by
  unfold memRead
  rcases beat_cases s with ⟨h, hb⟩ | hb <;> rw [hb]
  · exact Or.inl ⟨h, rfl⟩
  · refine Or.inr ?_
    simp only [Result.andThen]
    split_ifs with hr
    · exact Or.inl ⟨hr, rfl⟩
    · exact Or.inr ⟨hr, _, _, rfl⟩

/-- Everything a sink byte can do: the sink is full, or the command is stopped, or the byte is appended after one beat. -/
theorem sinkByte_cases (v : Byte) (s : State) :
    (s.ports.dstCap.toNat ≤ s.ports.dstPos.toNat ∧ sinkByte v s = .raise .io s) ∨
    (s.ports.dstPos.toNat < s.ports.dstCap.toNat ∧
      ((s.seq.stopAt = some s.seq.beat ∧ sinkByte v s = .stopped s) ∨ sinkByte v s = .ok () (sunk (beaten s 1) v))) := by
  unfold sinkByte
  split_ifs with h
  · exact Or.inl ⟨h, rfl⟩
  · refine Or.inr ⟨by omega, ?_⟩
    unfold memWrite
    rcases beat_cases s with ⟨hs, hb⟩ | hb <;> rw [hb]
    · exact Or.inl ⟨hs, rfl⟩
    · exact Or.inr rfl

theorem KeepsHidden.beaten (k : KeepsHidden P S) (n : Nat) (h : P s) : P (beaten s n) := k.beat s _ h

theorem KeepsHidden.stops (k : KeepsHidden P S) (h : P s) {n : Nat} (hn : s.seq.stopAt = some n) : S := by
  rcases k.stop s h with h1 | h1
  · exact h1
  · rw [h1] at hn; simp at hn

theorem beat_meets (k : KeepsHidden P S) (h : P s) : (beat s).meets P S F := by
  rcases beat_cases s with ⟨hs, hb⟩ | hb <;> rw [hb]
  · exact ⟨k.stops h hs, h⟩
  · exact k.beaten 1 h

/-- A read of a source byte keeps also which source bytes are left. -/
theorem memRead_meets (k : KeepsHidden P S) (a : Word) (h : P s) :
    (memRead a s).meets (fun t => P t ∧ t.ports = s.ports) S F := by
  rcases memRead_cases a s with ⟨hs, hb⟩ | ⟨_, hb⟩ | ⟨hr, v, n, hb⟩ <;> rw [hb]
  · exact ⟨k.stops h hs, h, rfl⟩
  · exact ⟨k.beaten 1 h, rfl⟩
  · exact ⟨k.draws _ _ hr (k.beaten 1 h), rfl⟩

theorem exhausted_ports {t : State} (h : t.ports = s.ports) : exhausted t = exhausted s := by rw [exhausted, exhausted, h]

theorem takeByte_meets (k : KeepsHidden P S) (r : KeepsSrcPos P) (hx : exhausted s = false) (h : P s) :
    (takeByte s).meets P S F :=
  Result.meets_andThen (memRead_meets k _ h) (fun _ ht => ht.1) fun _ t ht =>
    r t ((exhausted_ports ht.2).trans hx) ht.1

theorem srcByte_meets (k : KeepsHidden P S) (r : KeepsSrcPos P) (e : ErrorKind) (h : P s) :
    (srcByte e s).meets P S F := by
  unfold srcByte
  split_ifs with hx
  · exact h
  · exact takeByte_meets k r (by simpa using hx) h

theorem getS32le_meets (k : KeepsHidden P S) (r : KeepsSrcPos P) (e : ErrorKind) (h : P s) :
    (getS32le e s).meets P S F :=
  Result.meets_then (srcByte_meets k r e h) fun _ _ h =>
  Result.meets_then (srcByte_meets k r e h) fun _ _ h =>
  Result.meets_then (srcByte_meets k r e h) fun _ _ h =>
  Result.meets_then (srcByte_meets k r e h) fun _ _ h => h

theorem getS16le_meets (k : KeepsHidden P S) (r : KeepsSrcPos P) (e : ErrorKind) (h : P s) :
    (getS16le e s).meets P S F :=
  Result.meets_then (srcByte_meets k r e h) fun _ _ h =>
  Result.meets_then (srcByte_meets k r e h) fun _ _ h => h

theorem sinkByte_meets (k : KeepsHidden P S) (w : KeepsSink P) (v : Byte) (h : P s) :
    (sinkByte v s).meets P S F := by
  rcases sinkByte_cases v s with ⟨hc, hb⟩ | ⟨hc, ⟨hs, hb⟩ | hb⟩ <;> rw [hb]
  · exact h
  · exact ⟨k.stops h hs, h⟩
  · exact w _ v hc (k.beaten 1 h)

theorem sinkBytes_meets (k : KeepsHidden P S) (w : KeepsSink P) (bs : List Byte) (h : P s) :
    (sinkBytes bs s).meets P S F := by
  induction bs generalizing s with
  | nil => exact h
  | cons b bs ih => exact Result.meets_then (sinkByte_meets k w b h) fun _ _ h => ih h

theorem bitAt_toNat (b : Bool) {n : Nat} (hn : n < 8) : (bitAt b n).toNat = b.toNat * 2 ^ n := by
  have h2 : (2 : Nat) ^ n < 256 := by
    calc (2 : Nat) ^ n ≤ 2 ^ 7 := Nat.pow_le_pow_right (by omega) (by omega)
      _ < 256 := by decide
  cases b <;> simp [bitAt, BitVec.toNat_shiftLeft, Nat.shiftLeft_eq, Nat.mod_eq_of_lt h2]

/-- The bit at a place above the buffered ones is added to the buffer. -/
theorem or_bitAt_toNat {buf : Byte} {n : Nat} (hn : n < 8) (hb : buf.toNat < 2 ^ n) (b : Bool) :
    (buf ||| bitAt b n).toNat = buf.toNat + b.toNat * 2 ^ n := by
  rw [BitVec.toNat_or, bitAt_toNat b hn]
  cases b
  · simp
  · have := Nat.two_pow_add_eq_or_of_lt hb 1
    simp only [Bool.toNat_true, one_mul, mul_one] at this ⊢
    rw [Nat.or_comm, ← this, Nat.add_comm]

theorem writerLegal_put {w : BitWriter} (b : Bool) (hn : w.n ≠ 7) (h : writerLegal w) :
    writerLegal { n := w.n + 1, buf := w.buf ||| bitAt b w.n.toNat } := by
  obtain ⟨n, buf⟩ := w
  have hn7 : n.toNat < 7 := by
    have h7 : n.toNat ≠ 7 := fun e => hn (BitVec.eq_of_toNat_eq (by simpa using e))
    have := n.isLt
    omega
  have h1 : (n + 1).toNat = n.toNat + 1 := by rw [BitVec.toNat_add]; simp; omega
  simp only [writerLegal, h1, pow_succ] at h ⊢
  rw [or_bitAt_toNat (by omega) h]
  cases b <;> simp <;> omega

theorem writerLegal_empty : writerLegal { n := 0, buf := 0 } := by simp [writerLegal]

theorem putbit_meets (k : KeepsHidden P S) (w : KeepsSink P) (x : KeepsWriter P) (b : Bool) (h : P s) :
    (putbit b s).meets P S F := by
  unfold putbit
  split_ifs with hn
  · exact Result.meets_then (sinkByte_meets k w _ h) fun _ t ht => x t _ (fun _ => writerLegal_empty) ht
  · exact x s _ (writerLegal_put b hn) h

theorem putbits_meets (k : KeepsHidden P S) (w : KeepsSink P) (x : KeepsWriter P) (bs : List Bool) (h : P s) :
    (putbits bs s).meets P S F := by
  induction bs generalizing s with
  | nil => exact h
  | cons b bs ih => exact Result.meets_then (putbit_meets k w x b h) fun _ _ h => ih h

theorem readerLegal_take {r : BitReader} (hr : r.rem ≠ 0) (h : readerLegal r) :
    readerLegal { r with rem := r.rem - 1 } := by
  obtain ⟨rem, cur⟩ := r
  have h0 : rem.toNat ≠ 0 := fun e => hr (BitVec.eq_of_toNat_eq (by simpa using e))
  simp only [readerLegal] at h ⊢
  have := rem.isLt
  rw [BitVec.toNat_sub]
  simp
  omega

theorem getbit_meets (k : KeepsHidden P S) (r : KeepsSrcPos P) (x : KeepsReader P) (h : P s) :
    (getbit s).meets P S F := by
  unfold getbit
  split_ifs with h0 he
  · exact h
  · refine Result.meets_then (takeByte_meets k r (by simpa using he) h) fun b t ht => ?_
    exact x _ _ (readerLegal_take (show (8 : BitVec 4) ≠ 0 by decide)) (x t _ (fun _ => by simp [readerLegal]) ht)
  · exact x s _ (readerLegal_take h0) h

/-! ### The operations where no host access falls while the command runs -/

theorem beat_undisturbed (h : s.undisturbed) :
    beat s = .ok () (s.setSeq { s.seq with beat := s.seq.beat + 1 }) := by
  simp [beat, h.1]

theorem undisturbed_setSeq {x : Sequencer} (h : s.undisturbed) (h1 : x.stopAt = s.seq.stopAt)
    (h2 : x.races = s.seq.races) : (s.setSeq x).undisturbed := ⟨h1.trans h.1, h2.trans h.2⟩

theorem memRead_undisturbed (a : Word) (h : s.undisturbed) :
    memRead a s = .ok (memoryGet s.src a.toNat) (beaten s 1) := by
  have h2 : s.seq.races = [] := h.2
  simp [memRead, beat_undisturbed h, Result.andThen, h2, beaten]

theorem takeByte_undisturbed (h : s.undisturbed) :
    takeByte s = .ok (memoryGet s.src s.ports.srcPos.toNat) (advanceSrc (beaten s 1)) := by
  rw [takeByte, memRead_undisturbed _ h]; rfl

theorem sinkByte_undisturbed (v : Byte) (h : s.undisturbed) (hr : s.ports.dstPos.toNat < s.ports.dstCap.toNat) :
    sinkByte v s = .ok () (appended (beaten s 1) [v]) := by
  rw [sinkByte, if_neg (by omega), memWrite, beat_undisturbed h]
  simp only [Result.andThen, appended, writeBytes, beaten, State.setSeq, State.setDst, State.setPorts,
    List.length_singleton, BitVec.ofNat_add, BitVec.ofNat_toNat, BitVec.setWidth_eq]
  rfl

theorem sinkByte_full (v : Byte) (hr : s.ports.dstCap.toNat ≤ s.ports.dstPos.toNat) :
    sinkByte v s = .raise .io s := by
  rw [sinkByte, if_pos hr]

end Sys2Proof.Machine
end

