-- ==== Sys2Proof/Laws/Bodies.lean ====
section
/-! SUPPORT. What each command's body keeps, and that no body breaks a legal state. -/

namespace Sys2Proof.Machine

/-- `P` is kept by a new legal tree with the code table cleared. -/
def KeepsNewTree (P : State → Prop) : Prop :=
  ∀ t x, treeLegal x → P t → P ((t.setTree x).setCodes Codes.empty)

/-- `P` is kept by the code table of the current tree. -/
def KeepsNewCodes (P : State → Prop) : Prop :=
  ∀ t e, t.tree.valid = true → codesOfTree t.tree = some e → P t → P (t.setCodes { valid := true, entries := e })

variable {P : State → Prop} {S F : Prop} {s : State}

/-! ### Frequency table -/

theorem countsLegal_zero : countsLegal (Vector.replicate 257 0) := by
  intro x; simp

theorem countsLegal_set {counts : Vector Word 257} {x : Symbol} {c : Word} (h : countsLegal counts)
    (hc : c.toNat ≤ Config.maxCount) : countsLegal (counts.set x.val c) := by
  intro y
  rw [Vector.getElem_set]
  split_ifs
  · exact hc
  · exact h y

theorem addOne_toNat {x : Symbol} (hf : ¬countFull s x) (h : (countOf s x).toNat ≤ Config.maxCount) :
    (countOf s x + 1).toNat = (countOf s x).toNat + 1 ∧ (countOf s x).toNat + 1 ≤ Config.maxCount := by
  have hne : (countOf s x).toNat ≠ Config.maxCount := by
    intro e
    apply hf
    simp only [countFull, beq_iff_eq]
    rw [← e]; simp
  simp only [Config.maxCount] at *
  rw [BitVec.toNat_add]
  simp
  omega

theorem addOne_meets (c : KeepsCounts P) {x : Symbol} (hf : ¬countFull s x) (h : P s) : P (addOne s x) :=
  c s _ (fun hl => countsLegal_set hl ((addOne_toNat hf (hl x)).1 ▸ (addOne_toNat hf (hl x)).2)) h

theorem clearCounts_meets (c : KeepsCounts P) (h : P s) : P (clearCounts s) := c s _ (fun _ => countsLegal_zero) h

theorem analyzeLoop_meets (k : KeepsHidden P S) (r : KeepsSrcPos P) (c : KeepsCounts P) (n : Nat) (h : P s) :
    (analyzeLoop n s).meets P S F := by
  induction n generalizing s with
  | zero => exact h
  | succ n ih =>
    unfold analyzeLoop
    split_ifs with hx
    · exact h
    · refine Result.meets_andThen (memRead_meets k _ h) (fun _ ht => ht.1) fun b t ht => ?_
      split_ifs with hf
      · exact ht.1
      · exact ih (addOne_meets c hf (r t (by rw [exhausted_ports ht.2]; simpa using hx) ht.1))

theorem analyzeBody_meets (k : KeepsHidden P S) (r : KeepsSrcPos P) (c : KeepsCounts P) (h : P s) :
    (analyzeBody s).meets P S F := analyzeLoop_meets k r c _ (clearCounts_meets c h)

theorem addTerminatorBody_meets (c : KeepsCounts P) (h : P s) : (addTerminatorBody s).meets P S F := by
  unfold addTerminatorBody
  split_ifs with hf
  · exact h
  · exact addOne_meets c hf h

theorem serializePairs_meets (k : KeepsHidden P S) (w : KeepsSink P) (xs : List Symbol) (h : P s) :
    (serializePairs xs s).meets P S F := by
  induction xs generalizing s with
  | nil => exact h
  | cons x xs ih =>
    unfold serializePairs
    split_ifs
    · exact ih h
    · exact Result.meets_then (sinkBytes_meets k w _ h) fun _ _ h =>
        Result.meets_then (sinkBytes_meets k w _ h) fun _ _ h => ih h

theorem serializeBody_meets (k : KeepsHidden P S) (w : KeepsSink P) (h : P s) : (serializeBody s).meets P S F :=
  Result.meets_then (sinkBytes_meets k w _ h) fun _ _ h =>
    Result.meets_then (serializePairs_meets k w _ h) fun _ _ h => sinkBytes_meets k w _ h

theorem ofInt_toNat_le {c : Int} (h0 : ¬(c < 0 ∨ (Config.maxCount : Int) < c)) :
    (BitVec.ofInt 32 c).toNat ≤ Config.maxCount := by
  simp only [Config.maxCount] at *
  rw [BitVec.toNat_ofInt]
  omega

theorem deserializeLoop_meets (k : KeepsHidden P S) (r : KeepsSrcPos P) (c : KeepsCounts P) (d : Int) (n : Nat)
    (h : P s) : (deserializeLoop d n s).meets P S F := by
  induction n generalizing s with
  | zero => exact h
  | succ n ih =>
    unfold deserializeLoop
    refine Result.meets_then (getS32le_meets k r _ h) fun v t ht => ?_
    split_ifs with h1 h2
    · exact ht
    · exact ht
    · refine Result.meets_then (getS16le_meets k r _ ht) fun y t ht => ?_
      cases fieldSymbol y with
      | none => exact ht
      | some x => exact ih (c t _ (fun hl => countsLegal_set hl (ofInt_toNat_le h2)) ht)

theorem deserializeBody_meets (k : KeepsHidden P S) (r : KeepsSrcPos P) (c : KeepsCounts P) (h : P s) :
    (deserializeBody s).meets P S F :=
  Result.meets_then (getS32le_meets k r _ (clearCounts_meets c h)) fun _ _ h => deserializeLoop_meets k r c _ _ h

theorem ftWriteBody_meets (c : KeepsCounts P) (x : Symbol) (h : P s) : (ftWriteBody x s).meets P S F := by
  unfold ftWriteBody
  split_ifs with hd
  · exact h
  · exact c s _ (fun hl => countsLegal_set hl (by omega)) h

/-! ### Bit stream -/

theorem flushBody_meets (k : KeepsHidden P S) (w : KeepsSink P) (x : KeepsWriter P) (h : P s) :
    (flushBody s).meets P S F := by
  unfold flushBody
  split_ifs
  · exact h
  · exact Result.meets_then (sinkByte_meets k w _ h) fun _ t ht => x t _ (fun _ => writerLegal_empty) ht

theorem brGetbitBody_meets (k : KeepsHidden P S) (r : KeepsSrcPos P) (x : KeepsReader P) (y : KeepsResults P)
    (h : P s) : (brGetbitBody s).meets P S F :=
  Result.meets_then (getbit_meets k r x h) fun _ t ht => y t _ ht

/-! ### Codes and compress -/

theorem encSymbolBody_meets (k : KeepsHidden P S) (w : KeepsSink P) (x : KeepsWriter P) (y : Symbol) (h : P s) :
    (encSymbolBody y s).meets P S F := by
  unfold encSymbolBody
  split_ifs
  · exact h
  · exact putbits_meets k w x _ h

theorem encodeLoop_meets (k : KeepsHidden P S) (r : KeepsSrcPos P) (w : KeepsSink P) (x : KeepsWriter P) (n : Nat)
    (h : P s) : (encodeLoop n s).meets P S F := by
  induction n generalizing s with
  | zero => exact encSymbolBody_meets k w x _ h
  | succ n ih =>
    unfold encodeLoop
    split_ifs with hx
    · exact encSymbolBody_meets k w x _ h
    · exact Result.meets_then (takeByte_meets k r (by simpa using hx) h) fun _ _ h =>
        Result.meets_then (encSymbolBody_meets k w x _ h) fun _ _ h => ih h

theorem rewind_meets (k : KeepsHidden P S) (r : KeepsRewind P) (h : P s) : (rewind s).meets P S F :=
  Result.meets_then (beat_meets k h) fun _ t ht => r t ht

theorem ctBuildBody_meets (b : KeepsNewCodes P)
    (hf : F ∨ (s.tree.valid = true → codesOfTree s.tree ≠ none)) (h : P s) : (ctBuildBody s).meets P S F := by
  unfold ctBuildBody
  split_ifs with hv
  · exact h
  · cases hc : codesOfTree s.tree with
    | none =>
      rcases hf with hf | hf
      · exact hf
      · exact absurd hc (hf (by simpa using hv))
    | some e => exact b s e (by simpa using hv) hc h

theorem treeLegal_none : treeLegal Tree.none := ⟨by simp [Tree.none], fun _ => rfl⟩

/-- TB_BUILD, where the tree over the leaves is sound. -/
theorem tbBuildBody_meets (b : KeepsNewTree P)
    (hs : leavesOf s.counts ≠ [] → treeLegal (treeOver (leavesOf s.counts))) (h : P s) :
    (tbBuildBody s).meets P S F := by
  unfold tbBuildBody
  dsimp only
  split_ifs with hl
  · exact b s _ treeLegal_none h
  · exact b s _ (hs hl) h

theorem invalidateTree_meets (b : KeepsNewTree P) (h : P s) : P (clearCodes (invalidateTree s)) :=
  b s _ ⟨by simp, fun _ => rfl⟩ h

end Sys2Proof.Machine
end

