-- ==== Sys2Proof/Laws/Ends.lean ====
section
/-! SUPPORT. How a command's outcome follows from its body's result: the lemmas to cite instead of unfolding `command`. -/

namespace Sys2Proof.Machine

/-- The start steps and the end steps together are the report of success. -/
theorem endSteps_startSteps (op : BitVec 8) (t : State) : endSteps (startSteps op t) = afterSuccess op t := rfl

/-- The start steps and the error end together are the report of an error. -/
theorem errorEnd_startSteps (op : BitVec 8) (e : ErrorKind) (t : State) :
    errorEnd e (startSteps op t) = afterError op e.code t := rfl

/-- No command of an idle core is stopped. -/
theorem State.quiet.unstopped {s : State} (h : s.quiet) : s.seq.stopAt = none := congrArg Sequencer.stopAt h

/-- A command that is not stopped runs its end steps. -/
theorem unlessStopped_eq {s ended : State} (h : s.seq.stopAt = none) : unlessStopped s ended = ended := if_pos h

/-- A command that is stopped runs no end steps, whatever its body came to (70_reset_and_hazards.md R351). -/
theorem unlessStopped_stopped {s ended : State} (h : s.seq.stopAt ≠ none) : unlessStopped s ended = s := if_neg h

/-- A command whose body goes through ends with its end steps. -/
theorem command_ok {op : BitVec 8} {s u t : State} {body : State → Result Unit} (hp : s.littleEndian)
    (h : body (startSteps op s) = .ok () u) (hn : u.seq.stopAt = none) (hu : endSteps u = afterSuccess op t) :
    command op body s = .next (afterSuccess op t) := by
  have hp : (startSteps op s).par.platformLE = true := hp
  rw [command, checkPlatform, if_pos hp, h, close, unlessStopped_eq hn, hu]

/-- A command whose body raises ends with the error end. -/
theorem command_raise {op : BitVec 8} {s u t : State} {body : State → Result Unit} {c : BitVec 4} (e : ErrorKind)
    (hp : s.littleEndian) (h : body (startSteps op s) = .raise e u) (hn : u.seq.stopAt = none)
    (hu : errorEnd e u = afterError op c t) :
    command op body s = .next (afterError op c t) := by
  have hp : (startSteps op s).par.platformLE = true := hp
  rw [command, checkPlatform, if_pos hp, h, close, unlessStopped_eq hn, hu]

/-- An illegal command word only reports error 5. -/
theorem illegalCommand_eq (op : BitVec 8) {s : State} (h : s.quiet) : illegalCommand op s = .next (afterError op 5 s) :=
  congrArg Host.Outcome.next (unlessStopped_eq (s := startSteps op s) h.unstopped)

/-- A command of class `sym` runs on an operand of at most 256 and is illegal on any other. -/
theorem symbolCommand_eq (op : BitVec 8) (arg : BitVec 10) (body : Symbol → State → Result Unit) {s : State} (hq : s.quiet) :
    symbolCommand op arg body s =
      if h : arg.toNat ≤ 256 then command op (body ⟨arg.toNat, by omega⟩) s else .next (afterError op 5 s) := by
  unfold symbolCommand symbolOf
  by_cases h : arg.toNat ≤ 256
  · rw [dif_pos (by omega), dif_pos h]
  · rw [dif_neg (by omega), dif_neg h]; exact illegalCommand_eq _ hq

/-- A count is full exactly at the greatest value a count may have. -/
theorem countFull_iff (s : State) (x : Symbol) : countFull s x = true ↔ (countOf s x).toNat = Config.maxCount := by
  simp [countFull, ← BitVec.toNat_inj, Config.maxCount]

end Sys2Proof.Machine
end

