-- ==== Sys2Proof/Laws/Tree.lean ====
section
/-! SUPPORT. TB_BUILD builds a sound tree (10_state.md R36, 42_tree_builder.md R162, R163). -/

namespace Sys2Proof.Machine

theorem leastOf_mem (arena : List Node) (i : Nat) (q : List Nat) : leastOf arena i q ∈ i :: q := by
  induction q generalizing i with
  | nil => simp [leastOf]
  | cons j q ih =>
    have := ih (if keyBelow arena j i then j else i)
    simp only [leastOf]
    rcases List.mem_cons.mp this with h | h
    · rw [h]; split_ifs <;> simp
    · exact List.mem_cons_of_mem _ (List.mem_cons_of_mem _ h)

theorem takeLeast_some {arena : List Node} {q q' : List Nat} {a : Nat} (h : takeLeast arena q = some (a, q')) :
    a ∈ q ∧ q' = q.erase a := by
  cases q with
  | nil => simp [takeLeast] at h
  | cons i rest =>
    simp only [takeLeast, Option.some.injEq, Prod.mk.injEq] at h
    obtain ⟨rfl, rfl⟩ := h
    exact ⟨leastOf_mem arena i rest, rfl⟩

theorem takeLeast_none {arena : List Node} {q : List Nat} (h : takeLeast arena q = none) : q = [] := by
  cases q with
  | nil => rfl
  | cons i rest => simp [takeLeast] at h

/-- What holds each time around the loop of TB_BUILD. -/
structure JoinInv (leaves : List Node) (q : List Nat) (arena : List Node) : Prop where
  split : ∃ joins, arena = leaves ++ joins ∧ (∀ x ∈ joins, x.isLeaf = false) ∧ q.length + joins.length = leaves.length
  nodup : q.Nodup
  bound : ∀ i ∈ q, i < arena.length
  last : arena.length - 1 ∈ q
  small : ∀ (i : Nat) (w : BitVec 40) (l r : BitVec 10),
    arena[i]? = some (.internal w l r) → l.toNat < i ∧ r.toNat < i
  kids : (arena.flatMap Node.children).Nodup
  fresh : ∀ i ∈ q, BitVec.ofNat 10 i ∉ arena.flatMap Node.children

theorem ofNat10_inj {i j : Nat} (hi : i < 1024) (hj : j < 1024) (h : BitVec.ofNat 10 i = BitVec.ofNat 10 j) : i = j := by
  have := congrArg BitVec.toNat h
  simp only [BitVec.toNat_ofNat] at this
  omega

/-- One pass keeps the loop's invariant: two elements leave the collection and their parent enters it. -/
theorem JoinInv.pass {leaves arena : List Node} {q : List Nat} {a b : Nat} (h : JoinInv leaves q arena)
    (hL : leaves.length ≤ 257) (ha : a ∈ q) (hb : b ∈ q.erase a) :
    JoinInv leaves ((q.erase a).erase b ++ [arena.length]) (arena ++ [joinNodes arena a b]) := by
  obtain ⟨joins, hj, hjl, hlen⟩ := h.split
  have hla : (q.erase a).length = q.length - 1 := List.length_erase_of_mem ha
  have hlb : ((q.erase a).erase b).length = (q.erase a).length - 1 := List.length_erase_of_mem hb
  have hq2 : 2 ≤ q.length := by
    have := List.length_pos_of_mem ha
    have := List.length_pos_of_mem hb
    omega
  have hna : (q.erase a).Nodup := h.nodup.erase a
  have hbq : b ∈ q := List.mem_of_mem_erase hb
  have hab : a ≠ b := by
    intro e
    subst e
    exact (h.nodup.not_mem_erase) hb
  have hal := h.bound a ha
  have hbl := h.bound b hbq
  have hsub : ∀ i ∈ (q.erase a).erase b, i ∈ q ∧ i ≠ a ∧ i ≠ b := by
    intro i hi
    have h1 := (List.Nodup.mem_erase_iff hna).mp hi
    have h2 := (List.Nodup.mem_erase_iff h.nodup).mp h1.2
    exact ⟨h2.2, h2.1, h1.1⟩
  have harena : arena.length ≤ 2 * leaves.length - 2 := by rw [hj, List.length_append]; omega
  have hkids : (arena ++ [joinNodes arena a b]).flatMap Node.children =
      arena.flatMap Node.children ++ [BitVec.ofNat 10 a, BitVec.ofNat 10 b] := by
    simp [joinNodes, Node.children]
  refine ⟨⟨joins ++ [joinNodes arena a b], by rw [hj]; simp, ?_, ?_⟩, ?_, ?_, ?_, ?_, ?_, ?_⟩
  · intro x hx
    rcases List.mem_append.mp hx with hx | hx
    · exact hjl x hx
    · rw [List.mem_singleton.mp hx]; rfl
  · simp only [List.length_append, List.length_singleton]; omega
  · rw [List.nodup_append]
    refine ⟨hna.erase b, by simp, ?_⟩
    intro i hi j hj' e
    have := h.bound i (hsub i hi).1
    simp only [List.mem_singleton] at hj'
    omega
  · intro i hi
    simp only [List.length_append, List.length_singleton]
    rcases List.mem_append.mp hi with hi | hi
    · have := h.bound i (hsub i hi).1; omega
    · simp only [List.mem_singleton] at hi; omega
  · simp
  · intro i w l r hi
    rcases Nat.lt_trichotomy i arena.length with hlt | heq | hgt
    · rw [List.getElem?_append_left hlt] at hi
      exact h.small i w l r hi
    · rw [heq, List.getElem?_append_right (le_refl _)] at hi
      simp only [Nat.sub_self, List.getElem?_cons_zero, Option.some.injEq, joinNodes, Node.internal.injEq] at hi
      obtain ⟨_, rfl, rfl⟩ := hi
      simp only [BitVec.toNat_ofNat]
      constructor <;> omega
    · rw [List.getElem?_append_right (by omega)] at hi
      rw [List.getElem?_eq_none (by simp; omega)] at hi
      simp at hi
  · rw [hkids, List.nodup_append]
    refine ⟨h.kids, ?_, ?_⟩
    · simp only [List.nodup_cons, List.mem_singleton, List.not_mem_nil, not_false_eq_true, List.nodup_nil, and_true]
      intro e
      exact hab (ofNat10_inj (by omega) (by omega) e)
    · intro x hx y hy e
      subst e
      rcases List.mem_cons.mp hy with rfl | hy
      · exact h.fresh a ha hx
      · rw [List.mem_singleton.mp hy] at hx
        exact h.fresh b hbq hx
  · intro i hi
    rw [hkids]
    intro hm
    rcases List.mem_append.mp hi with hi | hi
    · obtain ⟨hiq, hia, hib⟩ := hsub i hi
      have hil := h.bound i hiq
      rcases List.mem_append.mp hm with hm | hm
      · exact h.fresh i hiq hm
      · simp only [List.mem_cons, List.not_mem_nil, or_false] at hm
        rcases hm with hm | hm
        · exact hia (ofNat10_inj (by omega) (by omega) hm)
        · exact hib (ofNat10_inj (by omega) (by omega) hm)
    · simp only [List.mem_singleton] at hi
      subst hi
      rcases List.mem_append.mp hm with hm | hm
      · obtain ⟨x, hx, hc⟩ := List.mem_flatMap.mp hm
        obtain ⟨k, hk⟩ := List.mem_iff_getElem?.mp hx
        have hkl : k < arena.length := by
          by_contra hge
          rw [List.getElem?_eq_none (by omega)] at hk
          simp at hk
        cases x with
        | leaf w y => simp [Node.children] at hc
        | internal w l r =>
          have hs := h.small k w l r hk
          simp only [Node.children, List.mem_cons, List.not_mem_nil, or_false] at hc
          rcases hc with hc | hc <;>
          · have := congrArg BitVec.toNat hc
            simp only [BitVec.toNat_ofNat] at this
            omega
      · simp only [List.mem_cons, List.not_mem_nil, or_false] at hm
        rcases hm with hm | hm
        · exact absurd (ofNat10_inj (by omega) (by omega) hm) (by omega)
        · exact absurd (ofNat10_inj (by omega) (by omega) hm) (by omega)

/-- The loop of TB_BUILD ends with one element left, and keeps its invariant. -/
theorem joinLoop_inv {leaves : List Node} (hL : leaves.length ≤ 257) (n : Nat) (q : List Nat) (arena : List Node)
    (h : JoinInv leaves q arena) (hn : q.length ≤ n + 1) :
    JoinInv leaves (joinLoop n q arena).1 (joinLoop n q arena).2 ∧ (joinLoop n q arena).1.length = 1 := by
  have hpos : 0 < q.length := List.length_pos_of_mem h.last
  induction n generalizing q arena with
  | zero => exact ⟨h, by simp only [joinLoop]; omega⟩
  | succ n ih =>
    unfold joinLoop
    cases h1 : takeLeast arena q with
    | none => rw [takeLeast_none h1] at hpos; simp at hpos
    | some p =>
      obtain ⟨a, q1⟩ := p
      obtain ⟨ha, rfl⟩ := takeLeast_some h1
      dsimp only
      cases h2 : takeLeast arena (q.erase a) with
      | none =>
        refine ⟨h, ?_⟩
        have := takeLeast_none h2
        have h3 := List.length_erase_of_mem ha
        rw [this] at h3
        simp only [List.length_nil] at h3
        show q.length = 1
        omega
      | some p =>
        obtain ⟨b, q2⟩ := p
        obtain ⟨hb, rfl⟩ := takeLeast_some h2
        dsimp only
        have h3 := List.length_erase_of_mem ha
        have h4 := List.length_erase_of_mem hb
        have h5 := List.length_pos_of_mem hb
        refine ih _ _ (h.pass hL ha hb) ?_ ?_
        · simp only [List.length_append, List.length_singleton]; omega
        · simp

theorem joinInv_start {leaves : List Node} (hl : leaves ≠ []) (hleaf : ∀ x ∈ leaves, x.isLeaf = true) :
    JoinInv leaves (List.range leaves.length) leaves := by
  have hpos : 0 < leaves.length := List.length_pos_iff.mpr hl
  have hk : leaves.flatMap Node.children = [] := by
    rw [List.flatMap_eq_nil_iff]
    intro x hx
    have := hleaf x hx
    cases x <;> simp_all [Node.isLeaf, Node.children]
  refine ⟨⟨[], by simp, by simp, by simp⟩, List.nodup_range, by simp, by simpa using hpos, ?_, ?_, ?_⟩
  · intro i w l r hi
    have := hleaf _ (List.mem_of_getElem? hi)
    simp [Node.isLeaf] at this
  · rw [hk]; exact List.nodup_nil
  · rw [hk]; simp

theorem allSymbols_pairwise : allSymbols.Pairwise (· < ·) := List.pairwise_lt_finRange 257

theorem leavesOf_eq (counts : Vector Word 257) :
    leavesOf counts = (presentSymbols counts).map fun x => .leaf (counts[x.val].setWidth 40) x := rfl

theorem leavesOf_symbols (counts : Vector Word 257) :
    (leavesOf counts).filterMap Node.symbol? = presentSymbols counts := by
  rw [leavesOf_eq, List.filterMap_map]
  exact List.filterMap_some

theorem mem_presentSymbols {counts : Vector Word 257} {x : Symbol} :
    x ∈ presentSymbols counts ↔ counts[x.val] ≠ 0 := by
  simp [presentSymbols, allSymbols, List.mem_filter]

theorem presentSymbols_length (counts : Vector Word 257) : (presentSymbols counts).length ≤ 257 := by
  have := List.length_filter_le (fun x : Symbol => counts[x.val] != 0) allSymbols
  simpa [presentSymbols, allSymbols] using this

theorem leavesOf_leaf {counts : Vector Word 257} : ∀ x ∈ leavesOf counts, x.isLeaf = true ∧ nodeWeight x ≠ 0 := by
  intro x hx
  rw [leavesOf_eq] at hx
  obtain ⟨y, hy, rfl⟩ := List.mem_map.mp hx
  refine ⟨rfl, ?_⟩
  have hne := mem_presentSymbols.mp hy
  intro e
  apply hne
  have := congrArg BitVec.toNat e
  simp only [nodeWeight, BitVec.toNat_setWidth] at this
  apply BitVec.eq_of_toNat_eq
  have hlt := counts[y.val].isLt
  rw [Nat.mod_eq_of_lt (by omega)] at this
  simpa using this

/-- A valid tree that TB_BUILD leaves is sound (10_state.md R36). -/
theorem treeOver_sound {counts : Vector Word 257} (hl : leavesOf counts ≠ []) : treeSound (treeOver (leavesOf counts)) := by
  have hL : (leavesOf counts).length ≤ 257 := by
    rw [leavesOf_eq, List.length_map]; exact presentSymbols_length counts
  have hpos : 0 < (leavesOf counts).length := List.length_pos_iff.mpr hl
  obtain ⟨inv, hone⟩ := joinLoop_inv hL (leavesOf counts).length _ _
    (joinInv_start hl fun x hx => (leavesOf_leaf x hx).1) (by simp)
  obtain ⟨joins, hj, hjl, hlen⟩ := inv.split
  obtain ⟨i, hi⟩ := List.length_eq_one_iff.mp hone
  have hlast := inv.last
  rw [hi, List.mem_singleton] at hlast
  rw [hone] at hlen
  have hal : (joinLoop (leavesOf counts).length (List.range (leavesOf counts).length) (leavesOf counts)).2.length =
      2 * (leavesOf counts).length - 1 := by
    rw [hj, List.length_append]; omega
  refine ⟨leavesOf counts, joins, hj, by omega, hL, leavesOf_leaf, ?_, hjl, ?_, ?_, inv.small, inv.kids⟩
  · rw [leavesOf_symbols]
    exact allSymbols_pairwise.sublist List.filter_sublist
  · simp only [treeOver, hi, List.headD_cons, BitVec.toNat_ofNat]
    omega
  · simp only [treeOver, BitVec.toNat_ofNat, hal]
    omega

theorem treeOver_legal {counts : Vector Word 257} (hl : leavesOf counts ≠ []) : treeLegal (treeOver (leavesOf counts)) :=
  ⟨fun _ => treeOver_sound hl, fun h => by simp [treeOver] at h⟩

/-- Both children of an entry have smaller indices. -/
def childrenSmaller (arena : List Node) : Prop :=
  ∀ (i : Nat) (w : BitVec 40) (l r : BitVec 10), arena[i]? = some (.internal w l r) → l.toNat < i ∧ r.toNat < i

theorem treeSound.smaller {t : Tree} (h : treeSound t) : childrenSmaller t.arena := by
  obtain ⟨leaves, joins, _, _, _, _, _, _, _, _, hs, _⟩ := h
  exact hs

theorem treeSound.root_lt {t : Tree} (h : treeSound t) : t.root.toNat < t.arena.length := by
  obtain ⟨leaves, joins, ha, hl, _, _, _, _, hr, _⟩ := h
  rw [ha, List.length_append]
  omega

theorem treeSound.nodeCount_eq {t : Tree} (h : treeSound t) : t.nodeCount.toNat = t.arena.length := by
  obtain ⟨leaves, joins, ha, hl, _, _, _, _, _, hn, _⟩ := h
  rw [ha, List.length_append]
  omega

/-- A walk from an entry of a sound arena reaches entries only, so the codes of a sound tree exist (43_code_table.md R180). -/
theorem visit_some {arena : List Node} (h : childrenSmaller arena) (depth : Nat) (i : BitVec 10) (n : Nat)
    (p : BitVec 256) (table : Vector Code 257) (hi : i.toNat < arena.length) (hd : i.toNat < depth) :
    ∃ table', visit arena depth i n p table = some table' := by
  induction depth generalizing i n p table with
  | zero => omega
  | succ depth ih =>
    unfold visit
    obtain ⟨x, hx⟩ : ∃ x, arena[i.toNat]? = some x := ⟨_, List.getElem?_eq_getElem hi⟩
    rw [hx]
    cases x with
    | leaf w y => exact ⟨_, rfl⟩
    | internal w l r =>
      obtain ⟨hl, hr⟩ := h _ _ _ _ hx
      obtain ⟨t1, h1⟩ := ih l (n + 1) p table (by omega) (by omega)
      obtain ⟨t2, h2⟩ := ih r (n + 1) (appendOne n p) t1 (by omega) (by omega)
      exact ⟨t2, by simp only [h1, Option.bind_some, h2]⟩

theorem codesOfTree_some {t : Tree} (h : treeSound t) : codesOfTree t ≠ none := by
  obtain ⟨e, he⟩ := visit_some h.smaller t.arena.length t.root 0 0 (Vector.replicate 257 Code.absent) h.root_lt h.root_lt
  rw [codesOfTree, he]
  simp

/-! ### DEC_SYMBOL and the composites -/

variable {P : State → Prop} {S F : Prop} {s : State}

theorem walkLoop_meets (k : KeepsHidden P S) (r : KeepsSrcPos P) (x : KeepsReader P) (y : KeepsResults P)
    (z : KeepsWalk P) (T : Tree) (hf : F ∨ childrenSmaller T.arena) (n : Nat) (h : P s) (hT : s.tree = T)
    (hw : F ∨ ∃ w l r, T.arena[s.seq.walk.toNat]? = some (.internal w l r)) : (walkLoop n s).meets P S F := by
  induction n generalizing s with
  | zero => exact h
  | succ n ih =>
    unfold walkLoop
    have hg : (getbit s).meets (fun t => P t ∧ t.tree = T ∧ t.seq.walk = s.seq.walk) S F := by
      refine getbit_meets ⟨?_, ?_, ?_⟩ ?_ ?_ ⟨h, hT, rfl⟩
      · exact fun t m ht => ⟨k.beat t m ht.1, ht.2⟩
      · exact fun t m hr ht => ⟨k.draws t m hr ht.1, ht.2⟩
      · exact fun t ht => k.stop t ht.1
      · exact fun t p ht => ⟨r t p ht.1, ht.2⟩
      · exact fun t q hq ht => ⟨x t q hq ht.1, ht.2⟩
    refine Result.meets_andThen hg (fun _ ht => ht.1) fun b t ht => ?_
    obtain ⟨ht, htT, htw⟩ := ht
    cases b with
    | none => exact ht
    | some b =>
      dsimp only
      rcases hn : nodeAt t t.seq.walk with _ | ⟨w, c⟩ | ⟨w, l, rr⟩
      · rcases hw with hw | ⟨w, l, rr, hw⟩
        · exact hw
        · rw [nodeAt, htT, htw, hw] at hn; simp at hn
      · rcases hw with hw | ⟨w, l, rr, hw⟩
        · exact hw
        · rw [nodeAt, htT, htw, hw] at hn; simp at hn
      · dsimp only
        have hz : P (setWalk t (if b = true then rr else l)) := z t _ ht
        have hzT : (setWalk t (if b = true then rr else l)).tree = T := htT
        rcases hm : nodeAt (setWalk t (if b = true then rr else l))
          (setWalk t (if b = true then rr else l)).seq.walk with _ | ⟨w', c⟩ | ⟨w', l', r'⟩
        · rcases hf with hf | hf
          · exact hf
          · exfalso
            rw [nodeAt, htT] at hn
            rw [nodeAt, hzT, List.getElem?_eq_none_iff] at hm
            have hb := hf _ _ _ _ hn
            have hlt : t.seq.walk.toNat < T.arena.length := (List.getElem?_eq_some_iff.mp hn).1
            simp only [setWalk, State.setSeq_seq] at hm
            cases b <;> simp at hm <;> omega
        · exact y _ _ hz
        · refine ih hz hzT (Or.inr ⟨w', l', r', ?_⟩)
          rw [← hm, nodeAt, hzT]

theorem decSymbolBody_meets (k : KeepsHidden P S) (r : KeepsSrcPos P) (x : KeepsReader P) (y : KeepsResults P)
    (z : KeepsWalk P) (hf : F ∨ (s.tree.valid = true → treeSound s.tree)) (h : P s) :
    (decSymbolBody s).meets P S F := by
  unfold decSymbolBody
  split_ifs with hv
  · exact h
  · have hv : s.tree.valid = true := by simpa using hv
    dsimp only
    have hz : P (setWalk s s.tree.root) := z s _ h
    rcases hn : nodeAt (setWalk s s.tree.root) (setWalk s s.tree.root).seq.walk with _ | ⟨w, c⟩ | ⟨w, l, rr⟩
    · rcases hf with hf | hf
      · exact hf
      · exfalso
        have := (hf hv).root_lt
        rw [nodeAt, List.getElem?_eq_none_iff] at hn
        simp only [setWalk, State.setSeq_seq, State.setSeq_tree] at hn
        omega
    · dsimp only
      split_ifs
      · exact y _ _ hz
      · exact hz
    · exact walkLoop_meets k r x y z s.tree (hf.imp id fun hf => (hf hv).smaller) _ hz rfl
        (Or.inr ⟨w, l, rr, by rw [← hn]; rfl⟩)

theorem decodeLoop_meets (k : KeepsHidden P S) (r : KeepsSrcPos P) (x : KeepsReader P) (y : KeepsResults P)
    (z : KeepsWalk P) (w : KeepsSink P) (hf : F ∨ ∀ t, P t → t.tree.valid = true → treeSound t.tree) (n : Nat)
    (h : P s) : (decodeLoop n s).meets P S F := by
  induction n generalizing s with
  | zero =>
    unfold decodeLoop
    refine Result.meets_then (decSymbolBody_meets k r x y z (hf.imp id fun hf => hf s h) h) fun _ t ht => ?_
    split_ifs <;> exact ht
  | succ n ih =>
    unfold decodeLoop
    refine Result.meets_then (decSymbolBody_meets k r x y z (hf.imp id fun hf => hf s h) h) fun _ t ht => ?_
    split_ifs
    · exact ht
    · exact Result.meets_then (sinkByte_meets k w _ ht) fun _ t ht => ih ht

theorem checkTable_meets (h : P s) : (checkTable s).meets P S F := by
  unfold checkTable
  split_ifs <;> exact h

theorem decompressBody_meets (k : KeepsHidden P S) (r : KeepsSrcPos P) (x : KeepsReader P) (y : KeepsResults P)
    (z : KeepsWalk P) (w : KeepsSink P) (c : KeepsCounts P) (b : KeepsNewTree P)
    (hf : F ∨ ∀ t, P t → t.tree.valid = true → treeSound t.tree) (h : P s) : (decompressBody s).meets P S F :=
  Result.meets_then (deserializeBody_meets k r c (x _ _ (fun _ => by simp [readerLegal]) (invalidateTree_meets b h)))
    fun _ _ h =>
  Result.meets_then (checkTable_meets h) fun _ _ h =>
  Result.meets_then (tbBuildBody_meets b treeOver_legal h) fun _ _ h => decodeLoop_meets k r x y z w hf _ h

/-- COMPRESS; `P` is to hold once `src_start` is set. -/
theorem compressBody_meets (k : KeepsHidden P S) (r : KeepsSrcPos P) (x : KeepsWriter P) (w : KeepsSink P)
    (c : KeepsCounts P) (b : KeepsNewTree P) (d : KeepsNewCodes P) (i : KeepsRewind P)
    (hf : F ∨ ∀ t, P t → t.tree.valid = true → treeSound t.tree)
    (h : P (s.setSeq { s.seq with srcStart := s.ports.srcPos })) : (compressBody s).meets P S F :=
  Result.meets_then (analyzeBody_meets k r c (x _ _ (fun _ => writerLegal_empty) (invalidateTree_meets b h)))
    fun _ _ h =>
  Result.meets_then (addTerminatorBody_meets c h) fun _ _ h =>
  Result.meets_then (serializeBody_meets k w h) fun _ _ h =>
  Result.meets_then (tbBuildBody_meets b treeOver_legal h) fun _ t h =>
  Result.meets_then (ctBuildBody_meets d (hf.imp id fun hf hv => codesOfTree_some (hf t h hv)) h) fun _ _ h =>
  Result.meets_then (rewind_meets k i h) fun _ _ h =>
  Result.meets_then (encodeLoop_meets k r w x _ h) fun _ _ h => flushBody_meets k w x h

end Sys2Proof.Machine
end

