-- ==== Sys2Proof/Laws/Exec.lean ====
section
/-! SUPPORT. What a whole command keeps: one lemma over all constructors of Instr. -/

namespace Sys2Proof.Machine

/-- A command's outcome: its end steps or its error end after a body that left `P`, or, only if `S`, a body stopped with `P`; a fault
only if `F`; never a refusal. -/
def outcomeMeets (P : State → Prop) (S F : Prop) : Host.Outcome State Fault Refusal → Prop
  | .next t => (∃ u, P u ∧ (t = endSteps u ∨ ∃ e, t = errorEnd e u)) ∨ (S ∧ P t)
  | .fault _ => F
  | .refused _ => False

variable {P : State → Prop} {S F : Prop} {s : State}

/-- The end of a command, or, only if `S`, what its body left. -/
theorem unlessStopped_meets (k : KeepsHidden P S) {t : State} (h : P s) (ht : t = endSteps s ∨ ∃ e, t = errorEnd e s) :
    outcomeMeets P S F (.next (unlessStopped s t)) := by
  unfold unlessStopped
  split_ifs with hn
  · exact Or.inl ⟨s, h, ht⟩
  · exact Or.inr ⟨(k.stop s h).resolve_right hn, h⟩

theorem close_meets (k : KeepsHidden P S) {r : Result Unit} (h : r.meets P S F) : outcomeMeets P S F (close r) := by
  cases r with
  | ok a u => exact unlessStopped_meets k h (Or.inl rfl)
  | raise e u => exact unlessStopped_meets k h (Or.inr ⟨e, rfl⟩)
  | stopped u => exact Or.inr h
  | faulted x => exact h

theorem command_meets (k : KeepsHidden P S) {op : BitVec 8} {body : State → Result Unit} (hs : P (startSteps op s))
    (h : (body (startSteps op s)).meets P S F) : outcomeMeets P S F (command op body s) := by
  refine close_meets k ?_
  unfold checkPlatform
  split_ifs
  · exact h
  · exact hs

theorem illegalCommand_meets (k : KeepsHidden P S) {op : BitVec 8} (hs : P (startSteps op s)) :
    outcomeMeets P S F (illegalCommand op s) := close_meets k (r := .raise _ _) hs

theorem symbolCommand_meets (k : KeepsHidden P S) {op : BitVec 8} {arg : BitVec 10} {body : Symbol → State → Result Unit}
    (hs : P (startSteps op s)) (h : ∀ x, (body x (startSteps op s)).meets P S F) :
    outcomeMeets P S F (symbolCommand op arg body s) := by
  unfold symbolCommand
  cases symbolOf arg with
  | none => exact illegalCommand_meets k hs
  | some x => exact command_meets k hs (h x)

/-- `P` is kept by every piece of every body. -/
structure KeepsAll (P : State → Prop) (S F : Prop) : Prop where
  hidden : KeepsHidden P S
  walk : KeepsWalk P
  srcPos : KeepsSrcPos P
  sink : KeepsSink P
  writer : KeepsWriter P
  reader : KeepsReader P
  counts : KeepsCounts P
  results : KeepsResults P
  newTree : KeepsNewTree P
  newCodes : KeepsNewCodes P
  softReset : ∀ t, P t → P (softResetBody t)
  sound : F ∨ ∀ t, P t → t.tree.valid = true → treeSound t.tree

theorem tbReadnodeBody_meets (y : KeepsResults P) (i : BitVec 10)
    (hf : F ∨ (s.tree.valid = true → treeSound s.tree)) (h : P s) : (tbReadnodeBody i s).meets P S F := by
  unfold tbReadnodeBody
  split_ifs with hv hi
  · exact h
  · exact h
  · rcases hn : nodeAt s i with _ | x
    · rcases hf with hf | hf
      · exact hf
      · exfalso
        have := (hf (by simpa using hv)).nodeCount_eq
        rw [nodeAt, List.getElem?_eq_none_iff] at hn
        omega
    · exact y s _ h

theorem ctReadBody_meets (y : KeepsResults P) (x : Symbol) (h : P s) : (ctReadBody x s).meets P S F := by
  unfold ctReadBody
  split_ifs
  · exact h
  · exact y s _ h

/-- What every command keeps, once for all constructors; COMPRESS, which moves SRC_POS back, has its own premise. -/
theorem exec_meets (k : KeepsAll P S F) (i : Instr) (h : P (startSteps i.opcode s))
    (hc : i = .compress → (compressBody (startSteps i.opcode s)).meets P S F) : outcomeMeets P S F (exec i s) := by
  have hs : ∀ t, P t → F ∨ (t.tree.valid = true → treeSound t.tree) := fun t ht => k.sound.imp id fun hf => hf t ht
  cases i with
  | nop => exact close_meets k.hidden (r := .ok () (startSteps 0x00 s)) h
  | softReset x => exact close_meets k.hidden (Result.meets_then (beat_meets k.hidden h) fun _ t ht => k.softReset t ht)
  | ftClear => exact command_meets k.hidden h (clearCounts_meets k.counts h)
  | ftAnalyze => exact command_meets k.hidden h (analyzeBody_meets k.hidden k.srcPos k.counts h)
  | ftAddTerminator => exact command_meets k.hidden h (addTerminatorBody_meets k.counts h)
  | ftSerialize => exact command_meets k.hidden h (serializeBody_meets k.hidden k.sink h)
  | ftDeserialize => exact command_meets k.hidden h (deserializeBody_meets k.hidden k.srcPos k.counts h)
  | ftRead a => exact symbolCommand_meets k.hidden h fun x => k.results _ _ h
  | ftWrite a => exact symbolCommand_meets k.hidden h fun x => ftWriteBody_meets k.counts x h
  | tbBuild => exact command_meets k.hidden h (tbBuildBody_meets k.newTree treeOver_legal h)
  | tbReadnode a => exact command_meets k.hidden h (tbReadnodeBody_meets k.results a (hs _ h) h)
  | ctBuild => exact command_meets k.hidden h (ctBuildBody_meets k.newCodes ((hs _ h).imp id fun hf hv => codesOfTree_some (hf hv)) h)
  | ctRead a => exact symbolCommand_meets k.hidden h fun x => ctReadBody_meets k.results x h
  | encSymbol a => exact symbolCommand_meets k.hidden h fun x => encSymbolBody_meets k.hidden k.sink k.writer x h
  | compress => exact command_meets k.hidden h (hc rfl)
  | decSymbol => exact command_meets k.hidden h (decSymbolBody_meets k.hidden k.srcPos k.reader k.results k.walk (hs _ h) h)
  | decompress =>
    exact command_meets k.hidden h (decompressBody_meets k.hidden k.srcPos k.reader k.results k.walk k.sink k.counts k.newTree k.sound h)
  | bwInit => exact command_meets k.hidden h (k.writer _ _ (fun _ => writerLegal_empty) h)
  | bwPutbit b => exact command_meets k.hidden h (putbit_meets k.hidden k.sink k.writer b h)
  | bwFlush => exact command_meets k.hidden h (flushBody_meets k.hidden k.sink k.writer h)
  | brInit => exact command_meets k.hidden h (k.reader _ _ (fun _ => by simp [readerLegal]) h)
  | brGetbit => exact command_meets k.hidden h (brGetbitBody_meets k.hidden k.srcPos k.reader k.results h)

/-- COMPRESS too keeps what every piece of a body keeps, if `P` does not rest on SRC_POS going onward. -/
theorem KeepsAll.compress (k : KeepsAll P S F) (r : KeepsRewind P)
    (h : P (s.setSeq { s.seq with srcStart := s.ports.srcPos })) : (compressBody s).meets P S F :=
  compressBody_meets k.hidden k.srcPos k.writer k.sink k.counts k.newTree k.newCodes r k.sound h

/-- What of a legal state holds also while a command runs. -/
def State.bodyLegal (s : State) : Prop :=
  countsLegal s.counts ∧ treeLegal s.tree ∧ codesLegal s ∧ writerLegal s.bw ∧ readerLegal s.br ∧ memoriesLegal s

theorem codesLegal_empty {t : State} (h : t.codes = Codes.empty) : codesLegal t :=
  ⟨fun hv => by rw [h] at hv; simp [Codes.empty] at hv, fun _ => h⟩

theorem softResetBody_legal {t : State} (h : memoriesLegal t) : (softResetBody t).bodyLegal :=
  ⟨countsLegal_zero, treeLegal_none, codesLegal_empty rfl, writerLegal_empty, by simp [softResetBody, readerLegal], h⟩

/-- Every command keeps what is legal, whether or not the host accesses the core while it runs. -/
theorem bodyLegal_keepsAll : KeepsAll State.bodyLegal True False where
  hidden := ⟨fun _ _ h => h, fun _ _ _ h => h, fun _ _ => Or.inl trivial⟩
  walk := fun _ _ h => h
  srcPos := fun _ _ h => h
  sink := fun _ v _ h => ⟨h.1, h.2.1, h.2.2.1, h.2.2.2.1, h.2.2.2.2.1, h.2.2.2.2.2.1, memoryPut_wf _ v h.2.2.2.2.2.2⟩
  writer := fun _ _ hw h => ⟨h.1, h.2.1, h.2.2.1, hw h.2.2.2.1, h.2.2.2.2⟩
  reader := fun _ _ hr h => ⟨h.1, h.2.1, h.2.2.1, h.2.2.2.1, hr h.2.2.2.2.1, h.2.2.2.2.2⟩
  counts := fun _ _ hc h => ⟨hc h.1, h.2⟩
  results := fun _ _ h => h
  newTree := fun _ _ hx h => ⟨h.1, hx, codesLegal_empty rfl, h.2.2.2⟩
  newCodes := fun _ _ hv he h => ⟨h.1, h.2.1, ⟨fun _ => ⟨hv, he⟩, fun hf => by simp at hf⟩, h.2.2.2⟩
  softReset := fun _ h => softResetBody_legal h.2.2.2.2.2
  sound := Or.inr fun _ h hv => h.2.1.1 hv

/-- A predicate with "no host access falls while the command runs" added is kept as well, and then no command is stopped. -/
theorem KeepsAll.undisturbed (k : KeepsAll P True F) : KeepsAll (fun t => P t ∧ t.undisturbed) False F where
  hidden := ⟨fun t n h => ⟨k.hidden.beat t n h.1, h.2⟩, fun t n hr h => ⟨k.hidden.draws t n hr h.1, h.2⟩,
    fun _ h => Or.inr h.2.1⟩
  walk := fun t i h => ⟨k.walk t i h.1, h.2⟩
  srcPos := fun t hx h => ⟨k.srcPos t hx h.1, h.2⟩
  sink := fun t v hr h => ⟨k.sink t v hr h.1, h.2⟩
  writer := fun t w hw h => ⟨k.writer t w hw h.1, h.2⟩
  reader := fun t r hr h => ⟨k.reader t r hr h.1, h.2⟩
  counts := fun t c hc h => ⟨k.counts t c hc h.1, h.2⟩
  results := fun t r h => ⟨k.results t r h.1, h.2⟩
  newTree := fun t x hx h => ⟨k.newTree t x hx h.1, h.2⟩
  newCodes := fun t e hv he h => ⟨k.newCodes t e hv he h.1, h.2⟩
  softReset := fun t h => ⟨k.softReset t h.1, h.2⟩
  sound := k.sound.imp id fun hf t h => hf t h.1

theorem State.quiet.undisturbed (h : s.quiet) : s.undisturbed := by
  unfold State.quiet at h
  simp [State.undisturbed, h, Sequencer.idle]

/-- A command of an idle core that leaves a state has run to its end steps or its error end. -/
theorem exec_next {t : State} {i : Instr} (k : KeepsAll P False F) (h : P (startSteps i.opcode s))
    (hc : i = .compress → (compressBody (startSteps i.opcode s)).meets P False F) (ht : exec i s = .next t) :
    ∃ u, P u ∧ (t = endSteps u ∨ ∃ e, t = errorEnd e u) := by
  have := exec_meets k i h hc
  rw [ht] at this
  rcases this with h1 | h1
  · exact h1
  · exact h1.1.elim

end Sys2Proof.Machine
end

