-- ==== Sys2Proof/Laws/Bus.lean ====
section
/-! SUPPORT. What a step can do where the host writes CMD, with and without accesses that fall while the command runs. -/

namespace Sys2Proof.Machine

/-- A word-sized access at a word-aligned offset of the window reaches the register of that offset. -/
theorem windowOffset_word {p : Params} {off : Nat} (h : off < 256) (h4 : off % 4 = 0) :
    windowOffset p .word (p.regBase + off) = .ok off := by
  unfold windowOffset
  rw [if_neg (by simp [Config.windowBytes]; omega), if_neg (by simp; omega)]
  simp

/-- A step whose oldest access writes a word to CMD starts that word's command. -/
theorem step_startCommand {s : State} {flag : Bool} {w : Word} {rest : List HostOp}
    (hb : s.host.bus = { whileBusy := flag, access := .regWrite .word (s.par.regBase + 0x08) w } :: rest) :
    step s = startCommand w (s.setHost { s.host with bus := rest }) := by
  unfold step nextAccess
  rw [hb]
  simp only [serve, State.setHost_par]
  rw [windowOffset_word (by omega) (by omega)]
  rfl

/-- A word's command keeps what every piece of a body keeps. -/
theorem runWord_meets {P : State → Prop} {S F : Prop} {s : State} (k : KeepsAll P S F) (w : Word)
    (h : ∀ op, P (startSteps op s)) (hc : (compressBody (startSteps 0x31 s)).meets P S F) :
    outcomeMeets P S F (runWord w s) := by
  unfold runWord
  cases decode w with
  | none => exact illegalCommand_meets k.hidden (h _)
  | some i => exact exec_meets k i (h _) fun hi => by subst hi; exact hc

/-- That no host access stops the command stays so while it runs. -/
theorem unstopped_keepsAll : KeepsAll (fun t => t.seq.stopAt = none) False True where
  hidden := ⟨fun _ _ h => h, fun _ _ _ h => h, fun _ h => Or.inr h⟩
  walk := fun _ _ h => h
  srcPos := fun _ _ h => h
  sink := fun _ _ _ h => h
  writer := fun _ _ _ h => h
  reader := fun _ _ _ h => h
  counts := fun _ _ _ h => h
  results := fun _ _ h => h
  newTree := fun _ _ _ h => h
  newCodes := fun _ _ _ _ h => h
  softReset := fun _ h => h
  sound := Or.inl trivial

/-- A command that no host access stops leaves no hidden state. -/
theorem runWord_idle {w : Word} {s t : State} (h : s.seq.stopAt = none) (ht : runWord w s = .next t) : t.seq = Sequencer.idle := by
  have := runWord_meets unstopped_keepsAll w (s := s) (fun _ => h) (unstopped_keepsAll.compress (fun _ h => h) h)
  rw [ht] at this
  rcases this with ⟨u, _, rfl | ⟨e, rfl⟩⟩ | ⟨hf, _⟩
  · rfl
  · rfl
  · exact hf.elim

/-- No access that stops a command or races with it: the sequencer is that of an idle core. -/
theorem armed_quiet {s : State} {during : List HostAccess} (h : s.quiet) (hr : racedCells during = []) : armed during false s = s := by
  have hs : s.seq = { Sequencer.idle with stopAt := none, races := [] } := h
  unfold armed
  rw [hr]
  simp only [Bool.false_eq_true, if_false, State.setSeq, ← hs]

theorem takeWhile_idle {rest : List HostOp} (h : ∀ op ∈ rest, op.whileBusy = false) :
    rest.takeWhile (·.whileBusy) = [] ∧ rest.dropWhile (·.whileBusy) = rest := by
  cases rest with
  | nil => exact ⟨rfl, rfl⟩
  | cons a l => simp [h a (by simp)]

/-- A command of an idle core runs with the accesses that are marked as falling while it runs, and with none it runs alone. -/
theorem startCommand_eq (w : Word) {s : State} (h : s.quiet) :
    startCommand w s = overlapped w [] ((s.host.bus.takeWhile (·.whileBusy)).map (·.access))
      (s.setHost { s.host with bus := s.host.bus.dropWhile (·.whileBusy) }) := by
  unfold startCommand
  split
  · rename_i hb
    have hd : s.host.bus.dropWhile (·.whileBusy) = s.host.bus := by
      have := List.takeWhile_append_dropWhile (p := (·.whileBusy)) (l := s.host.bus)
      rwa [hb, List.nil_append] at this
    rw [hb, hd]
    show _ = runBusy w [] false s
    have ha : armed [] false s = s := armed_quiet h rfl
    simp only [runBusy, List.findSome?_nil, ha]
    cases ht : runWord w s with
    | next t => simp only [settleAll, State.setSeq, ← runWord_idle h.unstopped ht]
    | fault f => rfl
    | refused r => rfl
  · rename_i hb
    rw [hb]

/-- A step that starts a command while which exactly the accesses `ops` fall. -/
theorem step_overlapped {s : State} {w : Word} {ops rest : List HostOp} (h : s.quiet) (ho : ∀ op ∈ ops, op.whileBusy = true)
    (hr : ∀ op ∈ rest, op.whileBusy = false)
    (hb : s.host.bus = { whileBusy := false, access := .regWrite .word (s.par.regBase + 0x08) w } :: (ops ++ rest)) :
    step s = overlapped w [] (ops.map (·.access)) (s.setHost { s.host with bus := rest }) := by
  rw [step_startCommand hb]
  refine (startCommand_eq _ (by exact h)).trans ?_
  simp only [State.setHost_host, List.takeWhile_append_of_pos ho, List.dropWhile_append_of_pos ho, (takeWhile_idle hr).1,
    (takeWhile_idle hr).2, List.append_nil]
  rfl

/-- A step that starts a command with no access falling while it runs is that command. -/
theorem step_alone {s : State} {w : Word} {rest : List HostOp} (hr : ∀ op ∈ rest, op.whileBusy = false)
    (hb : s.host.bus = { whileBusy := false, access := .regWrite .word (s.par.regBase + 0x08) w } :: rest) :
    step s = runWord w (s.setHost { s.host with bus := rest }) := by
  rw [step_startCommand hb]
  unfold startCommand
  simp only [State.setHost_host, (takeWhile_idle hr).1]

/-- A read of STATUS while a command runs logs the current value and takes a free value's number. -/
theorem settleAccess_status {p : Params} {op : BitVec 8} {start s : State} {old : List Host.Cell} (h : start.par = p) :
    settleAccess op start (.regRead .word (p.regBase + 0x0C)) old s =
      (old, logRead (drawn s) (statusWord (busyStatus op start s))) := by
  simp only [settleAccess, h, windowOffset_word (p := p) (off := 0x0C) (by omega) (by omega), busyRead]

/-- ERR_STICKY that a later read of STATUS shows set, an earlier one shows set too. -/
theorem busyStatus_sticky {op : BitVec 8} {start s t : State} (hs : t.status.errSticky = s.status.errSticky)
    (hr : readsSince start s ≤ readsSince start t) (h : (busyStatus op start t).errSticky = true) :
    (busyStatus op start s).errSticky = true := by
  simp only [busyStatus, Bool.and_eq_true, Bool.or_eq_true, decide_eq_true_eq, hs] at h ⊢
  exact ⟨h.1, h.2.imp id fun h => by omega⟩

/-- A raced source byte shows its old value or one the host writes. -/
theorem racedValue_mem (races : List Host.Cell) (a : Nat) (v : Byte) (n : Nat) :
    (racedValue races a v n).1 = v ∨ (a, (racedValue races a v n).1) ∈ races := by
  induction races generalizing v n with
  | nil => exact Or.inl rfl
  | cons c cs ih =>
    obtain ⟨k, x⟩ := c
    unfold racedValue
    by_cases hk : k = a
    · subst hk
      rw [if_pos rfl]
      by_cases hx : Config.raceShowsNew n = true
      · rw [if_pos hx]
        rcases ih x (n + 1) with h | h
        · rw [h]; exact Or.inr (List.mem_cons_self ..)
        · exact Or.inr (List.mem_cons_of_mem _ h)
      · rw [if_neg hx]
        exact (ih v (n + 1)).imp id (List.mem_cons_of_mem _)
    · rw [if_neg hk]
      exact (ih v n).imp id (List.mem_cons_of_mem _)

end Sys2Proof.Machine
end

