-- ==== Sys2Proof/Tests/Slice0.lean ====
section
/-! SUPPORT. Tests of the model against the words and vectors of the spec, and for each statement with hypotheses a state and operands
that meet them. -/

namespace Sys2Proof.Tests

open Sys2Proof Sys2Proof.Machine

set_option Elab.async false

/-! ### Small states -/

/-- The start state of the vectors (95_test_vectors.md section 0): SRC at offset 0, SRC_LEN its length, DST_CAP 0x100000. -/
def start (src : List Byte) : State :=
  { State.reset with
    src := writeBytes [] 0 src
    ports := { srcPos := 0, srcLen := BitVec.ofNat 32 src.length, dstPos := 0, dstCap := 0x100000, dataIn := 0 } }

/-- A table of counts from its non-zero entries. -/
def table (entries : List (Nat × Nat)) : Vector Word 257 :=
  entries.foldl (fun v e => v.setIfInBounds e.1 (BitVec.ofNat 32 e.2)) (Vector.replicate 257 0)

/-- Some counts of a table. -/
def countsAt (s : State) (xs : List Symbol) : List Nat := xs.map fun x => (countOf s x).toNat

/-- Some codes, each with its length and bits, and none for a symbol without a code. -/
def codesAt (s : State) (xs : List Symbol) : List (Option (Nat × Nat)) :=
  xs.map fun x => if (codeOf s x).present then some ((codeOf s x).len.toNat, (codeOf s x).bits.toNat) else none

/-- The counts of `ab` and the terminator (V-TB-1). -/
def countsAB : Vector Word 257 := (((Vector.replicate 257 0).set 0x61 1).set 0x62 1).set 256 1

/-- The tree of V-TB-1. -/
def treeAB : Tree :=
  { valid := true, root := 4, nodeCount := 5
    arena := [.leaf 1 0x61, .leaf 1 0x62, .leaf 1 256, .internal 2 0 1, .internal 3 2 3] }

/-- The codes of V-CT-2 and of program P3: `a` is 10, `b` is 11, the terminator 0. -/
def codesAB : Codes :=
  { valid := true
    entries := (((Vector.replicate 257 { present := false, len := 0, bits := 0 }).set 0x61 { present := true, len := 2, bits := 1 }).set
      0x62 { present := true, len := 2, bits := 3 }).set 256 { present := true, len := 1, bits := 0 } }

/-- V-TB-1 with its codes, over some source bytes. -/
def stateAB (src : List Byte) : State := { start src with counts := countsAB, tree := treeAB, codes := codesAB }

/-- The next state, if the outcome is one. -/
def next? : Host.Outcome State Fault Refusal → Option State
  | .next t => some t
  | _ => none

/-- The next state of a command word written to CMD. -/
def run (w : Nat) (s : State) : Option State := next? (step (s.withFetchWord 32 w))

/-- A register after a command word written to CMD. -/
def reg (w : Nat) (s : State) (off : Nat) : Option Word := (run w s).map (readRegister · off)

/-- Bytes as the cells from offset 0 on; a byte 0 is not listed (log entry 4). -/
def cells (bytes : List Byte) : List Host.Cell :=
  (bytes.zipIdx.filter fun c => c.1 != 0).map fun c => (c.2, c.1)

/-- What a command word written to CMD leaves in DST. -/
def dstCells (w : Nat) (s : State) : Option (List Host.Cell) := (run w s).map (·.dst)

/-! ### Well-formed and ill-formed -/

/-- Each check of WellFormed refuses a term (30_encoding.md R91, R94): ARG = 257 for the four symbol commands. -/
theorem test_ill_formed :
    (Instr.ftRead 257).wellFormed = false ∧ (Instr.ftWrite 257).wellFormed = false ∧
    (Instr.ctRead 257).wellFormed = false ∧ (Instr.encSymbol 1023).wellFormed = false := by decide

/-- The terminator is a symbol, and a node index has no bound (30_encoding.md R91). -/
theorem test_well_formed :
    (Instr.ftRead 256).wellFormed = true ∧ (Instr.encSymbol 256).wellFormed = true ∧
    (Instr.tbReadnode 1023).wellFormed = true := by decide

/-! ### Words written out from the encodings (30_encoding.md R90 to R92): 31..26 reserved, 25..16 ARG, 15..9 reserved, 8 B, 7..0 OP -/

theorem test_word_nop : decode 0b000000_0000000000_0000000_0_00000000#32 = some .nop := by decide
theorem test_word_soft_reset :
    decode 0b101010_1111111111_0101010_1_00000001#32 = some (.softReset 0xABFF55) := by decide
theorem test_words_frequency_table :
    decode 0b000000_0000000000_0000000_0_00010000#32 = some .ftClear ∧
    decode 0b000000_0000000000_0000000_0_00010001#32 = some .ftAnalyze ∧
    decode 0b000000_0000000000_0000000_0_00010010#32 = some .ftAddTerminator ∧
    decode 0b000000_0000000000_0000000_0_00010011#32 = some .ftSerialize ∧
    decode 0b000000_0000000000_0000000_0_00010100#32 = some .ftDeserialize ∧
    decode 0b000000_0001000001_0000000_0_00010101#32 = some (.ftRead 65) ∧
    decode 0b000000_0100000000_0000000_0_00010110#32 = some (.ftWrite 256) := by decide
theorem test_words_tree_builder :
    decode 0b000000_0000000000_0000000_0_00100000#32 = some .tbBuild ∧
    decode 0b000000_1000000000_0000000_0_00100001#32 = some (.tbReadnode 512) := by decide
theorem test_words_code_table :
    decode 0b000000_0000000000_0000000_0_00101000#32 = some .ctBuild ∧
    decode 0b000000_0001100010_0000000_0_00101001#32 = some (.ctRead 98) := by decide
theorem test_words_compress :
    decode 0b000000_0001100001_0000000_0_00110000#32 = some (.encSymbol 97) ∧
    decode 0b000000_0000000000_0000000_0_00110001#32 = some .compress := by decide
theorem test_words_decompress :
    decode 0b000000_0000000000_0000000_0_00111000#32 = some .decSymbol ∧
    decode 0b000000_0000000000_0000000_0_00111001#32 = some .decompress := by decide
theorem test_words_bit_stream :
    decode 0b000000_0000000000_0000000_0_01000000#32 = some .bwInit ∧
    decode 0b000000_0000000000_0000000_1_01000001#32 = some (.bwPutbit true) ∧
    decode 0b000000_0000000000_0000000_0_01000001#32 = some (.bwPutbit false) ∧
    decode 0b000000_0000000000_0000000_0_01000010#32 = some .bwFlush ∧
    decode 0b000000_0000000000_0000000_0_01001000#32 = some .brInit ∧
    decode 0b000000_0000000000_0000000_0_01001001#32 = some .brGetbit := by decide

/-- V-CTL-2 to V-CTL-7: illegal words. -/
theorem test_words_illegal :
    decode 0x00000002 = none ∧ decode 0x00000211 = none ∧ decode 0x04000000 = none ∧ decode 0x00010000 = none ∧
    decode 0x00000100 = none ∧ decode 0x01010030 = none := by decide

/-! ### Control -/

/-- V-CTL-1. -/
theorem test_nop : reg 0 State.reset 0x0C = some 0 ∧ reg 0 State.reset 0x3C = some 2 := by decide +kernel

/-- V-CTL-8: the start of a command clears ERR and ERRCODE and keeps ERR_STICKY. -/
theorem test_nop_after_an_error :
    reg 0 { State.reset with status := { busy := false, err := true, errSticky := true, errCode := 5, lastOp := 2 } } 0x0C = some 4 := by
  decide +kernel

/-- V-CTL-2, V-CTL-3: an illegal word reports IllegalCommand and counts nothing. -/
theorem test_illegal_words :
    reg 0x00000002 State.reset 0x0C = some 0x00000256 ∧ reg 0x00000211 (start [0x61]) 0x0C = some 0x00001156 ∧
    reg 0x00000211 (start [0x61]) 0x10 = some 0 := by decide +kernel

/-- V-CTL-9: SOFT_RESET with junk in the other bits clears ERR_STICKY. -/
theorem test_soft_reset :
    reg 0xFFFFFF01 { State.reset with status := { busy := false, err := true, errSticky := true, errCode := 5, lastOp := 2 } } 0x0C =
      some 0x00000100 := by decide +kernel

/-- V-RH-2: SOFT_RESET clears the codec state and keeps SRC_POS and DST_CAP. -/
theorem test_soft_reset_keeps_positions :
    (run 0x01 { stateAB [1, 2] with
      ports := { srcPos := 0x42, srcLen := 0x42, dstPos := 0x0A, dstCap := 0x40, dataIn := 7 } }).map
      (fun t => (readRegister t 0x38, readRegister t 0x10, readRegister t 0x18, readRegister t 0x1C, readRegister t 0x20)) =
    some (0, 0x42, 0x0A, 0x40, 7) := by decide +kernel

/-- V-CTL-11 to V-CTL-14, with PLATFORM_LE = false. -/
theorem test_big_endian_platform :
    let s := { start [0x68] with par := { platformLE := false, regBase := 0 } }
    reg 0 s 0x0C = some 0 ∧ reg 0x31 s 0x0C = some 0x00003136 ∧ reg 0x31 s 0x10 = some 0 ∧
    reg 0x02 s 0x0C = some 0x00000256 ∧ reg 0x01 s 0x0C = some 0x00000100 := by decide +kernel

/-! ### Frequency table -/

/-- V-FT-19. -/
theorem test_ft_clear : (run 0x10 { start [] with counts := table [(65, 3)] }).map (fun t => countsAt t [65, 256]) = some [0, 0] := by
  decide +kernel

/-- V-FT-1. -/
theorem test_ft_analyze :
    (run 0x11 (start [0x61, 0x62, 0x63, 0x61])).map (fun t => (countsAt t [0x60, 0x61, 0x62, 0x63, 256], t.ports.srcPos)) =
      some ([0, 2, 1, 1, 0], 4) := by decide +kernel

/-- V-FT-18: the counts are cleared before they are counted, so a full count is no overflow. -/
theorem test_ft_analyze_clears_first :
    (run 0x11 { start [0x61, 0x61, 0x62] with counts := table [(0x61, 0x7FFFFFFE)] }).map
      (fun t => (countsAt t [0x61, 0x62], readRegister t 0x0C)) = some ([2, 1], 0x00001100) := by decide +kernel

/-- V-FT-4: the terminator's count becomes 1. -/
theorem test_ft_add_terminator : (run 0x12 (start [])).map (fun t => countsAt t [0, 255, 256]) = some [0, 0, 1] := by decide +kernel

/-- V-FT-16. -/
theorem test_ft_add_terminator_full :
    (run 0x12 { start [] with counts := table [(256, 0x7FFFFFFE)] }).map (fun t => (countsAt t [256], readRegister t 0x0C)) =
      some ([0x7FFFFFFE], 0x00001266) := by decide +kernel

/-- V-FT-2. -/
theorem test_ft_serialize :
    dstCells 0x13 { start [] with counts := table [(0x61, 2), (0x62, 1), (0x63, 1), (256, 1)] } = some (cells [3, 0, 0, 0, 2, 0, 0, 0, 0x61, 0, 1, 0, 0, 0, 0x62, 0, 1, 0, 0, 0, 0x63, 0, 1, 0, 0, 0, 0, 1, 3, 0, 0, 0, 0]) := by
  decide +kernel

/-- V-FT-3: the table of no counts. -/
theorem test_ft_serialize_empty :
    (run 0x13 (start [])).map (fun t => (t.dst, readRegister t 0x18)) = some (cells [1, 0, 0, 0, 1, 0, 0, 0], 8) := by
  decide +kernel

/-- The source of V-FT-5. -/
def tableBytes : List Byte := [3, 0, 0, 0, 2, 0, 0, 0, 0x61, 0, 1, 0, 0, 0, 0x62, 0, 3, 0, 0, 0]

/-- V-FT-6: the trailing bytes are not read. -/
theorem test_ft_deserialize :
    (run 0x14 (start (tableBytes ++ [0xAA, 0xBB]))).map (fun t => (countsAt t [0x61, 0x62, 0x63], t.ports.srcPos, readRegister t 0x0C)) =
      some ([2, 1, 0], 0x14, 0x00001400) := by decide +kernel

/-- V-FT-7: the second delimiter is cut short; the pairs stay. -/
theorem test_ft_deserialize_cut_short :
    (run 0x14 (start (tableBytes.take 19))).map (fun t => (countsAt t [0x61, 0x62, 0x63], t.ports.srcPos, readRegister t 0x0C)) =
      some ([2, 1, 0], 0x13, 0x00001416) := by decide +kernel

/-- V-FT-20. -/
theorem test_ft_read : reg 0x006C0015 { start [] with counts := table [(0x6C, 3)] } 0x24 = some 3 := by decide +kernel

/-- V-FT-17. -/
theorem test_ft_read_257 :
    reg 0x01010015 (start []) 0x0C = some 0x00001556 ∧ reg 0x01010015 (start []) 0x24 = some 0 := by decide +kernel

/-- V-FT-14: MAX_COUNT is accepted. -/
theorem test_ft_write :
    (run 0x00410016 { State.reset with ports := { srcPos := 0, srcLen := 0, dstPos := 0, dstCap := 0, dataIn := 0x7FFFFFFE } }).map
      (fun t => countsAt t [64, 65, 66]) = some [0, 0x7FFFFFFE, 0] := by decide +kernel

/-- V-FT-15: one more is not. -/
theorem test_ft_write_overflow :
    (run 0x00410016 { State.reset with ports := { srcPos := 0, srcLen := 0, dstPos := 0, dstCap := 0, dataIn := 0x7FFFFFFF } }).map
      (fun t => (countsAt t [65], readRegister t 0x0C)) = some ([0], 0x00001666) := by decide +kernel

/-! ### Tree builder -/

/-- V-TB-1: the arena and TREE_STATE. -/
theorem test_tb_build :
    (run 0x20 { start [] with counts := countsAB }).map (fun t => (t.tree, readRegister t 0x38)) =
      some (treeAB, 0x80040005) := by decide +kernel

/-- V-TB-9: the 40-bit weights, and the tie between equal weights. -/
theorem test_tb_build_wide_weights :
    (treeOver [.leaf 0x7FFFFFFE 1, .leaf 0x7FFFFFFE 2, .leaf 0x7FFFFFFE 3, .leaf 1 256]).arena.drop 4 =
      [.internal 0x7FFFFFFF 3 0, .internal 0xFFFFFFFC 1 2, .internal 0x17FFFFFFB 4 5] := by decide +kernel

/-- V-TB-2. -/
theorem test_tb_readnode :
    reg 0x00040021 (stateAB []) 0x24 = some 3 ∧ reg 0x00040021 (stateAB []) 0x28 = some 0 ∧
    reg 0x00040021 (stateAB []) 0x2C = some 0x00020003 := by decide +kernel

/-- V-TB-3 and V-TB-4: a leaf, and an index past the arena. -/
theorem test_tb_readnode_leaf :
    reg 0x00020021 (stateAB []) 0x2C = some 0x80000100 ∧ reg 0x00050021 (stateAB []) 0x0C = some 0x00002156 := by decide +kernel

/-! ### Code table -/

/-- V-CT-2. -/
theorem test_ct_build :
    (run 0x28 { start [] with counts := countsAB, tree := treeAB }).map (fun t => (codesAt t [0x61, 0x62, 0x63, 256], readRegister t 0x38)) =
      some ([some (2, 1), some (2, 3), none, some (1, 0)], 0xC0040005) := by decide +kernel

/-- V-CT-4. -/
theorem test_ct_build_without_tree : reg 0x28 State.reset 0x0C = some 0x00002886 := by decide +kernel

/-- V-CT-2: CT_READ 'a'. -/
theorem test_ct_read :
    reg 0x00610029 (stateAB []) 0x24 = some 0x80000002 ∧ reg 0x00610029 (stateAB []) 0x40 = some 1 := by decide +kernel

/-- V-CT-3 and V-CT-6: a symbol without a code, and no code table. -/
theorem test_ct_read_absent :
    reg 0x00630029 (stateAB []) 0x24 = some 0 ∧ reg 0x00630029 (stateAB []) 0x0C = some 0x00002900 ∧
    reg 0x00610029 { start [] with tree := treeAB } 0x0C = some 0x00002986 := by decide +kernel

/-! ### Compress -/

/-- Program P3, its second ENC_SYMBOL: after `a` the writer holds 1, 0; `b` is 11. -/
theorem test_enc_symbol :
    reg 0x00620030 { stateAB [] with bw := { n := 2, buf := 1 } } 0x30 = some 0x00000D04 := by decide +kernel

/-- 44_compress.md R200: a symbol without a code is ConsistencyError. -/
theorem test_enc_symbol_without_code : reg 0x00630030 (stateAB []) 0x0C = some 0x00003026 := by decide +kernel

/-- V-CP-5, the stream of `ab`. -/
def streamAB : List Byte :=
  [2, 0, 0, 0, 1, 0, 0, 0, 0x61, 0, 1, 0, 0, 0, 0x62, 0, 1, 0, 0, 0, 0, 1, 2, 0, 0, 0, 0x0D]

/-- V-CP-5. -/
theorem test_compress :
    (run 0x31 (start [0x61, 0x62])).map (fun t => (t.dst, readRegister t 0x18, readRegister t 0x38)) =
      some (cells streamAB, 27, 0xC0040005) := by decide +kernel

/-- The start of V-CP-12: SRC_POS past SRC_LEN. -/
def pastEnd : State :=
  { State.reset with ports := { srcPos := 20, srcLen := 11, dstPos := 0, dstCap := 0x100000, dataIn := 0 } }

/-- V-CP-12: the stream of the empty source (V-CP-2), and SRC_POS is not lowered; the stream placed in the source is a witness for
DecompressUndoesCompress. -/
theorem test_compress_empty :
    (run 0x31 pastEnd).map (fun t => (t.dst, t.ports.srcPos, t.ports.dstPos,
      decide (sourceBytes (start [2, 0, 0, 0, 1, 0, 0, 0, 0, 1, 2, 0, 0, 0]) =
        (List.range (t.ports.dstPos.toNat - 0)).map (fun k => memoryGet t.dst (0 + k))))) =
      some (cells [2, 0, 0, 0, 1, 0, 0, 0, 0, 1, 2, 0, 0, 0], 20, 14, true) := by decide +kernel

/-! ### Decompress -/

/-- V-DP-5, its first symbol: the code bits of `ab` are in the byte 0D, and `a` takes the first two. -/
theorem test_dec_symbol :
    reg 0x38 (stateAB [0x0D]) 0x24 = some 0x61 ∧ reg 0x38 (stateAB [0x0D]) 0x34 = some 0x00000D06 := by decide +kernel

/-- V-DS-5: the bits end before a leaf. -/
theorem test_dec_symbol_truncated :
    reg 0x38 (stateAB []) 0x0C = some 0x00003846 ∧ reg 0x38 (stateAB []) 0x24 = some 0 := by decide +kernel

/-- V-DP-5. -/
theorem test_decompress :
    (run 0x39 (start streamAB)).map (fun t => (t.dst, readRegister t 0x10, readRegister t 0x18,
      readRegister t 0x24, readRegister t 0x34)) = some (cells [0x61, 0x62], 0x1B, 2, 0x100, 0x00000D03) := by decide +kernel

/-- V-DP-13: a table without the terminator. -/
theorem test_decompress_without_terminator :
    (run 0x39 (start [4, 0, 0, 0, 3, 0, 0, 0, 0x61, 0, 4, 0, 0, 0, 0x0F])).map
      (fun t => (t.dst, readRegister t 0x0C, readRegister t 0x10, readRegister t 0x38)) = some ([], 0x00003916, 0x0E, 0) := by
  decide +kernel

/-! ### Bit stream -/

/-- 46_bitstream.md R240: the buffered bits are dropped. -/
theorem test_bw_init : reg 0x40 { start [] with bw := { n := 3, buf := 5 } } 0x30 = some 0 := by decide +kernel

/-- V-BW-1, the eighth bit: the byte A5. -/
theorem test_bw_putbit :
    dstCells 0x141 { start [] with bw := { n := 7, buf := 0x25 } } = some (cells [0xA5]) ∧
    reg 0x141 { start [] with bw := { n := 7, buf := 0x25 } } 0x30 = some 0 := by decide +kernel

/-- V-BW-7, the eighth bit into a full sink. -/
theorem test_bw_putbit_full :
    reg 0x141 { State.reset with bw := { n := 7, buf := 0x7F } } 0x0C = some 0x00004176 ∧
    reg 0x141 { State.reset with bw := { n := 7, buf := 0x7F } } 0x30 = some 0x00007F07 := by decide +kernel

/-- V-BW-5, the flush of three bits. -/
theorem test_bw_flush :
    dstCells 0x42 { start [] with bw := { n := 3, buf := 5 } } = some (cells [5]) ∧
    reg 0x42 { start [] with bw := { n := 3, buf := 5 } } 0x18 = some 1 := by decide +kernel

/-- V-BW-6 and V-BW-8: a flush of no bits, and one into a full sink. -/
theorem test_bw_flush_none :
    reg 0x42 (start []) 0x0C = some 0x00004200 ∧ reg 0x42 (start []) 0x18 = some 0 ∧
    reg 0x42 { State.reset with bw := { n := 3, buf := 7 } } 0x0C = some 0x00004276 ∧
    reg 0x42 { State.reset with bw := { n := 3, buf := 7 } } 0x30 = some 0x00000703 := by decide +kernel

/-- 46_bitstream.md R245. -/
theorem test_br_init : reg 0x48 { start [1] with br := { rem := 3, cur := 6 } } 0x34 = some 0 := by decide +kernel

/-- V-BR-1. -/
theorem test_br_getbit :
    (run 0x49 (start [0xA5, 1])).map (fun t => (readRegister t 0x24, readRegister t 0x10, readRegister t 0x34)) =
      some (1, 1, 0x0000A507) := by decide +kernel

/-- V-BR-4: the end is no error. -/
theorem test_br_getbit_end :
    reg 0x49 (start []) 0x24 = some 0x80000000 ∧ reg 0x49 (start []) 0x0C = some 0x00004900 := by decide +kernel

/-! ### The host's accesses -/

/-- V-CTL-10: IE and PEND raise the line, and a written 1 clears PEND. -/
theorem test_interrupt :
    (run 0 { State.reset with irq := { ie := true, pend := false } }).map irqLine = some true ∧
    (next? (step { State.reset with
      irq := { ie := true, pend := true }
      host := { bus := [{ whileBusy := false, access := .regWrite .word 0x3C 3 }], readLog := [], draws := 0 } })).map
      (readRegister · 0x3C) = some 1 := by decide +kernel

/-- V-RH-4, with FT_CLEAR for COMPRESS: a NOP written while a command runs is dropped, and LAST_OP is the running command's. -/
theorem test_command_while_busy :
    (next? (step { start [] with host := {
      bus := [{ whileBusy := false, access := .regWrite .word 8 0x10 }, { whileBusy := true, access := .regWrite .word 8 0 }]
      readLog := [], draws := 0 } })).map (readRegister · 0x0C) = some 0x00001000 := by decide +kernel

/-- 70_reset_and_hazards.md R351: an illegal word that a SOFT_RESET word stops sets no ERR_STICKY, as a read of STATUS (10_state.md R28)
shows while that SOFT_RESET runs; one that ends before the SOFT_RESET word is written does. -/
theorem test_stopped_command_reports_no_error :
    (next? (step { start [] with host := {
      bus := [{ whileBusy := false, access := .regWrite .word 8 2 }, { whileBusy := true, access := .regWrite .word 8 1 },
        { whileBusy := true, access := .regRead .word 0x0C }]
      readLog := [], draws := 0 } })).map (·.host.readLog) = some [0x00000101] ∧
    reg 2 (start []) 0x0C = some 0x00000256 := by decide +kernel

/-- V-RH-1: ID and CAPS after reset. -/
theorem test_hardware_reset :
    readRegister State.reset 0x00 = 0x48554646 ∧ readRegister State.reset 0x04 = 1 ∧
    (List.range 60).all (fun k => readRegister State.reset (4 * k + 8) == 0) = true := by decide +kernel

/-! ### A state and operands that meet the hypotheses of each statement -/

theorem treeAB_eq : treeAB = treeOver (leavesOf countsAB) := by decide +kernel

theorem treeAB_sound : treeSound treeAB := by
  rw [treeAB_eq]
  exact treeOver_sound (by decide +kernel)

/-- V-TB-1 over a source byte, with this access at the front of the host's queue and a read of STATUS after it. -/
def hosted (ops : List HostOp) : State :=
  { start [0x0D] with
    counts := countsAB
    tree := treeAB
    host := { bus := ops ++ [{ whileBusy := false, access := .regRead .word 0x0C }], readLog := [], draws := 0 } }

/-- A write of a word to CMD. -/
def cmd (w : Word) : HostOp := { whileBusy := false, access := .regWrite .word 0x08 w }

/-- A write to a register while a command runs. -/
def busyWrite (off : Nat) (v : Word) : HostOp := { whileBusy := true, access := .regWrite .word off v }

/-- A read of a register while a command runs. -/
def busyRead (off : Nat) : HostOp := { whileBusy := true, access := .regRead .word off }

theorem hosted_legal (ops : List HostOp) : (hosted ops).legal := by
  refine ⟨rfl, ⟨rfl, by simp [hosted, start, State.reset], by simp [hosted, start, State.reset], by simp [hosted, start, State.reset]⟩, ?_,
    ⟨fun _ => treeAB_sound, fun h => by simp [hosted, treeAB] at h⟩, codesLegal_empty rfl, writerLegal_empty,
    by simp [readerLegal, hosted, start, State.reset], ?_⟩
  · exact countsLegal_set (x := 256) (countsLegal_set (x := 0x62) (countsLegal_set (x := 0x61) countsLegal_zero (by decide))
      (by decide)) (by decide)
  · show memoryWf (start [0x0D]).src ∧ memoryWf (start [0x0D]).dst
    decide +kernel

/-! Encoding. -/

theorem witness_decode_of_encode : (Instr.encSymbol 256).wellFormed = true ∧ (Instr.bwPutbit true).wellFormed = true := by decide
theorem witness_encode_of_decode : decode 0x01000016 = some (.ftWrite 256) := by decide
theorem witness_selected_row : decode 0x02000021 = some (.tbReadnode 512) := by decide

/-- One illegal word for each case, and the legal word at the bound of the last. -/
theorem witness_illegal_words :
    decode 0x00000002 = none ∧ decode 0x00000211 = none ∧ decode 0x04000000 = none ∧ decode 0x00000100 = none ∧
    decode 0x00010041 = none ∧ decode 0x01010015 = none ∧ decode 0x01000015 = some (.ftRead 256) := by decide
theorem witness_soft_reset_words : opField 0xFFFFFF01 = 0x01 ∧ opField 0x00000001 = 0x01 := by decide

/-! Steps. -/

theorem witness_step_runs :
    (hosted [cmd 0x00000015]).host.bus =
      { whileBusy := false, access := .regWrite .word ((hosted [cmd 0x00000015]).par.regBase + 0x08) 0x00000015 } ::
        [{ whileBusy := false, access := .regRead .word 0x0C }] ∧
    (∀ op ∈ [({ whileBusy := false, access := .regRead .word 0x0C } : HostOp)].head?, op.whileBusy = false) ∧
    decode 0x00000015 = some (.ftRead 0) := ⟨rfl, by decide, by decide⟩
theorem witness_step_illegal :
    (hosted [cmd 2]).quiet ∧
    (hosted [cmd 2]).host.bus = { whileBusy := false, access := .regWrite .word ((hosted [cmd 2]).par.regBase + 0x08) 2 } ::
      [{ whileBusy := false, access := .regRead .word 0x0C }] ∧
    (∀ op ∈ [({ whileBusy := false, access := .regRead .word 0x0C } : HostOp)].head?, op.whileBusy = false) ∧
    decode 2 = none := ⟨rfl, rfl, by decide, by decide⟩

/-- For EveryCommandEnds, StepKeepsLegalStates, StepOfALegalStateDoesNotFault and StepKeepsTheParameters. -/
theorem witness_legal_step : (hosted []).legal ∧ ∃ t, step (hosted []) = .next t := ⟨hosted_legal [], _, rfl⟩

/-! Frames and errors: for each statement about `exec i s = .next t` from an idle core. -/

theorem witness_quiet_next : (start [1]).quiet ∧ ∃ t, exec .ftClear (start [1]) = .next t := ⟨rfl, _, rfl⟩

/-- A command that writes DST, and one that moves SRC_POS. -/
theorem witness_positions_move :
    (next? (exec .bwFlush { start [] with bw := { n := 3, buf := 5 } })).map (·.ports.dstPos) = some 1 ∧
    (next? (exec .ftAnalyze (start [1, 2]))).map (·.ports.srcPos) = some 2 := by decide +kernel

theorem witness_big_endian :
    ({ State.reset with par := { platformLE := false, regBase := 0 } }).quiet ∧ (Instr.encSymbol 256).wellFormed = true ∧
    ({ State.reset with par := { platformLE := false, regBase := 0 } }).par.platformLE = false ∧
    (Instr.encSymbol 256).opcode ≠ 0x00 ∧ (Instr.encSymbol 256).opcode ≠ 0x01 := by
  refine ⟨rfl, ?_⟩
  decide
theorem witness_little_endian : (start [1]).quiet ∧ (start [1]).littleEndian := ⟨rfl, rfl⟩

/-- An error and a success, for ErrShowsTheLastErrorAndStickyAnyError and CommandsRaiseOnlyTheirErrors. -/
theorem witness_error_codes :
    (next? (exec .decSymbol State.reset)).map (·.status.errCode) = some 8 ∧
    (next? (exec .ftClear State.reset)).map (·.status.errCode) = some 0 ∧ (Instr.softReset 5).opcode = 0x01 := by decide +kernel

theorem witness_nop_words : opField 0x00000100 = 0x00 ∧ (0x00000100 : Word) ≠ 0 := by decide
theorem witness_hardware_reset :
    (hosted [{ whileBusy := false, access := .hardReset }]).host.bus =
      { whileBusy := false, access := .hardReset } :: [{ whileBusy := false, access := .regRead .word 0x0C }] := rfl

/-- The reset input asserted while COMPRESS runs. -/
theorem witness_hardware_reset_busy :
    (hosted [cmd 0x31, { whileBusy := true, access := .hardReset }]).legal ∧
    (hosted [cmd 0x31, { whileBusy := true, access := .hardReset }]).host.bus =
      { whileBusy := false, access := .regWrite .word ((hosted []).par.regBase + 0x08) 0x31 } ::
      { whileBusy := true, access := .hardReset } :: [{ whileBusy := false, access := .regRead .word 0x0C }] ∧
    (∀ op ∈ [({ whileBusy := false, access := .regRead .word 0x0C } : HostOp)], op.whileBusy = false) :=
  ⟨hosted_legal _, rfl, by decide⟩

/-! Frequency table. -/

theorem witness_analyze :
    (start [1, 1, 2]).quiet ∧ (start [1, 1, 2]).littleEndian ∧
    ∀ x : Symbol, occurrences (sourceBytes (start [1, 1, 2])) x ≤ Config.maxCount := by
  refine ⟨rfl, rfl, ?_⟩
  intro x
  exact le_trans List.countP_le_length (by decide +kernel)

/-- A source of 2^31 - 1 zero bytes: SRC lists none, and an unlisted byte reads 0 (log entry 4). -/
def longZeros : State :=
  { State.reset with ports := { srcPos := 0, srcLen := 0x7FFFFFFF, dstPos := 0, dstCap := 0, dataIn := 0 } }

theorem longZeros_bytes : sourceBytes longZeros = List.replicate 0x7FFFFFFF 0 := by
  have h : sourceBytes longZeros = (List.range 0x7FFFFFFF).map fun _ => (0 : Byte) := rfl
  rw [h, List.map_const', List.length_range]

theorem witness_analyze_overflow :
    longZeros.quiet ∧ longZeros.littleEndian ∧ (sourceBytes longZeros)[0x7FFFFFFE]? = some 0 ∧
    (∀ x : Symbol, occurrences ((sourceBytes longZeros).take 0x7FFFFFFE) x ≤ Config.maxCount) ∧
    occurrences ((sourceBytes longZeros).take 0x7FFFFFFE) (byteSymbol 0) = Config.maxCount := by
  rw [longZeros_bytes, List.take_replicate]
  refine ⟨rfl, rfl, ?_, fun x => ?_, ?_⟩
  · rw [List.getElem?_replicate, if_pos (by norm_num)]
  · refine le_trans List.countP_le_length ?_
    rw [List.length_replicate]
    exact Nat.min_le_left _ _
  · rw [occurrences, List.countP_replicate]
    simp [byteSymbol, Config.maxCount]

/-- Both outcomes: a count that is not full and one that is. -/
theorem witness_add_terminator :
    (State.reset.counts[256]).toNat ≠ 0x7FFFFFFE ∧ ((table [(256, 0x7FFFFFFE)])[256]).toNat = 0x7FFFFFFE := by decide +kernel

/-- Both outcomes: a table of no counts needs 8 bytes. -/
theorem witness_serialize :
    countsLegal State.reset.counts ∧ (serializedTable State.reset.counts).length ≤
      room { State.reset with ports := { srcPos := 0, srcLen := 0, dstPos := 0, dstCap := 8, dataIn := 0 } } ∧
    ¬(serializedTable State.reset.counts).length ≤
      room { State.reset with ports := { srcPos := 0, srcLen := 0, dstPos := 0, dstCap := 7, dataIn := 0 } } := by
  have h : (serializedTable State.reset.counts).length = 8 := by decide +kernel
  rw [h]
  exact ⟨countsLegal_zero, by decide, by decide⟩

theorem witness_delimiter : countsLegal (Vector.replicate 257 (0x7FFFFFFE : Word)) := by
  intro x; simp [Config.maxCount]

/-- Both outcomes: a whole table, and one that is cut short. -/
theorem witness_deserialize :
    (start tableBytes).quiet ∧ (start tableBytes).littleEndian ∧
    (readTable (sourceBytes (start tableBytes))).1 = true ∧
    (readTable (sourceBytes (start (tableBytes.take 19)))).1 = false := by
  refine ⟨rfl, rfl, ?_⟩
  decide +kernel

/-- The table of no counts, written and put back before a byte AA. -/
theorem witness_table_round_trip :
    countsLegal (start []).counts ∧ 8 + 6 * (presentSymbols (start []).counts).length ≤ room (start []) ∧
    (next? (exec .ftSerialize (start []))).map (fun t =>
      decide (sourceBytes (start [1, 0, 0, 0, 1, 0, 0, 0, 0xAA]) = (List.range 8).map (fun k => memoryGet t.dst k) ++ [0xAA])) =
      some true := by
  have h : presentSymbols (start []).counts = [] := by simp [presentSymbols, start, State.reset]
  rw [h]
  exact ⟨countsLegal_zero, by decide, by decide +kernel⟩

/-- Both bounds of ARG, and of DATA_IN. -/
theorem witness_arguments :
    (256 : BitVec 10).toNat ≤ 256 ∧ ¬(257 : BitVec 10).toNat ≤ 256 ∧ 0x7FFFFFFE < (0x7FFFFFFF : Word).toNat ∧
    ¬0x7FFFFFFE < (0x7FFFFFFE : Word).toNat := by decide

/-! Tree builder. -/

/-- The table of no counts, and one of three. -/
theorem witness_tb_build :
    (∀ x : Symbol, State.reset.counts[x.val] = 0) ∧ (presentSymbols countsAB).length = 3 := by
  refine ⟨fun x => ?_, by decide +kernel⟩
  simp [State.reset]

/-- For TbBuildJoinsTheLeastWeights, RootWeightIsTheSumOfTheCounts and TbBuildDependsOnTheCountsAlone. -/
theorem witness_tb_build_weights :
    (hosted []).littleEndian ∧ countsLegal (hosted []).counts ∧ (∃ x : Symbol, (hosted []).counts[x.val] ≠ 0) ∧
    (next? (exec .tbBuild (hosted []))).map (·.tree.arena[3]?) = some (some (.internal 2 0 1)) :=
  ⟨rfl, (hosted_legal []).2.2.1, ⟨256, by decide +kernel⟩, by decide +kernel⟩

/-- The three clauses: no tree, the first index past the tree, and the last of the tree. -/
theorem witness_tb_readnode :
    treeLegal State.reset.tree ∧ State.reset.tree.valid = false ∧ treeLegal treeAB ∧ treeAB.valid = true ∧
    treeAB.nodeCount.toNat ≤ (5 : BitVec 10).toNat ∧ (4 : BitVec 10).toNat < treeAB.nodeCount.toNat :=
  ⟨treeLegal_none, rfl, ⟨fun _ => treeAB_sound, fun h => by simp [treeAB] at h⟩, rfl, by decide, by decide⟩

/-! Codes. -/

theorem witness_ct_build : State.reset.tree.valid = false ∧ treeAB.valid = true ∧ treeSound treeAB := ⟨rfl, rfl, treeAB_sound⟩
theorem witness_prefix_free : (hosted []).littleEndian ∧ ∃ x : Symbol, (hosted []).counts[x.val] ≠ 0 :=
  ⟨rfl, 256, by decide +kernel⟩
theorem witness_ct_read : State.reset.codes.valid = false ∧ codesAB.valid = true := by decide

/-! Bit writer and bit reader. -/

/-- A writer of six bits, and one of seven with and without room. -/
theorem witness_putbit :
    writerLegal { n := 6, buf := 0x3F } ∧ writerLegal { n := 7, buf := 0x7F } ∧ (6 : BitVec 3).toNat < 7 ∧ ¬(7 : BitVec 3).toNat < 7 ∧
    0 < room (start []) ∧ ¬0 < room State.reset := by
  refine ⟨by simp [writerLegal], by simp [writerLegal], by decide, by decide, by decide, by decide⟩

theorem witness_flush :
    bufferedBits { n := 0, buf := 0 } = [] ∧ bufferedBits { n := 7, buf := 0x7F } ≠ [] := by decide

theorem witness_writer_boundaries :
    (start []).quiet ∧ (start []).littleEndian ∧ (start []).bw = { n := 0, buf := 0 } ∧ 0 < room (start []) ∧
    [true, false, true, false, false, true, false, true].length ≤ 8 := by
  exact ⟨rfl, rfl, rfl, by decide, by decide⟩

/-- The reader at its end, and with a bit. -/
theorem witness_getbit :
    readerLegal (start []).br ∧ readerBits (start []) = [] ∧ readerLegal (start [0xA5]).br ∧
    readerBits (start [0xA5]) = true :: [false, true, false, false, true, false, true] := by
  refine ⟨by simp [readerLegal, start, State.reset], by decide, by simp [readerLegal, start, State.reset], by decide +kernel⟩

/-- The bits 1, 0, 1 written and flushed are the byte 05, placed in the source of a new reader. -/
theorem witness_write_and_read :
    ([true, false, true].length + 7) / 8 ≤ room (start []) ∧ (start [5]).br = { rem := 0, cur := 0 } ∧
    (runAll ([true, false, true].map .bwPutbit ++ [.bwFlush]) (start [])).map (fun t =>
      decide (sourceBytes (start [5]) = (List.range 1).map (fun k => memoryGet t.dst (0 + k)))) = some true := by
  decide +kernel

/-! Compress and decompress. -/

/-- The outcomes of ENC_SYMBOL: no such symbol, no code, a code that fits the sink and one that does not. -/
theorem witness_enc_symbol :
    writerLegal (stateAB []).bw ∧ ¬(257 : BitVec 10).toNat ≤ 256 ∧ codesAB.entries[0x63].present = false ∧
    codesAB.entries[256].present = true ∧ codesAB.valid = true ∧
    (bufferedBits { n := 7, buf := 0 } ++ codeBitList codesAB.entries[256]).length / 8 ≤ room (start []) ∧
    ¬(bufferedBits { n := 7, buf := 0 } ++ codeBitList codesAB.entries[256]).length / 8 ≤ room State.reset := by
  refine ⟨writerLegal_empty, by decide, by decide +kernel, by decide +kernel, rfl, by decide +kernel, by decide +kernel⟩

/-- For CompressWritesTheHuffStream and DecompressUndoesCompress: the empty source, and its stream in a source. -/
theorem witness_compress :
    pastEnd.quiet ∧ pastEnd.littleEndian ∧ (∀ x : Symbol, occurrences (sourceBytes pastEnd) x ≤ Config.maxCount) ∧
    sourceBytes (start [2, 0, 0, 0, 1, 0, 0, 0, 0, 1, 2, 0, 0, 0]) = huffStream (sourceBytes pastEnd) ∧
    (huffStream (sourceBytes pastEnd)).length ≤ room pastEnd := by
  have h : sourceBytes (start [2, 0, 0, 0, 1, 0, 0, 0, 0, 1, 2, 0, 0, 0]) = huffStream (sourceBytes pastEnd) := by decide +kernel
  refine ⟨rfl, rfl, fun x => le_trans List.countP_le_length (by decide), h, ?_⟩
  rw [← h]
  decide +kernel

/-- The clauses of CompressEndsWhereItFails: a count that overflows (`longZeros`), a table that does not fit the sink, and the one byte
after it that does not. -/
theorem witness_compress_fails :
    (longZeros.quiet ∧ longZeros.littleEndian ∧ (sourceBytes longZeros)[0x7FFFFFFE]? = some 0 ∧
      (∀ x : Symbol, occurrences ((sourceBytes longZeros).take 0x7FFFFFFE) x ≤ Config.maxCount) ∧
      occurrences ((sourceBytes longZeros).take 0x7FFFFFFE) (byteSymbol 0) = Config.maxCount) ∧
    (∀ x : Symbol, occurrences (sourceBytes (start [0x61, 0x62])) x ≤ Config.maxCount) ∧
    (let counts := compressTable (sourceBytes (start [0x61, 0x62]))
     let stream := huffStream (sourceBytes (start [0x61, 0x62]))
     25 < (serializedTable counts).length ∧ (serializedTable counts).length ≤ 26 ∧ 26 < stream.length) ∧
    room { start [0x61, 0x62] with ports := { srcPos := 0, srcLen := 2, dstPos := 0, dstCap := 25, dataIn := 0 } } = 25 ∧
    room { start [0x61, 0x62] with ports := { srcPos := 0, srcLen := 2, dstPos := 0, dstCap := 26, dataIn := 0 } } = 26 := by
  refine ⟨witness_analyze_overflow, fun x => le_trans List.countP_le_length (by decide +kernel), by decide +kernel, rfl, rfl⟩

/-- The clauses of DecompressDecodesUntilItEnds: the stream of `ab`, its table with eight ones after it, which are four times the code of
`b`, and a sink of one byte. -/
theorem witness_decompress_ends :
    (let counts := (readTable (sourceBytes (start streamAB))).2.1
     let bits := ((sourceBytes (start streamAB)).drop (readTable (sourceBytes (start streamAB))).2.2).flatMap byteBits
     (readTable (sourceBytes (start streamAB))).1 = true ∧ counts[256] ≠ 0 ∧ counts[0x61] ≠ 0 ∧ counts[0x62] ≠ 0 ∧
     bits = [0x61, 0x62].flatMap (fun b => codeIn counts (byteSymbol b)) ++ codeIn counts terminator ++ [false, false, false] ∧
     bits = [0x61].flatMap (fun b => codeIn counts (byteSymbol b)) ++ codeIn counts (byteSymbol 0x62) ++ [false, false, false, false]) ∧
    room { start streamAB with ports := { srcPos := 0, srcLen := 27, dstPos := 0, dstCap := 1, dataIn := 0 } } = 1 ∧
    (let source := sourceBytes (start (streamAB.take 26 ++ [0xFF]))
     let counts := (readTable source).2.1
     (source.drop (readTable source).2.2).flatMap byteBits =
       [0x62, 0x62, 0x62, 0x62].flatMap (fun b => codeIn counts (byteSymbol b)) ++ [] ∧
     nodeOnPath (treeOver (leavesOf counts)).arena (treeOver (leavesOf counts)).root [] = some (.internal 3 2 3)) := by
  refine ⟨?_, rfl, ?_⟩
  · decide +kernel
  · decide +kernel

/-- The clauses of DEC_SYMBOL: no tree, the terminator alone, a data symbol alone, a path to a leaf, and bits that end first. -/
theorem witness_dec_symbol :
    State.reset.tree.valid = false ∧
    nodeOnPath (treeOver [.leaf 1 256]).arena (treeOver [.leaf 1 256]).root [] = some (.leaf 1 terminator) ∧
    nodeOnPath (treeOver [.leaf 3 0x61]).arena (treeOver [.leaf 3 0x61]).root [] = some (.leaf 3 0x61) ∧
    nodeOnPath treeAB.arena treeAB.root [true, false] = some (.leaf 1 0x61) ∧
    readerBits (stateAB [0x0D]) = [true, false] ++ [true, true, false, false, false, false] ∧
    nodeOnPath treeAB.arena treeAB.root (readerBits (stateAB [])) = some (.internal 3 2 3) := by
  decide +kernel

/-- The trees of those clauses are sound. -/
theorem witness_dec_symbol_trees :
    treeSound treeAB ∧ treeSound (treeOver [.leaf 1 256]) ∧ treeSound (treeOver [.leaf 3 0x61]) := by
  refine ⟨treeAB_sound, ⟨[.leaf 1 256], [], ?_⟩, ⟨[.leaf 3 0x61], [], ?_⟩⟩
  all_goals
    refine ⟨rfl, rfl, by decide, by simp [Node.isLeaf, nodeWeight], List.pairwise_singleton _ _, by simp, rfl, rfl, ?_, by simp [treeOver, joinLoop, takeLeast, leastOf, Node.children]⟩
    intro i w l r h
    rcases i with _ | i <;> simp [treeOver, joinLoop, takeLeast, leastOf] at h

/-- A table that is cut short, and one without the terminator. -/
theorem witness_bad_table :
    (readTable (sourceBytes (start (tableBytes.take 19)))).1 = false ∧
    (readTable (sourceBytes (start tableBytes))).2.1[256] = 0 := by decide +kernel

/-! Memories and the host. -/

theorem witness_undisturbed : (start [1]).undisturbed := ⟨rfl, rfl⟩

theorem witness_host_read :
    (hosted []).host.bus = { whileBusy := false, access := .regRead .word ((hosted []).par.regBase + 0x0C) } :: [] := rfl
/-- The edges of the last two ranges: the last CODE_BITS register, the first reserved offset and the last. -/
theorem witness_host_read_edges :
    (hosted [{ whileBusy := false, access := .regRead .word 0x5C }]).host.bus =
      { whileBusy := false, access := .regRead .word ((hosted []).par.regBase + (0x40 + 4 * (7 : Fin 8).val)) } ::
        [{ whileBusy := false, access := .regRead .word 0x0C }] ∧
    (hosted [{ whileBusy := false, access := .regRead .word 0x60 }]).host.bus =
      { whileBusy := false, access := .regRead .word ((hosted []).par.regBase + 0x60) } ::
        [{ whileBusy := false, access := .regRead .word 0x0C }] ∧ (0x5C < 0x60 ∧ 0x5C % 4 = 0 ∧ 0xFC < 256 ∧ 0xFC % 4 = 0) :=
  ⟨rfl, rfl, by decide⟩
theorem witness_host_write :
    (hosted [{ whileBusy := false, access := .regWrite .word 0x3C 2 }]).host.bus =
      { whileBusy := false, access := .regWrite .word ((hosted []).par.regBase + 0x3C) 2 } ::
        [{ whileBusy := false, access := .regRead .word 0x0C }] := rfl
theorem witness_odd_access :
    (hosted [{ whileBusy := false, access := .regRead .half 0xFE }]).host.bus =
      { whileBusy := false, access := .regRead .half ((hosted []).par.regBase + 0xFE) } ::
        [{ whileBusy := false, access := .regRead .word 0x0C }] ∧
    (hosted [{ whileBusy := false, access := .regWrite .word 0x0D 0 }]).host.bus =
      { whileBusy := false, access := .regWrite .word ((hosted []).par.regBase + 0x0D) 0 } ::
        [{ whileBusy := false, access := .regRead .word 0x0C }] ∧ AccessSize.half ≠ .word ∧ 0x0D % 4 ≠ 0 :=
  ⟨rfl, rfl, by decide, by decide⟩
theorem witness_acknowledge : (2 : Word).getLsbD 1 = true ∧
    ∃ t, step (hosted [{ whileBusy := false, access := .regWrite .word 0x3C 2 }]) = .next t := ⟨by decide, _, rfl⟩

/-- A register write that falls while COMPRESS runs, after a read and before a SOFT_RESET word; and the word of a CMD write that may. -/
theorem witness_busy_write :
    (hosted [cmd 0x31, busyRead 0x0C, busyWrite 0x10 7, busyWrite 0x08 1]).quiet ∧
    (hosted [cmd 0x31, busyRead 0x0C, busyWrite 0x10 7, busyWrite 0x08 1]).host.bus =
      { whileBusy := false, access := .regWrite .word ((hosted []).par.regBase + 0x08) 0x31 } ::
      ([busyRead 0x0C] ++ { whileBusy := true, access := .regWrite .word ((hosted []).par.regBase + 0x10) 7 } ::
        [busyWrite 0x08 1, { whileBusy := false, access := .regRead .word 0x0C }]) ∧
    (∀ op ∈ [busyRead 0x0C], op.whileBusy = true ∧ op.access ≠ .hardReset) ∧ opField 0 ≠ 0x01 := ⟨rfl, rfl, by decide, by decide⟩

/-- A read of STATUS while FT_CLEAR runs; the step without it. -/
theorem witness_busy_read :
    (hosted [cmd 0x10, busyRead 0x0C]).quiet ∧
    (hosted [cmd 0x10, busyRead 0x0C]).host.bus =
      { whileBusy := false, access := .regWrite .word ((hosted []).par.regBase + 0x08) 0x10 } ::
      { whileBusy := true, access := .regRead .word ((hosted []).par.regBase + 0x0C) } ::
        [{ whileBusy := false, access := .regRead .word 0x0C }] ∧
    (∀ op ∈ [({ whileBusy := false, access := .regRead .word 0x0C } : HostOp)], op.whileBusy = false) ∧
    (∃ t, step (hosted [cmd 0x10]) = .next t) ∧ opField 0x10 ≠ 0x01 := ⟨rfl, rfl, by decide, ⟨_, rfl⟩, by decide⟩

/-- A read of STATUS while a SOFT_RESET runs that has stopped COMPRESS. -/
theorem witness_stopped_read :
    (hosted [cmd 0x31, busyWrite 0x08 0x01, busyRead 0x0C]).legal ∧ opField 0x01 = 0x01 ∧
    (hosted [cmd 0x31, busyWrite 0x08 0x01, busyRead 0x0C]).host.bus =
      { whileBusy := false, access := .regWrite .word ((hosted []).par.regBase + 0x08) 0x31 } ::
      { whileBusy := true, access := .regWrite .word ((hosted []).par.regBase + 0x08) 0x01 } ::
      { whileBusy := true, access := .regRead .word ((hosted []).par.regBase + 0x0C) } ::
        [{ whileBusy := false, access := .regRead .word 0x0C }] := ⟨hosted_legal _, by decide, rfl⟩

/-- Two reads of STATUS while SOFT_RESET runs, and one before and one after another SOFT_RESET word stops it. -/
theorem witness_busy_reads :
    (hosted [cmd 0x01, busyRead 0x0C, busyRead 0x0C]).quiet ∧
    (hosted [cmd 0x01, busyRead 0x0C, busyRead 0x0C]).host.bus =
      { whileBusy := false, access := .regWrite .word ((hosted []).par.regBase + 0x08) 0x01 } ::
      { whileBusy := true, access := .regRead .word ((hosted []).par.regBase + 0x0C) } ::
      { whileBusy := true, access := .regRead .word ((hosted []).par.regBase + 0x0C) } ::
        [{ whileBusy := false, access := .regRead .word 0x0C }] ∧
    (∃ t, step (hosted [cmd 0x01]) = .next t) ∧
    (hosted [cmd 0x01, busyRead 0x0C, busyWrite 0x08 0x01, busyRead 0x0C]).legal ∧
    (hosted [cmd 0x01, busyRead 0x0C, busyWrite 0x08 0x01, busyRead 0x0C]).host.bus =
      { whileBusy := false, access := .regWrite .word ((hosted []).par.regBase + 0x08) 0x01 } ::
      { whileBusy := true, access := .regRead .word ((hosted []).par.regBase + 0x0C) } ::
      { whileBusy := true, access := .regWrite .word ((hosted []).par.regBase + 0x08) 0x01 } ::
      { whileBusy := true, access := .regRead .word ((hosted []).par.regBase + 0x0C) } ::
        [{ whileBusy := false, access := .regRead .word 0x0C }] := ⟨rfl, rfl, ⟨_, rfl⟩, hosted_legal _, rfl⟩

/-- The races: a source byte raced with two writes, and a write of SRC, a write of DST and a read of DST while FT_CLEAR runs. -/
theorem witness_races :
    ({ start [1] with seq := { Sequencer.idle with races := [(0, 2), (0, 3)] } }).seq.stopAt = none ∧
    (hosted [cmd 0x10, { whileBusy := true, access := .srcWrite 0 2 }]).legal ∧
    (hosted [cmd 0x10, { whileBusy := true, access := .srcWrite 0 2 }]).host.bus =
      { whileBusy := false, access := .regWrite .word ((hosted []).par.regBase + 0x08) 0x10 } ::
      { whileBusy := true, access := .srcWrite 0 2 } :: [{ whileBusy := false, access := .regRead .word 0x0C }] ∧
    (hosted [cmd 0x10, { whileBusy := true, access := .dstWrite 0 2 }]).host.bus =
      { whileBusy := false, access := .regWrite .word ((hosted []).par.regBase + 0x08) 0x10 } ::
      { whileBusy := true, access := .dstWrite 0 2 } :: [{ whileBusy := false, access := .regRead .word 0x0C }] ∧
    (hosted [cmd 0x10, { whileBusy := true, access := .dstRead 0 }]).host.bus =
      { whileBusy := false, access := .regWrite .word ((hosted []).par.regBase + 0x08) 0x10 } ::
      { whileBusy := true, access := .dstRead 0 } :: [{ whileBusy := false, access := .regRead .word 0x0C }] :=
  ⟨rfl, hosted_legal _, rfl, rfl, rfl⟩
theorem witness_stopped_command :
    (hosted [cmd 0x31, busyWrite 0x08 0x01]).legal ∧ opField 0x01 = 0x01 ∧
    (hosted [cmd 0x31, busyWrite 0x08 0x01]).host.bus =
      { whileBusy := false, access := .regWrite .word ((hosted []).par.regBase + 0x08) 0x31 } ::
      { whileBusy := true, access := .regWrite .word ((hosted []).par.regBase + 0x08) 0x01 } ::
        [{ whileBusy := false, access := .regRead .word 0x0C }] ∧
    (∀ op ∈ [({ whileBusy := false, access := .regRead .word 0x0C } : HostOp)], op.whileBusy = false) :=
  ⟨hosted_legal _, by decide, rfl, by decide⟩

end Sys2Proof.Tests
end

section
/-! The parameters PLATFORM_LE and REG_BASE, which no command and no host access changes (00_scope.md R6, 20_memory.md R71). -/

namespace Sys2Proof.Machine

/-- Every piece of every body keeps the parameters, whether or not it is stopped or faults. -/
theorem par_keepsAll (p : Params) : KeepsAll (fun t => t.par = p) True True where
  hidden := ⟨fun _ _ h => h, fun _ _ _ h => h, fun _ _ => Or.inl trivial⟩
  walk := fun _ _ h => h
  srcPos := fun _ _ h => h
  sink := fun _ _ _ h => h
  writer := fun _ _ _ h => h
  reader := fun _ _ _ h => h
  counts := fun _ _ _ h => h
  results := fun _ _ h => h
  newTree := fun _ _ _ h => h
  newCodes := fun _ _ _ _ h => h
  softReset := fun _ h => h
  sound := Or.inl trivial

theorem runWord_par {w : Word} {s t : State} (ht : runWord w s = .next t) : t.par = s.par := by
  have h := runWord_meets (par_keepsAll s.par) w (fun _ => rfl) ((par_keepsAll s.par).compress (fun _ h => h) rfl)
  rw [ht] at h
  rcases h with ⟨u, hu, rfl | ⟨e, rfl⟩⟩ | ⟨-, hu⟩ <;> exact hu

/-! ### Host accesses while a command runs -/

@[simp] theorem drawn_par (s : State) : (drawn s).par = s.par := rfl

@[simp] theorem logRead_par (s : State) (v : Word) : (logRead s v).par = s.par := rfl

@[simp] theorem hardReset_par (s : State) : (hardReset s).par = s.par := rfl

@[simp] theorem requeue_par (rest : List HostAccess) (s : State) : (requeue rest s).par = s.par := rfl

@[simp] theorem armed_par (during : List HostAccess) (stop : Bool) (s : State) : (armed during stop s).par = s.par := by
  cases stop <;> rfl

@[simp] theorem busyRead_par (op : BitVec 8) (start : State) (off : Nat) (s : State) : (busyRead op start off s).par = s.par := by
  unfold busyRead
  split <;> rfl

@[simp] theorem settleAccess_par (op : BitVec 8) (start : State) (a : HostAccess) (old : List Host.Cell) (s : State) :
    (settleAccess op start a old s).2.par = s.par := by
  cases a with
  | regRead size addr =>
    simp only [settleAccess]
    cases windowOffset start.par size addr with
    | ok off => exact busyRead_par ..
    | error r => rfl
  | dstWrite addr v => simp only [settleAccess]; split_ifs <;> rfl
  | regWrite | srcWrite | srcRead | dstRead | hardReset => rfl

@[simp] theorem settleAll_par (op : BitVec 8) (start : State) (during : List HostAccess) (old : List Host.Cell) (s : State) :
    (settleAll op start during old s).par = s.par := by
  induction during generalizing old s with
  | nil => rfl
  | cons a rest ih => rw [settleAll, ih, settleAccess_par]

/-- A command with host accesses falling while it runs leaves a state only by leaving one to settle these accesses on. -/
theorem runBusy_next {w : Word} {during : List HostAccess} {stop : Bool} {s t : State}
    (ht : runBusy w during stop s = .next t) :
    ∃ u, runWord w (armed during stop s) = .next u ∧
      t = (settleAll (opField w) s during s.dst u).setSeq Sequencer.idle := by
  unfold runBusy at ht
  split at ht
  · cases ht
  · split at ht
    next u hu => exact ⟨u, hu, by cases ht; rfl⟩
    all_goals cases ht

theorem runBusy_par {w : Word} {during : List HostAccess} {stop : Bool} {s t : State}
    (ht : runBusy w during stop s = .next t) : t.par = s.par := by
  obtain ⟨u, hu, rfl⟩ := runBusy_next ht
  simp [runWord_par hu]

/-- By induction on the accesses still to fall: a SOFT_RESET word or a hardware reset stops the command, and what follows starts from
the state that the stopped command left (70_reset_and_hazards.md R340, R351). -/
theorem overlapped_par {w : Word} {before during : List HostAccess} {s t : State}
    (ht : overlapped w before during s = .next t) : t.par = s.par := by
  induction during generalizing w before s with
  | nil => exact runBusy_par ht
  | cons a rest ih =>
    unfold overlapped at ht
    split at ht
    · split at ht
      next u hu => exact (ih ht).trans (runBusy_par hu)
      all_goals cases ht
    · split_ifs at ht
      · split at ht
        next u hu => cases ht; simp [runBusy_par hu]
        all_goals cases ht
      · exact ih ht

/-! ### Host accesses of an idle core -/

theorem startCommand_par {w : Word} {s t : State} (ht : startCommand w s = .next t) : t.par = s.par := by
  unfold startCommand at ht
  split at ht
  · exact runWord_par ht
  · exact (overlapped_par ht).trans (State.setHost_par ..)

@[simp] theorem writeRegister_par (s : State) (off : Nat) (v : Word) : (writeRegister s off v).par = s.par := by
  unfold writeRegister
  split <;> rfl

theorem serve_par {a : HostAccess} {s t : State} (ht : serve a s = .next t) : t.par = s.par := by
  cases a with
  | regWrite size addr v =>
    simp only [serve] at ht
    cases hw : windowOffset s.par size addr with
    | ok off =>
      simp only [hw] at ht
      split_ifs at ht
      · exact startCommand_par ht
      · cases ht; simp
    | error r => simp [hw] at ht
  | regRead size addr =>
    simp only [serve] at ht
    cases hw : windowOffset s.par size addr with
    | ok off => simp only [hw] at ht; cases ht; rfl
    | error r => simp [hw] at ht
  | srcWrite | srcRead | dstWrite | dstRead | hardReset => cases ht; rfl

/-- Settles O13: no command changes the parameters (`par_keepsAll`), and no host access does, while a command runs or not. -/
theorem stepKeepsTheParameters : Obligations.StepKeepsTheParameters := by
  intro s t ht
  unfold step nextAccess at ht
  split at ht
  · cases ht; rfl
  · exact (serve_par ht).trans (State.setHost_par ..)

end Sys2Proof.Machine
end

section
/-! What no body of a command changes, and how the outcome of a command follows from what its body keeps. -/

namespace Sys2Proof.Machine

variable {P Q : State → Prop} {S F : Prop} {s t : State}

/-- What keeps two predicates keeps both at once, and is stopped, or faults, only where each of them allows it. -/
theorem KeepsAll.and {S' F' : Prop} (k : KeepsAll P S F) (l : KeepsAll Q S' F') :
    KeepsAll (fun t => P t ∧ Q t) (S ∧ S') (F ∧ F') where
  hidden :=
    ⟨fun t n h => ⟨k.hidden.beat t n h.1, l.hidden.beat t n h.2⟩,
      fun t n hr h => ⟨k.hidden.draws t n hr h.1, l.hidden.draws t n hr h.2⟩,
      fun t h => (k.hidden.stop t h.1).elim (fun hs => (l.hidden.stop t h.2).imp (⟨hs, ·⟩) id) Or.inr⟩
  walk := fun t i h => ⟨k.walk t i h.1, l.walk t i h.2⟩
  srcPos := fun t hx h => ⟨k.srcPos t hx h.1, l.srcPos t hx h.2⟩
  sink := fun t v hr h => ⟨k.sink t v hr h.1, l.sink t v hr h.2⟩
  writer := fun t w hw h => ⟨k.writer t w hw h.1, l.writer t w hw h.2⟩
  reader := fun t r hr h => ⟨k.reader t r hr h.1, l.reader t r hr h.2⟩
  counts := fun t c hc h => ⟨k.counts t c hc h.1, l.counts t c hc h.2⟩
  results := fun t r h => ⟨k.results t r h.1, l.results t r h.2⟩
  newTree := fun t x hx h => ⟨k.newTree t x hx h.1, l.newTree t x hx h.2⟩
  newCodes := fun t e hv he h => ⟨k.newCodes t e hv he h.1, l.newCodes t e hv he h.2⟩
  softReset := fun t h => ⟨k.softReset t h.1, l.softReset t h.2⟩
  sound := k.sound.elim (fun hf => l.sound.imp (⟨hf, ·⟩) fun hs t h => hs t h.2) fun hs => Or.inr fun t h => hs t h.1

/-- `t` is a state while a command runs that started at `s`: what is as before in every body, STATUS showing no error (10_state.md R29 to
R31, R41, 20_memory.md R60, 47_control.md R271). -/
structure Underway (s t : State) : Prop where
  par : t.par = s.par
  src : t.src = s.src
  srcLen : t.ports.srcLen = s.ports.srcLen
  dstCap : t.ports.dstCap = s.ports.dstCap
  dataIn : t.ports.dataIn = s.ports.dataIn
  irq : t.irq = s.irq
  err : t.status.err = false
  errCode : t.status.errCode = 0
  stopAt : t.seq.stopAt = s.seq.stopAt
  races : t.seq.races = s.seq.races
  bus : t.host.bus = s.host.bus
  readLog : t.host.readLog = s.host.readLog
  draws : s.seq.races = [] → t.host.draws = s.host.draws

theorem Underway.start (op : BitVec 8) : Underway s (startSteps op s) :=
  ⟨rfl, rfl, rfl, rfl, rfl, rfl, rfl, rfl, rfl, rfl, rfl, rfl, fun _ => rfl⟩

/-- The command can be stopped only if it was to be stopped when it started. -/
theorem Underway.stop (h : Underway s t) : s.seq.stopAt ≠ none ∨ t.seq.stopAt = none :=
  (ne_or_eq s.seq.stopAt none).imp id h.stopAt.trans

theorem underway_keepsAll (s : State) : KeepsAll (Underway s) (s.seq.stopAt ≠ none) True where
  hidden := ⟨fun _ _ h => { h with }, fun _ _ hr h => { h with draws := fun hs => absurd (h.races.trans hs) hr }, fun _ h => h.stop⟩
  walk := fun _ _ h => { h with }
  srcPos := fun _ _ h => { h with }
  sink := fun _ _ _ h => { h with }
  writer := fun _ _ _ h => { h with }
  reader := fun _ _ _ h => { h with }
  counts := fun _ _ _ h => { h with }
  results := fun _ _ h => { h with }
  newTree := fun _ _ _ h => { h with }
  newCodes := fun _ _ _ _ h => { h with }
  softReset := fun _ h => { h with }
  sound := Or.inl trivial

/-- What a command leaves, from what its body leaves. -/
theorem outcomeMeets.answers {o : Host.Outcome State Fault Refusal} (h : outcomeMeets P S F o) (hF : ¬F)
    (hok : ∀ u, P u → Q (endSteps u)) (herr : ∀ u e, P u → Q (errorEnd e u)) (hstop : S → ∀ u, P u → Q u) :
    answers o Q := by
  cases o with
  | next t =>
    refine ⟨t, rfl, ?_⟩
    obtain ⟨u, hu, rfl | ⟨e, rfl⟩⟩ | ⟨hs, ht⟩ := h
    · exact hok u hu
    · exact herr u e hu
    · exact hstop hs t ht
  | fault f => exact absurd h hF
  | refused r => exact h.elim

end Sys2Proof.Machine
end

section
/-! Every step of a legal machine leaves a legal one, and none ends in a fault (10_state.md R28, R33, R36 to R39). -/

namespace Sys2Proof.Machine

variable {P Q : State → Prop} {s : State}

/-! ### A command word -/

theorem statusLegal_ended {x : Status} (he : x.err = false) (hc : x.errCode = 0) : statusLegal (statusEnded x) := by
  simp [statusLegal, statusEnded, he, hc]

theorem statusLegal_errored (x : Status) (e : ErrorKind) : statusLegal (statusErrored x e) := by
  cases e <;> simp [statusLegal, statusErrored, ErrorKind.code]

/-- A command that no access stops leaves a legal state, whatever STATUS was at its start: a stopped command leaves it busy. -/
theorem runWord_legal (w : Word) (h : s.bodyLegal) (hn : s.seq.stopAt = none) : answers (runWord w s) State.legal := by
  have k := bodyLegal_keepsAll.and (underway_keepsAll s)
  refine (runWord_meets k w (fun op => ⟨h, .start op⟩)
    (k.compress (fun _ ht => ⟨ht.1, { ht.2 with }⟩) ⟨h, { Underway.start 0x31 with }⟩)).answers (fun hf => hf.1) ?_ ?_
    fun hs => absurd hn hs.2
  · exact fun u ⟨hu, hv⟩ => ⟨rfl, statusLegal_ended hv.err hv.errCode, hu⟩
  · exact fun u e ⟨hu, _⟩ => ⟨rfl, statusLegal_errored u.status e, hu⟩

/-- A command that may be stopped at any beat leaves legal tables, buffers and memories. -/
theorem runWord_bodyLegal (w : Word) (h : s.bodyLegal) : answers (runWord w s) State.bodyLegal :=
  (runWord_meets bodyLegal_keepsAll w (fun _ => h) (bodyLegal_keepsAll.compress (fun _ h => h) h)).answers id
    (fun _ h => h) (fun _ _ h => h) fun _ _ h => h

/-! ### Host accesses while a command runs -/

theorem setSrc_bodyLegal {a : Word} {v : Byte} (h : s.bodyLegal) : (s.setSrc (memoryPut s.src a.toNat v)).bodyLegal := by
  obtain ⟨hc, ht, hk, hw, hr, hs, hd⟩ := h
  exact ⟨hc, ht, hk, hw, hr, memoryPut_wf a v hs, hd⟩

theorem setDst_bodyLegal {a : Word} {v : Byte} (h : s.bodyLegal) : (s.setDst (memoryPut s.dst a.toNat v)).bodyLegal := by
  obtain ⟨hc, ht, hk, hw, hr, hs, hd⟩ := h
  exact ⟨hc, ht, hk, hw, hr, hs, memoryPut_wf a v hd⟩

/-- What a host access leaves that falls while a command runs: the host's side, and the memories in canonical form. -/
theorem settleAccess_bodyLegal (op : BitVec 8) (start : State) (a : HostAccess) (old : List Host.Cell) (h : s.bodyLegal) :
    (settleAccess op start a old s).2.bodyLegal := by
  cases a with
  | srcWrite addr v => exact setSrc_bodyLegal h
  | dstWrite addr v =>
    simp only [settleAccess]
    split_ifs
    · exact h
    · exact setDst_bodyLegal (s := drawn s) h
  | regRead size addr =>
    simp only [settleAccess]
    cases windowOffset start.par size addr with
    | ok off => simp only [busyRead]; split <;> exact h
    | error r => exact h
  | regWrite | srcRead | dstRead | hardReset => exact h

theorem settleAccess_status_eq (op : BitVec 8) (start : State) (a : HostAccess) (old : List Host.Cell) (s : State) :
    (settleAccess op start a old s).2.status = s.status := by
  cases a with
  | dstWrite addr v => simp only [settleAccess]; split_ifs <;> rfl
  | regRead size addr =>
    simp only [settleAccess]
    cases windowOffset start.par size addr with
    | ok off => simp only [busyRead]; split <;> rfl
    | error r => rfl
  | regWrite | srcWrite | srcRead | dstRead | hardReset => rfl

theorem settleAll_bodyLegal (op : BitVec 8) (start : State) (during : List HostAccess) (old : List Host.Cell)
    (h : s.bodyLegal) : (settleAll op start during old s).bodyLegal := by
  induction during generalizing old s with
  | nil => exact h
  | cons a rest ih => exact ih _ (settleAccess_bodyLegal op start a old h)

theorem settleAll_status_eq (op : BitVec 8) (start : State) (during : List HostAccess) (old : List Host.Cell) (s : State) :
    (settleAll op start during old s).status = s.status := by
  induction during generalizing old s with
  | nil => rfl
  | cons a rest ih => rw [settleAll, ih, settleAccess_status_eq]

/-- A command with accesses falling while it runs that the model does not refuse, from the command alone. -/
theorem runBusy_answers {w : Word} {during : List HostAccess} {stop : Bool}
    (hd : during.findSome? (busyRefusal s.par) = none) (h : answers (runWord w (armed during stop s)) P)
    (hQ : ∀ t, P t → Q ((settleAll (opField w) s during s.dst t).setSeq Sequencer.idle)) :
    answers (runBusy w during stop s) Q := by
  obtain ⟨t, ht, hp⟩ := h
  exact ⟨_, by simp only [runBusy, hd, ht], hQ t hp⟩

/-- An outcome that is no fault, and if it is a next state, one of which `P` holds. -/
def outcomeLeaves (P : State → Prop) : Host.Outcome State Fault Refusal → Prop
  | .next t => P t
  | .fault _ => False
  | .refused _ => True

theorem answers.leaves {o : Host.Outcome State Fault Refusal} (h : answers o P) : outcomeLeaves P o := by
  obtain ⟨t, rfl, ht⟩ := h
  exact ht

theorem runBusy_leaves {w : Word} {during : List HostAccess} {stop : Bool}
    (h : answers (runWord w (armed during stop s)) P)
    (hQ : ∀ t, P t → Q ((settleAll (opField w) s during s.dst t).setSeq Sequencer.idle)) :
    outcomeLeaves Q (runBusy w during stop s) := by
  cases hd : during.findSome? (busyRefusal s.par) with
  | some r => simp only [runBusy, hd, outcomeLeaves]
  | none => exact (runBusy_answers hd h hQ).leaves

theorem armed_bodyLegal (during : List HostAccess) (stop : Bool) (h : s.bodyLegal) : (armed during stop s).bodyLegal := by
  cases stop <;> exact h

theorem runBusy_legal (w : Word) (during : List HostAccess) (h : s.bodyLegal) :
    outcomeLeaves State.legal (runBusy w during false s) :=
  runBusy_leaves (runWord_legal w (armed_bodyLegal during false h) rfl) fun t ⟨_, hs, hb⟩ =>
    ⟨rfl, by rwa [State.setSeq_status, settleAll_status_eq], settleAll_bodyLegal _ _ _ _ hb⟩

theorem runBusy_bodyLegal (w : Word) (during : List HostAccess) (stop : Bool) (h : s.bodyLegal) :
    outcomeLeaves State.bodyLegal (runBusy w during stop s) :=
  runBusy_leaves (runWord_bodyLegal w (armed_bodyLegal during stop h)) fun _ hb => settleAll_bodyLegal _ _ _ _ hb

/-- The reset values of 10_state.md R42 are legal. -/
theorem hardReset_legal (h : memoriesLegal s) : (hardReset s).legal :=
  ⟨rfl, by simp [statusLegal, hardReset, State.reset], countsLegal_zero, treeLegal_none, codesLegal_empty rfl,
    writerLegal_empty, by simp [readerLegal, hardReset, State.reset], h⟩

/-- By induction on the accesses still to fall: what a stopped command leaves is legal but for STATUS, which the SOFT_RESET or the reset
input that stopped it sets anew (70_reset_and_hazards.md R340, R351). -/
theorem overlapped_legal (w : Word) (before during : List HostAccess) (h : s.bodyLegal) :
    outcomeLeaves State.legal (overlapped w before during s) := by
  induction during generalizing w before s with
  | nil => exact runBusy_legal w before h
  | cons a rest ih =>
    have hb := runBusy_bodyLegal w before true h
    unfold overlapped
    cases softResetWord s.par a with
    | some w' =>
      cases ht : runBusy w before true s with
      | next t => exact ih w' [] (by rwa [ht] at hb)
      | fault f => rwa [ht] at hb
      | refused r => trivial
    | none =>
      dsimp only
      split_ifs
      · cases ht : runBusy w before true s with
        | next t =>
          rw [ht] at hb
          obtain ⟨_, _, _, _, _, hm⟩ := hb
          exact hardReset_legal hm
        | fault f => rwa [ht] at hb
        | refused r => trivial
      · exact ih w _ h

/-! ### Host accesses of an idle core -/

theorem startCommand_legal (w : Word) (h : s.legal) : outcomeLeaves State.legal (startCommand w s) := by
  obtain ⟨hq, _, hb⟩ := h
  unfold startCommand
  split
  · exact (runWord_legal w hb hq.unstopped).leaves
  · exact overlapped_legal w [] _ hb

theorem writeRegister_legal (off : Nat) (v : Word) (h : s.legal) : (writeRegister s off v).legal := by
  unfold writeRegister
  split <;> exact h

theorem serve_legal (a : HostAccess) (h : s.legal) : outcomeLeaves State.legal (serve a s) := by
  obtain ⟨hq, hs, hb⟩ := id h
  cases a with
  | regWrite size addr v =>
    simp only [serve]
    cases windowOffset s.par size addr with
    | ok off =>
      dsimp only
      split_ifs
      · exact startCommand_legal v h
      · exact writeRegister_legal off v h
    | error r => trivial
  | regRead size addr =>
    simp only [serve]
    cases windowOffset s.par size addr with
    | ok off => exact h
    | error r => trivial
  | srcWrite addr v => exact ⟨hq, hs, setSrc_bodyLegal hb⟩
  | dstWrite addr v => exact ⟨hq, hs, setDst_bodyLegal hb⟩
  | srcRead | dstRead => exact h
  | hardReset =>
    obtain ⟨_, _, _, _, _, hm⟩ := hb
    exact hardReset_legal hm

theorem step_legal (h : s.legal) : outcomeLeaves State.legal (step s) := by
  unfold step nextAccess
  split
  · exact h
  · exact serve_legal _ h

/-- Settles O11: `step_legal`, which rests on what every piece of a command's body keeps (`bodyLegal_keepsAll`). -/
theorem stepKeepsLegalStates : Obligations.StepKeepsLegalStates := by
  intro s t h ht
  have hl := step_legal h
  rwa [ht] at hl

/-- Settles O12: a legal tree is sound, so no walk and no node index leaves its arena (`step_legal`). -/
theorem stepOfALegalStateDoesNotFault : Obligations.StepOfALegalStateDoesNotFault := by
  intro s f h hf
  have hl := step_legal h
  rwa [hf] at hl

/-- Settles O10: the reset state is what the reset input leaves of empty memories. -/
theorem resetStateIsLegal : Obligations.ResetStateIsLegal := hardReset_legal (s := State.reset) memoryWf_reset

end Sys2Proof.Machine
end

section
/-! What each command may change (10_state.md R29 to R32, R43), and how its end shows in STATUS (R28). -/

namespace Sys2Proof.Machine

variable {P : State → Prop} {S : Prop} {op : Nat} {s t : State}

/-! ### Commands that write RESULT alone of the result registers -/

/-- `P` is kept by a write of RESULT. -/
def KeepsResult (P : State → Prop) : Prop := ∀ t v, P t → P (t.setResults { t.results with result := v })

theorem brGetbitBody_keepsResult (k : KeepsHidden P S) (r : KeepsSrcPos P) (x : KeepsReader P) (y : KeepsResult P)
    (h : P s) : (brGetbitBody s).meets P S True :=
  Result.meets_then (getbit_meets k r x h) fun _ t ht => y t _ ht

theorem walkLoop_keepsResult (k : KeepsHidden P S) (r : KeepsSrcPos P) (x : KeepsReader P) (y : KeepsResult P)
    (z : KeepsWalk P) (n : Nat) (h : P s) : (walkLoop n s).meets P S True := by
  induction n generalizing s with
  | zero => exact h
  | succ n ih =>
    unfold walkLoop
    refine Result.meets_then (getbit_meets k r x h) fun b t ht => ?_
    cases b with
    | none => exact ht
    | some b =>
      dsimp only
      split
      · split
        · exact y _ _ (z t _ ht)
        · exact ih (z t _ ht)
        · trivial
      · trivial

theorem decSymbolBody_keepsResult (k : KeepsHidden P S) (r : KeepsSrcPos P) (x : KeepsReader P) (y : KeepsResult P)
    (z : KeepsWalk P) (h : P s) : (decSymbolBody s).meets P S True := by
  unfold decSymbolBody
  split_ifs
  · exact h
  · dsimp only
    split
    · trivial
    · split_ifs
      · exact y _ _ (z s _ h)
      · exact z s _ h
    · exact walkLoop_keepsResult k r x y z _ (z s _ h)

theorem decodeLoop_keepsResult (k : KeepsHidden P S) (r : KeepsSrcPos P) (x : KeepsReader P) (y : KeepsResult P)
    (z : KeepsWalk P) (w : KeepsSink P) (n : Nat) (h : P s) : (decodeLoop n s).meets P S True := by
  induction n generalizing s with
  | zero =>
    refine Result.meets_then (decSymbolBody_keepsResult k r x y z h) fun _ t ht => ?_
    split_ifs <;> exact ht
  | succ n ih =>
    refine Result.meets_then (decSymbolBody_keepsResult k r x y z h) fun _ t ht => ?_
    split_ifs
    · exact ht
    · exact Result.meets_then (sinkByte_meets k w _ ht) fun _ _ h => ih h

theorem decompressBody_keepsResult (k : KeepsHidden P S) (r : KeepsSrcPos P) (x : KeepsReader P) (y : KeepsResult P)
    (z : KeepsWalk P) (w : KeepsSink P) (c : KeepsCounts P) (b : KeepsNewTree P) (h : P s) :
    (decompressBody s).meets P S True :=
  Result.meets_then (deserializeBody_meets k r c (x _ _ (fun _ => by simp [readerLegal]) (invalidateTree_meets b h)))
    fun _ _ h =>
  Result.meets_then (checkTable_meets h) fun _ _ h =>
  Result.meets_then (tbBuildBody_meets b treeOver_legal h) fun _ _ h => decodeLoop_keepsResult k r x y z w _ h

/-! ### The commands listed for each piece of state (10_state.md R43, R32) -/

/-- The commands that write the counts. -/
def countsOps : List Nat := [0x10, 0x11, 0x12, 0x14, 0x16, 0x31, 0x39, 0x01]
/-- The commands that write the tree. -/
def treeOps : List Nat := [0x20, 0x31, 0x39, 0x01]
/-- The commands that write the code table. -/
def codesOps : List Nat := [0x20, 0x28, 0x31, 0x39, 0x01]
/-- The commands that write the bit writer. -/
def writerOps : List Nat := [0x40, 0x41, 0x42, 0x30, 0x31, 0x01]
/-- The commands that write the bit reader. -/
def readerOps : List Nat := [0x48, 0x49, 0x38, 0x39, 0x01]
/-- The commands that write SRC_POS. -/
def srcPosOps : List Nat := [0x11, 0x14, 0x49, 0x38, 0x31, 0x39]
/-- The commands that write DST_POS and DST. -/
def sinkOps : List Nat := [0x13, 0x41, 0x42, 0x30, 0x31, 0x39]
/-- The commands that write CODE_BITS. -/
def codeBitsOps : List Nat := [0x29, 0x01]
/-- The commands that write RESULT. -/
def resultOps : List Nat := [0x15, 0x21, 0x29, 0x49, 0x38, 0x39, 0x01]
/-- The commands that write RESULT2 and RESULT3. -/
def nodeOps : List Nat := [0x21, 0x01]

/-- `t` is a state while a command of opcode `op` runs that started at `s`: each piece of state is as before, unless R43, or R32 for a
result register, lists the command for it; and SOFT_RESET alone clears ERR_STICKY (R28). -/
structure OnlyListed (op : Nat) (s t : State) : Prop extends Underway s t where
  counts : op ∉ countsOps → t.counts = s.counts
  tree : op ∉ treeOps → t.tree = s.tree
  codes : op ∉ codesOps → t.codes = s.codes
  bw : op ∉ writerOps → t.bw = s.bw
  br : op ∉ readerOps → t.br = s.br
  srcPos : op ∉ srcPosOps → t.ports.srcPos = s.ports.srcPos
  sink : op ∉ sinkOps → t.ports.dstPos = s.ports.dstPos ∧ t.dst = s.dst
  codeBits : op ∉ codeBitsOps → t.results.codeBits = s.results.codeBits
  result : op ∉ resultOps → t.results.result = s.results.result
  node : op ∉ nodeOps → t.results.result2 = s.results.result2 ∧ t.results.result3 = s.results.result3
  sticky : op ≠ 0x01 → t.status.errSticky = s.status.errSticky

namespace OnlyListed

theorem start (x : BitVec 8) : OnlyListed op s (startSteps x s) :=
  { Underway.start x with
    counts := fun _ => rfl, tree := fun _ => rfl, codes := fun _ => rfl, bw := fun _ => rfl, br := fun _ => rfl,
    srcPos := fun _ => rfl, sink := fun _ => ⟨rfl, rfl⟩, codeBits := fun _ => rfl, result := fun _ => rfl,
    node := fun _ => ⟨rfl, rfl⟩, sticky := fun _ => rfl }

/-! A command keeps this through each piece of a body that it is listed for. -/

theorem hidden : KeepsHidden (OnlyListed op s) (s.seq.stopAt ≠ none) :=
  ⟨fun _ _ h => { h with }, fun _ _ hr h => { h with draws := fun hs => absurd (h.races.trans hs) hr }, fun _ h => h.toUnderway.stop⟩

theorem walk : KeepsWalk (OnlyListed op s) := fun _ _ h => { h with }

theorem keepsSrcPos (m : op ∈ srcPosOps := by decide) : KeepsSrcPos (OnlyListed op s) :=
  fun _ _ h => { h with srcPos := absurd m }

theorem keepsRewind (m : op ∈ srcPosOps := by decide) : KeepsRewind (OnlyListed op s) :=
  fun _ h => { h with srcPos := absurd m }

theorem keepsSink (m : op ∈ sinkOps := by decide) : KeepsSink (OnlyListed op s) := fun _ _ _ h => { h with sink := absurd m }

theorem keepsWriter (m : op ∈ writerOps := by decide) : KeepsWriter (OnlyListed op s) := fun _ _ _ h => { h with bw := absurd m }

theorem keepsReader (m : op ∈ readerOps := by decide) : KeepsReader (OnlyListed op s) := fun _ _ _ h => { h with br := absurd m }

theorem keepsCounts (m : op ∈ countsOps := by decide) : KeepsCounts (OnlyListed op s) :=
  fun _ _ _ h => { h with counts := absurd m }

theorem keepsResult (m : op ∈ resultOps := by decide) : KeepsResult (OnlyListed op s) :=
  fun _ _ h => { h with result := absurd m }

theorem keepsNewTree (m : op ∈ treeOps := by decide) (n : op ∈ codesOps := by decide) : KeepsNewTree (OnlyListed op s) :=
  fun _ _ _ h => { h with tree := absurd m, codes := absurd n }

theorem keepsNewCodes (m : op ∈ codesOps := by decide) : KeepsNewCodes (OnlyListed op s) :=
  fun _ _ _ _ h => { h with codes := absurd m }

theorem softReset (h : OnlyListed 0x01 s t) : OnlyListed 0x01 s (softResetBody t) :=
  { h with
    counts := absurd (by decide), tree := absurd (by decide), codes := absurd (by decide), bw := absurd (by decide)
    br := absurd (by decide), codeBits := absurd (by decide), result := absurd (by decide), node := absurd (by decide)
    sticky := absurd rfl }

theorem tbReadnode (i : BitVec 10) (h : OnlyListed 0x21 s t) :
    (tbReadnodeBody i t).meets (OnlyListed 0x21 s) (s.seq.stopAt ≠ none) True := by
  unfold tbReadnodeBody
  split_ifs
  · exact h
  · exact h
  · cases nodeAt t i with
    | none => trivial
    | some x => exact { h with result := absurd (by decide), node := absurd (by decide) }

theorem ctRead (x : Symbol) (h : OnlyListed 0x29 s t) :
    (ctReadBody x t).meets (OnlyListed 0x29 s) (s.seq.stopAt ≠ none) True := by
  unfold ctReadBody
  split_ifs
  · exact h
  · exact { h with result := absurd (by decide), codeBits := absurd (by decide) }

theorem compress (h : OnlyListed 0x31 s t) : (compressBody t).meets (OnlyListed 0x31 s) (s.seq.stopAt ≠ none) True :=
  compressBody_meets hidden keepsSrcPos keepsWriter keepsSink keepsCounts keepsNewTree keepsNewCodes keepsRewind
    (Or.inl trivial) { h with }

/-- No command changes a piece of state it is not listed for: one case for each command, made of the pieces of its body. -/
theorem of_exec (i : Instr) (s : State) :
    outcomeMeets (OnlyListed i.opcode.toNat s) (s.seq.stopAt ≠ none) True (exec i s) := by
  cases i with
  | nop => exact close_meets hidden (r := .ok () (startSteps 0x00 s)) (start _)
  | softReset x => exact close_meets hidden (Result.meets_then (beat_meets hidden (start _)) fun _ _ h => h.softReset)
  | ftClear => exact command_meets hidden (start _) (clearCounts_meets keepsCounts (start _))
  | ftAnalyze => exact command_meets hidden (start _) (analyzeBody_meets hidden keepsSrcPos keepsCounts (start _))
  | ftAddTerminator => exact command_meets hidden (start _) (addTerminatorBody_meets keepsCounts (start _))
  | ftSerialize => exact command_meets hidden (start _) (serializeBody_meets hidden keepsSink (start _))
  | ftDeserialize => exact command_meets hidden (start _) (deserializeBody_meets hidden keepsSrcPos keepsCounts (start _))
  | ftRead a =>
    show outcomeMeets (OnlyListed 0x15 s) _ _ _
    exact symbolCommand_meets hidden (start _) fun x => keepsResult (by decide) _ _ (start _)
  | ftWrite a =>
    show outcomeMeets (OnlyListed 0x16 s) _ _ _
    exact symbolCommand_meets hidden (start _) fun x => ftWriteBody_meets keepsCounts x (start _)
  | tbBuild => exact command_meets hidden (start _) (tbBuildBody_meets keepsNewTree treeOver_legal (start _))
  | tbReadnode a => exact command_meets hidden (start _) (tbReadnode a (start _))
  | ctBuild => exact command_meets hidden (start _) (ctBuildBody_meets keepsNewCodes (Or.inl trivial) (start _))
  | ctRead a => exact symbolCommand_meets hidden (start _) fun x => ctRead x (start _)
  | encSymbol a =>
    show outcomeMeets (OnlyListed 0x30 s) _ _ _
    exact symbolCommand_meets hidden (start _) fun x => encSymbolBody_meets hidden keepsSink keepsWriter x (start _)
  | compress => exact command_meets hidden (start _) (compress (start _))
  | decSymbol => exact command_meets hidden (start _) (decSymbolBody_keepsResult hidden keepsSrcPos keepsReader keepsResult walk (start _))
  | decompress =>
    exact command_meets hidden (start _)
      (decompressBody_keepsResult hidden keepsSrcPos keepsReader keepsResult walk keepsSink keepsCounts keepsNewTree (start _))
  | bwInit => exact command_meets hidden (start _) (keepsWriter (by decide) _ _ (fun _ => writerLegal_empty) (start _))
  | bwPutbit b =>
    show outcomeMeets (OnlyListed 0x41 s) _ _ _
    exact command_meets hidden (start _) (putbit_meets hidden keepsSink keepsWriter b (start _))
  | bwFlush => exact command_meets hidden (start _) (flushBody_meets hidden keepsSink keepsWriter (start _))
  | brInit => exact command_meets hidden (start _) (keepsReader (by decide) _ _ (fun _ => by simp [readerLegal]) (start _))
  | brGetbit => exact command_meets hidden (start _) (brGetbitBody_keepsResult hidden keepsSrcPos keepsReader keepsResult (start _))

end OnlyListed

/-- The end of a command of an idle core. -/
theorem exec_ended {i : Instr} (hq : s.quiet) (ht : exec i s = .next t) :
    ∃ u, OnlyListed i.opcode.toNat s u ∧ (t = endSteps u ∨ ∃ e, t = errorEnd e u) := by
  have h := OnlyListed.of_exec i s
  rw [ht] at h
  exact h.resolve_right fun hs => hs.1 hq.unstopped

theorem hostSide_eq {x y : HostSide} (hb : x.bus = y.bus) (hl : x.readLog = y.readLog) (hd : x.draws = y.draws) : x = y := by
  cases x; cases y; cases hb; cases hl; cases hd; rfl

theorem Underway.host (h : Underway s t) (hr : s.seq.races = []) : t.host = s.host := hostSide_eq h.bus h.readLog (h.draws hr)

/-- Settles O14: what `Underway` keeps of the host's, from the start of a command to its end. -/
theorem commandsKeepWhatIsTheHosts : Obligations.CommandsKeepWhatIsTheHosts := by
  intro i s t hq ht
  obtain ⟨u, hu, hend⟩ := exec_ended hq ht
  have hie : u.irq.ie = s.irq.ie := congrArg Irq.ie hu.irq
  rcases hend with rfl | ⟨e, rfl⟩ <;> exact ⟨hu.src, hu.srcLen, hu.dstCap, hu.dataIn, hie, hu.par, hu.host (congrArg Sequencer.races hq)⟩

/-- Settles O17: `OnlyListed.of_exec`, whose lists of commands are those of the statement. -/
theorem commandsWriteOnlyTheirState : Obligations.CommandsWriteOnlyTheirState := by
  intro i s t hq ht
  obtain ⟨u, hu, rfl | ⟨e, rfl⟩⟩ := exec_ended hq ht <;>
    exact ⟨hu.counts, hu.tree, hu.codes, hu.bw, hu.br, hu.srcPos, hu.sink, hu.codeBits, hu.result, hu.node⟩

theorem exec_softReset (x : BitVec 24) (hq : s.quiet) :
    exec (.softReset x) s = .next (endSteps (softResetBody (beaten (startSteps 0x01 s) 1))) := by
  have hn : (startSteps 0x01 s).seq.stopAt = none := hq.unstopped
  have hb := (beat_cases (startSteps 0x01 s)).resolve_left fun h => by rw [hn] at h; cases h.1
  show close ((beat (startSteps 0x01 s)).andThen fun _ u => .ok () (softResetBody u)) = _
  rw [hb]
  exact congrArg Host.Outcome.next (unlessStopped_eq hn)

theorem opcode_softReset {i : Instr} (h : i.opcode = 0x01) : ∃ x, i = .softReset x := by
  cases i <;> simp [Instr.opcode] at h ⊢

theorem errorCode_ne_zero (e : ErrorKind) : e.code ≠ 0 := by cases e <;> decide

/-- Settles O20: the body leaves ERR and ERRCODE clear and ERR_STICKY alone, SOFT_RESET apart, and the command's end sets them together. -/
theorem errShowsTheLastErrorAndStickyAnyError : Obligations.ErrShowsTheLastErrorAndStickyAnyError := by
  intro i s t hq ht
  refine ⟨?_, ?_, ?_⟩
  · obtain ⟨u, hu, rfl | ⟨e, rfl⟩⟩ := exec_ended hq ht
    · simp [endSteps, statusEnded, hu.err, hu.errCode]
    · simpa [errorEnd, statusErrored] using errorCode_ne_zero e
  · intro hi
    obtain ⟨u, hu, rfl | ⟨e, rfl⟩⟩ := exec_ended hq ht
    · have hsticky := hu.sticky fun h => hi (BitVec.eq_of_toNat_eq h)
      simp [endSteps, statusEnded, hu.err, hsticky]
    · simp [errorEnd, statusErrored]
  · intro hi
    obtain ⟨x, rfl⟩ := opcode_softReset hi
    rw [exec_softReset x hq] at ht
    cases ht
    exact ⟨rfl, rfl⟩

end Sys2Proof.Machine
end

section
/-! The positions of a running command go onward: SRC_POS up to SRC_LEN, DST_POS up to DST_CAP (10_state.md R29, R30, 20_memory.md R63 to
R65). -/

namespace Sys2Proof.Machine

variable {s t : State}

theorem toNat_succ_of_lt {x y : Word} (h : x.toNat < y.toNat) : (x + 1).toNat = x.toNat + 1 :=
  BitVec.toNat_add_of_lt (by have := y.isLt; simp; omega)

/-- Of a command that started at `s`, SRC_POS is onward; and `src_start` is the value `start`, once COMPRESS has set it. -/
structure SrcOnward (s : State) (start : Option Word) (t : State) : Prop where
  srcLen : t.ports.srcLen = s.ports.srcLen
  le : s.ports.srcPos.toNat ≤ t.ports.srcPos.toNat
  bound : t.ports.srcPos = s.ports.srcPos ∨ t.ports.srcPos.toNat ≤ s.ports.srcLen.toNat
  srcStart : ∀ a ∈ start, t.seq.srcStart = a

theorem SrcOnward.advance {start : Option Word} (hx : exhausted t = false) (h : SrcOnward s start t) :
    SrcOnward s start (advanceSrc t) := by
  have hlt : t.ports.srcPos.toNat < s.ports.srcLen.toNat := by simpa [exhausted, h.srcLen] using hx
  have hsucc : (advanceSrc t).ports.srcPos.toNat = t.ports.srcPos.toNat + 1 := toNat_succ_of_lt hlt
  exact { h with le := by have := h.le; omega, bound := Or.inr (by omega) }

theorem srcOnward_keepsAll (s : State) (start : Option Word) : KeepsAll (SrcOnward s start) True True where
  hidden := ⟨fun _ _ h => { h with }, fun _ _ _ h => { h with }, fun _ _ => Or.inl trivial⟩
  walk := fun _ _ h => { h with }
  srcPos := fun _ hx h => h.advance hx
  sink := fun _ _ _ h => { h with }
  writer := fun _ _ _ h => { h with }
  reader := fun _ _ _ h => { h with }
  counts := fun _ _ _ h => { h with }
  results := fun _ _ h => { h with }
  newTree := fun _ _ _ h => { h with }
  newCodes := fun _ _ _ _ h => { h with }
  softReset := fun _ h => { h with }
  sound := Or.inl trivial

/-- COMPRESS steps back to where its SRC_POS was at its start, which is still onward (44_compress.md R205). -/
theorem compress_srcOnward (op : BitVec 8) (s : State) :
    (compressBody (startSteps op s)).meets (SrcOnward s none) True True := by
  have hrewind : KeepsRewind (SrcOnward s (some s.ports.srcPos)) := fun t h =>
    have hs : t.seq.srcStart = s.ports.srcPos := h.srcStart _ rfl
    { h with le := by simp [hs], bound := Or.inl hs }
  have hstart : SrcOnward s (some s.ports.srcPos) ((startSteps op s).setSeq { s.seq with srcStart := s.ports.srcPos }) :=
    ⟨rfl, le_rfl, Or.inl rfl, fun _ ha => Option.some.inj ha⟩
  exact Result.meets_imp ((srcOnward_keepsAll s _).compress hrewind hstart) fun _ h => { h with srcStart := by simp }

/-- Settles O16: SRC_POS moves by `advanceSrc`, where the source is not exhausted, and COMPRESS moves it back to its start. -/
theorem commandsMoveSrcPosOnlyOnward : Obligations.CommandsMoveSrcPosOnlyOnward := by
  intro i s t _ ht
  have h := exec_meets (srcOnward_keepsAll s none) i (s := s) ⟨rfl, le_rfl, Or.inl rfl, by simp⟩ fun _ => compress_srcOnward _ s
  rw [ht] at h
  obtain ⟨u, hu, rfl | ⟨e, rfl⟩⟩ | ⟨_, hu⟩ := h <;> exact ⟨hu.le, hu.bound⟩

/-- Of a command that started at `s`, DST_POS is onward, and DST has changed from DST_POS at the start up to DST_POS alone. -/
structure SinkOnward (s t : State) : Prop where
  dstCap : t.ports.dstCap = s.ports.dstCap
  le : s.ports.dstPos.toNat ≤ t.ports.dstPos.toNat
  bound : t.ports.dstPos = s.ports.dstPos ∨ t.ports.dstPos.toNat ≤ s.ports.dstCap.toNat
  frame : ∀ a : Nat, (a < s.ports.dstPos.toNat ∨ t.ports.dstPos.toNat ≤ a) → memoryGet t.dst a = memoryGet s.dst a

theorem SinkOnward.refl (s : State) : SinkOnward s s := ⟨rfl, le_rfl, Or.inl rfl, fun _ _ => rfl⟩

theorem SinkOnward.sunk (v : Byte) (hr : t.ports.dstPos.toNat < t.ports.dstCap.toNat) (h : SinkOnward s t) :
    SinkOnward s (sunk t v) := by
  have hsucc : (Machine.sunk t v).ports.dstPos.toNat = t.ports.dstPos.toNat + 1 := toNat_succ_of_lt hr
  have hle := h.le
  rw [h.dstCap] at hr
  refine { h with le := by omega, bound := Or.inr (by omega), frame := fun a ha => ?_ }
  have hget : memoryGet (Machine.sunk t v).dst a = if t.ports.dstPos.toNat = a then v else memoryGet t.dst a :=
    memoryGet_memoryPut ..
  rw [hget, if_neg (by omega), h.frame a (by omega)]

theorem sinkOnward_keepsAll (s : State) : KeepsAll (SinkOnward s) True True where
  hidden := ⟨fun _ _ h => { h with }, fun _ _ _ h => { h with }, fun _ _ => Or.inl trivial⟩
  walk := fun _ _ h => { h with }
  srcPos := fun _ _ h => { h with }
  sink := fun _ v hr h => h.sunk v hr
  writer := fun _ _ _ h => { h with }
  reader := fun _ _ _ h => { h with }
  counts := fun _ _ _ h => { h with }
  results := fun _ _ h => { h with }
  newTree := fun _ _ _ h => { h with }
  newCodes := fun _ _ _ _ h => { h with }
  softReset := fun _ h => { h with }
  sound := Or.inl trivial

/-- A command writes no byte of DST from DST_CAP on. -/
theorem SinkOnward.frame_dstCap (h : SinkOnward s t) {a : Nat} (ha : a < s.ports.dstPos.toNat ∨ s.ports.dstCap.toNat ≤ a) :
    memoryGet t.dst a = memoryGet s.dst a := by
  refine h.frame a ?_
  rcases h.bound with hb | hb
  · rw [hb]; omega
  · omega

end Sys2Proof.Machine
end

section
/-! The host's accesses to the register window of an idle core (10_state.md R23 to R41). -/

namespace Sys2Proof.Machine

variable {s : State} {flag : Bool} {off : Nat} {rest : List HostOp}

/-! ### The fields of the register words -/

theorem statusWord_flags (x : Status) :
    (statusWord x).getLsbD 0 = x.busy ∧ (statusWord x).getLsbD 1 = x.err ∧ (statusWord x).getLsbD 2 = x.errSticky ∧
    (statusWord x).getLsbD 3 = false := by
  unfold statusWord bit1
  grind

theorem statusWord_codes (x : Status) :
    (statusWord x).extractLsb' 4 4 = x.errCode ∧ (statusWord x).extractLsb' 8 8 = x.lastOp ∧
    (statusWord x).extractLsb' 16 16 = 0 := by
  unfold statusWord bit1
  grind

theorem bwWord_fields (x : BitWriter) :
    (bwWord x).extractLsb' 0 3 = x.n ∧ (bwWord x).extractLsb' 3 5 = 0 ∧ (bwWord x).extractLsb' 8 8 = x.buf ∧
    (bwWord x).extractLsb' 16 16 = 0 := by
  unfold bwWord
  grind

theorem brWord_fields (x : BitReader) :
    (brWord x).extractLsb' 0 4 = x.rem ∧ (brWord x).extractLsb' 4 4 = 0 ∧ (brWord x).extractLsb' 8 8 = x.cur ∧
    (brWord x).extractLsb' 16 16 = 0 := by
  unfold brWord
  grind

theorem treeWord_fields (t : Tree) (c : Bool) :
    (treeWord t c).getLsbD 31 = t.valid ∧ (treeWord t c).getLsbD 30 = c ∧ (treeWord t c).extractLsb' 26 4 = 0 ∧
    (treeWord t c).extractLsb' 16 10 = t.root ∧ (treeWord t c).extractLsb' 10 6 = 0 ∧
    (treeWord t c).extractLsb' 0 10 = t.nodeCount := by
  unfold treeWord bit1
  grind

theorem irqWord_fields (x : Irq) :
    (irqWord x).getLsbD 0 = x.ie ∧ (irqWord x).getLsbD 1 = x.pend ∧ (irqWord x).extractLsb' 2 30 = 0 := by
  unfold irqWord bit1
  grind

theorem capsWord_eq (p : Params) : capsWord p = if p.platformLE then 1 else 0 := by
  unfold capsWord
  cases p.platformLE <;> rfl

theorem readRegister_reserved (s : State) (h : 0x60 ≤ off) : readRegister s off = 0 := by
  unfold readRegister
  split
  case h_24 => rfl
  all_goals omega

theorem readRegister_codeBits (s : State) (k : Fin 8) : readRegister s (0x40 + 4 * k.val) = s.results.codeBits[k.val] := by
  fin_cases k <;> rfl

/-! ### A step that serves a register access -/

theorem step_regRead (ho : off < 256) (h4 : off % 4 = 0)
    (hb : s.host.bus = { whileBusy := flag, access := .regRead .word (s.par.regBase + off) } :: rest) :
    step s = .next { s with host := { s.host with bus := rest, readLog := readRegister s off :: s.host.readLog } } := by
  simp only [step, nextAccess, hb, serve, State.setHost_par, windowOffset_word ho h4]
  rfl

theorem step_regWrite {v : Word} (ho : off < 256) (h4 : off % 4 = 0) (hc : off ≠ 0x08)
    (hb : s.host.bus = { whileBusy := flag, access := .regWrite .word (s.par.regBase + off) v } :: rest) :
    step s = .next (writeRegister (s.setHost { s.host with bus := rest }) off v) := by
  simp only [step, nextAccess, hb, serve, State.setHost_par, windowOffset_word ho h4]
  exact if_neg hc

theorem windowOffset_odd {p : Params} {size : AccessSize} (ho : off < 256) (h : size ≠ .word ∨ off % 4 ≠ 0) :
    windowOffset p size (p.regBase + off) = .error .oddAccess := by
  unfold windowOffset
  rw [if_neg (by simp [Config.windowBytes]; omega), if_pos (by simpa using h)]

theorem irqWrite_eq (x : Irq) (v : Word) :
    irqWrite x v = { ie := v.getLsbD 0, pend := if v.getLsbD 1 then false else x.pend } := by
  unfold irqWrite
  cases v.getLsbD 1 <;> simp

/-- Settles O53: the read returns the register of its offset (`step_regRead`), whose fields the lemmas about the register words give. -/
theorem hostReadsReturnTheRegisters : Obligations.HostReadsReturnTheRegisters := by
  intro s flag off rest ho h4 hb
  obtain ⟨hbusy, herr, hsticky, hzero⟩ := statusWord_flags s.status
  exact ⟨readRegister s off, step_regRead ho h4 hb,
    by rintro rfl; rfl, by rintro rfl; exact capsWord_eq s.par, by rintro rfl; rfl, readRegister_reserved s,
    by rintro rfl; exact ⟨hbusy, herr, hsticky, hzero, statusWord_codes s.status⟩,
    by rintro rfl; rfl, by rintro rfl; rfl, by rintro rfl; rfl, by rintro rfl; rfl, by rintro rfl; rfl,
    by rintro rfl; rfl, by rintro rfl; rfl, by rintro rfl; rfl,
    by rintro rfl; exact bwWord_fields s.bw, by rintro rfl; exact brWord_fields s.br,
    by rintro rfl; exact treeWord_fields s.tree s.codes.valid, by rintro rfl; exact irqWord_fields s.irq,
    by rintro k rfl; exact readRegister_codeBits s k⟩

/-- Settles O54: `writeRegister` has an arm for each register the host can write. -/
theorem hostWritesReachOnlyTheirRegister : Obligations.HostWritesReachOnlyTheirRegister := by
  intro s flag off v rest ho h4 hc hb
  rw [step_regWrite ho h4 hc hb]
  unfold writeRegister
  split <;> simp_all [State.setHost, State.setPorts, State.setIrq, irqWrite_eq]

/-- Settles O55: the window has no offset for such an access, whether it reads or writes. -/
theorem oddHostAccessesAreRefused : Obligations.OddHostAccessesAreRefused := by
  rintro s flag size off v rest ho h (hb | hb) <;>
    simp only [step, nextAccess, hb, serve, State.setHost_par, windowOffset_odd ho h]

end Sys2Proof.Machine
end

section
/-! A step whose host access writes a word to CMD (10_state.md R27, 47_control.md R270). -/

namespace Sys2Proof.Machine

variable {s : State}

theorem takeWhile_head_idle {rest : List HostOp} (h : ∀ op ∈ rest.head?, op.whileBusy = false) :
    rest.takeWhile (·.whileBusy) = [] := by
  cases rest with
  | nil => rfl
  | cons a l => simp [h a rfl]

/-- Where the next access does not fall while the command runs, the command runs alone. -/
theorem step_runWord {flag : Bool} {w : Word} {rest : List HostOp}
    (hb : s.host.bus = { whileBusy := flag, access := .regWrite .word (s.par.regBase + 0x08) w } :: rest)
    (hr : ∀ op ∈ rest.head?, op.whileBusy = false) : step s = runWord w (s.setHost { s.host with bus := rest }) := by
  rw [step_startCommand hb]
  simp only [startCommand, State.setHost_host, takeWhile_head_idle hr]

theorem runWord_decoded {w : Word} {i : Instr} (h : decode w = some i) (s : State) : runWord w s = exec i s := by
  simp only [runWord, h]

theorem head_dropWhile_idle (bus : List HostOp) :
    ∀ op ∈ (bus.dropWhile (·.whileBusy)).head?, op.whileBusy = false := by
  intro op h
  have := List.head?_dropWhile_not (·.whileBusy) bus
  rw [Option.mem_def.mp h] at this
  exact this

/-- Settles O7: the queue's front is the write of the word, in the second part by `withFetchWord`, and the access after it does not fall
while the command runs (`step_runWord`). -/
theorem stepRunsTheDecodedCommand : Obligations.StepRunsTheDecodedCommand := by
  refine ⟨?_, ?_⟩
  · intro s flag w rest i hb hr hd
    rw [step_runWord hb hr, runWord_decoded hd]
  · intro s w i hd
    have hw : BitVec.ofNat 32 (w.toNat % 2 ^ 32) = w := by rw [Nat.mod_eq_of_lt w.isLt, BitVec.ofNat_toNat, BitVec.setWidth_eq]
    rw [State.withFetchWord, hw, step_runWord (s := withCommand s w) rfl (head_dropWhile_idle s.host.bus), runWord_decoded hd]
    rfl

end Sys2Proof.Machine
end

section
/-! The reset input, of an idle core and of one that runs a command (10_state.md R42, 70_reset_and_hazards.md R340). -/

namespace Sys2Proof.Machine

variable {s t : State}

theorem readRegister_reset {off : Nat} (p : Params) (src dst : List Host.Cell) (host : HostSide) (h0 : off ≠ 0x00) (h4 : off ≠ 0x04) :
    readRegister { State.reset with par := p, src := src, dst := dst, host := host } off = 0 := by
  unfold readRegister
  split
  case h_1 => exact absurd rfl h0
  case h_2 => exact absurd rfl h4
  case h_3 => exact (by decide : statusWord State.reset.status = 0)
  case h_12 => exact (by decide : bwWord State.reset.bw = 0)
  case h_13 => exact (by decide : brWord State.reset.br = 0)
  case h_14 => exact (by decide : treeWord State.reset.tree State.reset.codes.valid = 0)
  case h_15 => exact (by decide : irqWord State.reset.irq = 0)
  all_goals rfl

/-- The parameters, the memories and the host's side are no reset values. -/
theorem hasResetValues_reset (p : Params) (src dst : List Host.Cell) (host : HostSide) :
    { State.reset with par := p, src := src, dst := dst, host := host : State }.hasResetValues :=
  ⟨rfl, capsWord_eq p, fun _ => readRegister_reset p src dst host,
    fun x => ⟨by simp [countOf, State.reset], by simp [codeOf, State.reset, Codes.empty, Code.absent]⟩, rfl, rfl, rfl⟩

theorem hardReset_hasResetValues (t : State) : (hardReset t).hasResetValues := hasResetValues_reset ..

/-- A step in which the reset input stops the running command: the command runs to the beat at which it is stopped, then the core is
reset. -/
theorem step_hardReset_busy {w : Word} {rest : List HostOp} (hq : s.quiet)
    (hb : s.host.bus = { whileBusy := false, access := .regWrite .word (s.par.regBase + 0x08) w } ::
      { whileBusy := true, access := .hardReset } :: rest)
    (hr : ∀ op ∈ rest, op.whileBusy = false)
    (ht : runBusy w [] true (s.setHost { s.host with bus := rest }) = .next t) : step s = .next (requeue [] (hardReset t)) := by
  rw [step_overlapped (ops := [{ whileBusy := true, access := .hardReset }]) hq (by simp) hr hb]
  simp [overlapped, softResetWord, ht]

/-- What a command leaves that started at `s`, stopped or not: DST but for bytes that it wrote, and what else is the host's. -/
structure LeftBy (s t : State) : Prop extends SinkOnward s t where
  src : t.src = s.src
  par : t.par = s.par
  bus : t.host.bus = s.host.bus
  readLog : t.host.readLog = s.host.readLog

theorem Underway.leftBy (h : Underway s t) (w : SinkOnward s t) : LeftBy s t := { w, h with }

/-- No command of legal tables and buffers faults, so that it comes to its end or to where it is stopped. -/
theorem runWord_leftBy (w : Word) (h : s.bodyLegal) : answers (runWord w s) (LeftBy s) := by
  have k := (bodyLegal_keepsAll.and (underway_keepsAll s)).and (sinkOnward_keepsAll s)
  have hrewind : KeepsRewind fun t => (t.bodyLegal ∧ Underway s t) ∧ SinkOnward s t :=
    fun t ⟨⟨hl, hu⟩, hs⟩ => ⟨⟨hl, { hu with }⟩, { hs with }⟩
  refine (runWord_meets k w (fun op => ⟨⟨h, .start op⟩, { SinkOnward.refl s with }⟩)
    (k.compress hrewind ⟨⟨h, { Underway.start 0x31 with }⟩, { SinkOnward.refl s with }⟩)).answers (fun hf => hf.1.1) ?_ ?_ ?_
  · exact fun u ⟨⟨_, hu⟩, hs⟩ => { hu.leftBy hs with }
  · exact fun u e ⟨⟨_, hu⟩, hs⟩ => { hu.leftBy hs with }
  · exact fun _ u ⟨⟨_, hu⟩, hs⟩ => hu.leftBy hs

/-- So it does where it is stopped and no other access falls while it runs. -/
theorem runBusy_leftBy (w : Word) (h : s.bodyLegal) : answers (runBusy w [] true s) (LeftBy s) :=
  runBusy_answers rfl (runWord_leftBy w (armed_bodyLegal [] true h)) fun _ ht => { ht with }

/-- Settles O22: after a hardware reset only the parameters, the memories and the host's side are not at reset values, and of a command that
it stops `LeftBy` says what is left there. -/
theorem hardwareResetLeavesTheResetValues : Obligations.HardwareResetLeavesTheResetValues := by
  refine ⟨?_, ?_⟩
  · intro s flag rest hb
    refine ⟨hardReset (s.setHost { s.host with bus := rest }), ?_, hardReset_hasResetValues _, rfl, rfl, rfl, rfl⟩
    simp only [step, nextAccess, hb, serve]
  · intro s w rest ⟨hq, _, hl⟩ hb hr
    obtain ⟨t, ht, hs⟩ := runBusy_leftBy w (s := s.setHost { s.host with bus := rest }) hl
    exact ⟨_, step_hardReset_busy hq hb hr ht, hasResetValues_reset .., hs.src, hs.par, hs.bus, hs.readLog,
      fun a ha => hs.toSinkOnward.frame_dstCap ha⟩

end Sys2Proof.Machine
end

section
/-! DST under the commands and under one sink write, and SRC under one read (20_memory.md R61, R62, R65, R70). -/

namespace Sys2Proof.Machine

variable {s : State}

theorem memWrite_undisturbed (a : Word) (v : Byte) (h : s.undisturbed) :
    memWrite a v s = .ok () ((beaten s 1).setDst (memoryPut s.dst a.toNat v)) := by
  rw [memWrite, beat_undisturbed h]
  rfl

/-- Settles O15: every piece of a body keeps `SinkOnward`, since only `sinkByte` writes DST: at DST_POS, which
is below DST_CAP, and then steps past it (`sinkOnward_keepsAll`). The step back in COMPRESS is of SRC_POS alone. -/
theorem commandsWriteDstOnlyFromDstPosOn : Obligations.CommandsWriteDstOnlyFromDstPosOn := by
  intro i s t _ ht
  have k := sinkOnward_keepsAll s
  have hstart : SinkOnward s (startSteps i.opcode s) := { SinkOnward.refl s with }
  have h := exec_meets k i hstart fun _ => k.compress (fun _ hu => { hu with }) { hstart with }
  rw [ht] at h
  obtain ⟨u, hu, rfl | ⟨e, rfl⟩⟩ | ⟨_, hu⟩ := h <;> exact ⟨hu.le, hu.bound, hu.frame⟩

/-- Settles O52: a write and a read make one beat each (`memWrite_undisturbed`, `memRead_undisturbed`), and `memoryGet_memoryPut` says what
DST reads after the write. -/
theorem memWriteChangesOneByte : Obligations.MemWriteChangesOneByte := by
  intro s addr v h
  refine ⟨⟨_, memWrite_undisturbed addr v h, rfl, fun a => ?_⟩, memRead_undisturbed addr h⟩
  exact (memoryGet_memoryPut s.dst addr.toNat a v).trans (if_congr eq_comm rfl rfl)

end Sys2Proof.Machine
end

section
/-! The opcode map: the decoder and the encoder undo each other on the legal words, which are those that select a row (30_encoding.md R90
to R95). -/

namespace Sys2Proof

variable {w : Word} {op : BitVec 8}

/-! ### Decoding the word of a command -/

theorem decode_softReset (h : opField w = 0x01) : decode w = some (.softReset (ignoredField w)) := if_pos h

theorem decode_commandWord (a : BitVec 10) (b : BitVec 1) (h : op ≠ 0x01) :
    decode (commandWord a b op) = decodeOp (commandWord a b op) := by
  rw [decode, if_neg (by rwa [opField_commandWord]),
    if_pos ⟨lowReserved_commandWord a b op, highReserved_commandWord a b op⟩]

theorem classSym_commandWord (mk : BitVec 10 → Instr) {a : BitVec 10} (h : isSymbolArg a = true) :
    classSym mk (commandWord a 0 op) = some (mk a) := by
  rw [classSym, bField_commandWord, argField_commandWord, if_pos ⟨rfl, h⟩]

theorem classNode_commandWord (mk : BitVec 10 → Instr) (a : BitVec 10) :
    classNode mk (commandWord a 0 op) = some (mk a) := by
  rw [classNode, bField_commandWord, argField_commandWord, if_pos rfl]

theorem decode_encode {i : Instr} (h : i.wellFormed = true) : decode (encode i) = some i := by
  cases i
  case softReset x => rw [encode, decode_softReset (opField_softReset x), ignoredField_softReset]
  case ftRead a | ftWrite a | ctRead a | encSymbol a =>
    rw [encode, decode_commandWord a 0 (by decide), decodeOp, opField_commandWord]
    exact classSym_commandWord _ h
  case tbReadnode a =>
    rw [encode, decode_commandWord a 0 (by decide), decodeOp, opField_commandWord]
    exact classNode_commandWord _ a
  case bwPutbit b => cases b <;> rfl
  all_goals rfl

/-- Settles O1: a word keeps its fields, so the decoder finds the opcode and the operands that the encoder put there. -/
theorem decodeOfEncodeIsTheInstruction : Obligations.DecodeOfEncodeIsTheInstruction := fun _ h => decode_encode h

/-! ### The arms of the decoder -/

/-- The opcodes of class `none` (30_encoding.md R92), but for SOFT_RESET's. -/
def plainOps : List (BitVec 8) :=
  [0x00, 0x10, 0x11, 0x12, 0x13, 0x14, 0x20, 0x28, 0x31, 0x38, 0x39, 0x40, 0x42, 0x48, 0x49]

/-- The opcodes of class `sym` (30_encoding.md R92). -/
def symOps : List (BitVec 8) := [0x15, 0x16, 0x29, 0x30]

/-- What `decodeOp` makes of the words `w` of opcode `op`: the check of its operand class, and no command without a row. -/
inductive DecodeArm (w : Word) (op : BitVec 8) : Option Instr → Prop
  | plain {i : Instr} (mem : op ∈ plainOps) (wf : i.wellFormed = true) (enc : encode i = commandWord 0 0 op) :
      DecodeArm w op (classNone i w)
  | sym {mk : BitVec 10 → Instr} (mem : op ∈ symOps) (wf : ∀ a, (mk a).wellFormed = isSymbolArg a)
      (enc : ∀ a, encode (mk a) = commandWord a 0 op) : DecodeArm w op (classSym mk w)
  | node {mk : BitVec 10 → Instr} (mem : op = 0x21) (wf : ∀ a, (mk a).wellFormed = true)
      (enc : ∀ a, encode (mk a) = commandWord a 0 op) : DecodeArm w op (classNode mk w)
  | bit {mk : Bool → Instr} (mem : op = 0x41) (wf : ∀ b, (mk b).wellFormed = true)
      (enc : ∀ b, encode (mk b) = commandWord 0 (BitVec.ofBool b) op) : DecodeArm w op (classBit mk w)
  | noRow (notMem : op ∉ plainOps ++ symOps ++ [0x21, 0x41]) : DecodeArm w op none

theorem decodeOp_arm (w : Word) : DecodeArm w (opField w) (decodeOp w) := by
  have hop {n : Nat} (h : (opField w).toNat = n) : opField w = BitVec.ofNat 8 n := by
    rw [← h, BitVec.ofNat_toNat, BitVec.setWidth_eq]
  unfold decodeOp
  split
  -- The opcodes of class `sym`, of TB_READNODE, of BW_PUTBIT, and of no row; the others are of class `none`.
  case h_7 h | h_8 h | h_12 h | h_13 h => rw [hop h]; exact .sym (by decide) (fun _ => rfl) fun _ => rfl
  case h_10 h => rw [hop h]; exact .node rfl (fun _ => rfl) fun _ => rfl
  case h_18 h => rw [hop h]; exact .bit rfl (fun _ => rfl) fun _ => rfl
  case h_22 =>
    refine .noRow ?_
    simp only [plainOps, symOps, List.cons_append, List.nil_append, List.mem_cons, List.not_mem_nil, or_false, ← BitVec.toNat_inj,
      BitVec.reduceToNat]
    tauto
  all_goals
    rename_i h
    rw [hop h]
    exact .plain (by decide) rfl rfl

/-! ### Encoding what a word decodes to -/

theorem ofBool_beq_one (b : BitVec 1) : BitVec.ofBool (b == 1) = b := by
  revert b; decide

/-- What an arm accepts is well-formed, and its word is the one that was decoded. -/
theorem DecodeArm.encode_eq {r : Option Instr} {i : Instr} (h : DecodeArm w op r) (hw : w = commandWord (argField w) (bField w) op)
    (hr : r = some i) : i.wellFormed = true ∧ encode i = w := by
  cases h with
  | plain _ wf enc =>
    obtain ⟨⟨hb, ha⟩, ⟨⟩⟩ := Option.ite_none_right_eq_some.mp hr
    rw [hb, ha] at hw
    exact ⟨wf, enc.trans hw.symm⟩
  | sym _ wf enc =>
    obtain ⟨⟨hb, ha⟩, ⟨⟩⟩ := Option.ite_none_right_eq_some.mp hr
    rw [hb] at hw
    exact ⟨(wf _).trans ha, (enc _).trans hw.symm⟩
  | node _ wf enc =>
    obtain ⟨hb, ⟨⟩⟩ := Option.ite_none_right_eq_some.mp hr
    rw [hb] at hw
    exact ⟨wf _, (enc _).trans hw.symm⟩
  | bit _ wf enc =>
    obtain ⟨ha, ⟨⟩⟩ := Option.ite_none_right_eq_some.mp hr
    rw [ha] at hw
    exact ⟨wf _, by rw [enc, ofBool_beq_one, ← hw]⟩
  | noRow => cases hr

theorem encode_of_decode {i : Instr} (h : decode w = some i) : i.wellFormed = true ∧ encode i = w := by
  rw [decode] at h
  split_ifs at h with h1 hr
  · cases h
    exact ⟨rfl, (eq_softResetWord h1).symm⟩
  · exact (decodeOp_arm w).encode_eq (eq_commandWord hr.1 hr.2) h

/-- Settles O2: the arm that accepts the word drops no bit of it, the reserved fields being 0 (`DecodeArm.encode_eq`), and SOFT_RESET keeps
the bits [31:8]. -/
theorem encodeOfDecodeIsTheWord : Obligations.EncodeOfDecodeIsTheWord := fun _ _ h => encode_of_decode h

/-! ### The rows of the opcode map -/

/-- The reserved fields of a command word are 0, and its other fields are its operands and its opcode. -/
theorem eq_commandWord_iff {a : BitVec 10} {b : BitVec 1} :
    w = commandWord a b op ↔ highReserved w = 0 ∧ argField w = a ∧ lowReserved w = 0 ∧ bField w = b ∧ opField w = op := by
  constructor
  · rintro rfl
    exact ⟨highReserved_commandWord a b op, argField_commandWord a b op, lowReserved_commandWord a b op, bField_commandWord a b op,
      opField_commandWord a b op⟩
  · rintro ⟨hh, rfl, hl, rfl, rfl⟩
    exact eq_commandWord hl hh

theorem highReserved_and (v w : Word) : highReserved (v &&& w) = highReserved v &&& highReserved w := BitVec.extractLsb'_and
theorem argField_and (v w : Word) : argField (v &&& w) = argField v &&& argField w := BitVec.extractLsb'_and
theorem lowReserved_and (v w : Word) : lowReserved (v &&& w) = lowReserved v &&& lowReserved w := BitVec.extractLsb'_and
theorem bField_and (v w : Word) : bField (v &&& w) = bField v &&& bField w := BitVec.extractLsb'_and
theorem opField_and (v w : Word) : opField (v &&& w) = opField v &&& opField w := BitVec.extractLsb'_and

/-- A mask that keeps OP and the reserved fields selects the command words of its opcode whose operands are 0 where it keeps them. -/
theorem and_mask_iff {m : Word}
    (hm : highReserved m = BitVec.allOnes 6 ∧ lowReserved m = BitVec.allOnes 7 ∧ opField m = BitVec.allOnes 8) :
    w &&& m = commandWord 0 0 op ↔
      w = commandWord (argField w) (bField w) op ∧ argField w &&& argField m = 0 ∧ bField w &&& bField m = 0 := by
  obtain ⟨hh, hl, ho⟩ := hm
  rw [eq_commandWord_iff, eq_commandWord_iff, highReserved_and, argField_and, lowReserved_and, bField_and, opField_and, hh, hl, ho,
    BitVec.and_allOnes, BitVec.and_allOnes, BitVec.and_allOnes]
  tauto

/-- The mask of a command's row in the opcode map. -/
def Instr.mask : Instr → Word
  | .softReset _ => 0x000000FF
  | .ftRead _ | .ftWrite _ | .tbReadnode _ | .ctRead _ | .encSymbol _ => 0xFC00FFFF
  | .bwPutbit _ => 0xFFFFFEFF
  | _ => 0xFFFFFFFF

/-- The row of a command in the opcode map. -/
def Instr.row (i : Instr) : OpcodeRow :=
  (commandWord 0 0 i.opcode, i.mask, decide (i.opcode ∈ symOps))

/-- A command of each row, in the order of the opcode map. -/
def rowCommands : List Instr :=
  [.nop, .softReset 0, .ftClear, .ftAnalyze, .ftAddTerminator, .ftSerialize, .ftDeserialize, .ftRead 0, .ftWrite 0, .tbBuild,
   .tbReadnode 0, .ctBuild, .ctRead 0, .encSymbol 0, .compress, .decSymbol, .decompress, .bwInit, .bwPutbit false, .bwFlush, .brInit,
   .brGetbit]

theorem opcodeRows_eq : opcodeRows = rowCommands.map Instr.row := rfl

theorem row_mem_opcodeRows (i : Instr) : i.row ∈ opcodeRows := by
  cases i <;> simp [Instr.row, Instr.opcode, Instr.mask, opcodeRows, commandWord, symOps]

theorem selectsRow_iff {r : OpcodeRow} :
    selectsRow w r = true ↔ w &&& r.2.1 = r.1 ∧ (r.2.2 = true → isSymbolArg (argField w) = true) := by
  simp [selectsRow, ← Bool.not_eq_true, imp_iff_not_or]

theorem selectsRow_unchecked {v m : Word} : selectsRow w (v, m, false) = true ↔ w &&& m = v := by simp [selectsRow]

theorem selectsRow_plain : selectsRow w (commandWord 0 0 op, 0xFFFFFFFF, false) = true ↔ commandWord 0 0 op = w := by
  rw [selectsRow_unchecked, show w &&& 0xFFFFFFFF = w from BitVec.and_allOnes, eq_comm]

theorem selectsRow_node : selectsRow w (commandWord 0 0 op, 0xFC00FFFF, false) = true ↔ ∃ a, commandWord a 0 op = w := by
  have ha : argField 0xFC00FFFF = 0#10 := by decide
  have hb : bField 0xFC00FFFF = BitVec.allOnes 1 := by decide
  rw [selectsRow_unchecked, and_mask_iff (by decide), ha, hb, BitVec.and_allOnes, BitVec.and_zero]
  constructor
  · rintro ⟨hw, -, h⟩
    exact ⟨argField w, by rw [← h, ← hw]⟩
  · rintro ⟨a, rfl⟩
    rw [argField_commandWord, bField_commandWord]
    exact ⟨rfl, rfl, rfl⟩

theorem selectsRow_sym : selectsRow w (commandWord 0 0 op, 0xFC00FFFF, true) = true ↔
    ∃ a, isSymbolArg a = true ∧ commandWord a 0 op = w := by
  rw [selectsRow_iff, ← selectsRow_unchecked, selectsRow_node]
  constructor
  · rintro ⟨⟨a, rfl⟩, ha⟩
    rw [argField_commandWord] at ha
    exact ⟨a, ha rfl, rfl⟩
  · rintro ⟨a, ha, rfl⟩
    rw [argField_commandWord]
    exact ⟨⟨a, rfl⟩, fun _ => ha⟩

theorem selectsRow_bit : selectsRow w (commandWord 0 0 op, 0xFFFFFEFF, false) = true ↔
    ∃ b, commandWord 0 (BitVec.ofBool b) op = w := by
  have ha : argField 0xFFFFFEFF = BitVec.allOnes 10 := by decide
  have hb : bField 0xFFFFFEFF = 0#1 := by decide
  rw [selectsRow_unchecked, and_mask_iff (by decide), ha, hb, BitVec.and_allOnes, BitVec.and_zero]
  constructor
  · rintro ⟨hw, h, -⟩
    exact ⟨bField w == 1, by rw [ofBool_beq_one, ← h, ← hw]⟩
  · rintro ⟨b, rfl⟩
    rw [argField_commandWord, bField_commandWord]
    exact ⟨rfl, rfl, rfl⟩

theorem selectsRow_softReset : selectsRow w (commandWord 0 0 0x01, 0x000000FF, false) = true ↔ opField w = 0x01 := by
  have hm : highReserved 0x000000FF = 0#6 ∧ argField 0x000000FF = 0#10 ∧ lowReserved 0x000000FF = 0#7 ∧ bField 0x000000FF = 0#1 ∧
      opField 0x000000FF = BitVec.allOnes 8 := by decide
  obtain ⟨hh, ha, hl, hb, ho⟩ := hm
  rw [selectsRow_unchecked, eq_commandWord_iff, highReserved_and, argField_and, lowReserved_and, bField_and, opField_and, hh, ha, hl,
    hb, ho, BitVec.and_allOnes]
  simp

/-- Every command's word selects the command's row. -/
theorem selectsRow_encode {i : Instr} (h : i.wellFormed = true) : selectsRow (encode i) i.row = true := by
  cases i
  case softReset x => exact selectsRow_softReset.mpr (opField_softReset x)
  case ftRead a | ftWrite a | ctRead a | encSymbol a => exact selectsRow_sym.mpr ⟨a, h, rfl⟩
  case tbReadnode a => exact selectsRow_node.mpr ⟨a, rfl⟩
  case bwPutbit b => exact selectsRow_bit.mpr ⟨b, rfl⟩
  all_goals exact selectsRow_plain.mpr rfl

/-- A word that selects the row of a command is the word of that command with some operands, so it is legal. -/
theorem decode_of_selectsRow {i : Instr} (h : selectsRow w i.row = true) : ∃ j, decode w = some j := by
  cases i
  case softReset => exact ⟨_, decode_softReset (selectsRow_softReset.mp h)⟩
  case ftRead => obtain ⟨a, ha, rfl⟩ := selectsRow_sym.mp h; exact ⟨_, decode_encode (i := .ftRead a) ha⟩
  case ftWrite => obtain ⟨a, ha, rfl⟩ := selectsRow_sym.mp h; exact ⟨_, decode_encode (i := .ftWrite a) ha⟩
  case ctRead => obtain ⟨a, ha, rfl⟩ := selectsRow_sym.mp h; exact ⟨_, decode_encode (i := .ctRead a) ha⟩
  case encSymbol => obtain ⟨a, ha, rfl⟩ := selectsRow_sym.mp h; exact ⟨_, decode_encode (i := .encSymbol a) ha⟩
  case tbReadnode => obtain ⟨a, rfl⟩ := selectsRow_node.mp h; exact ⟨_, decode_encode (i := .tbReadnode a) rfl⟩
  case bwPutbit => obtain ⟨b, rfl⟩ := selectsRow_bit.mp h; exact ⟨_, decode_encode (i := .bwPutbit b) rfl⟩
  all_goals
    obtain rfl := selectsRow_plain.mp h
    exact ⟨_, rfl⟩

/-- Every mask keeps OP. -/
theorem opcode_of_selectsRow {i : Instr} (h : selectsRow w i.row = true) : i.opcode = opField w := by
  have hm : opField i.mask = BitVec.allOnes 8 := by unfold Instr.mask; split <;> rfl
  calc i.opcode = opField (w &&& i.mask) := (opField_commandWord ..).symm.trans (congrArg opField (selectsRow_iff.mp h).1.symm)
    _ = opField w &&& opField i.mask := opField_and w i.mask
    _ = opField w := by rw [hm, BitVec.and_allOnes]

theorem exists_row_of_mem {r : OpcodeRow} (h : r ∈ opcodeRows) : ∃ i : Instr, i.row = r :=
  (List.mem_map.mp (opcodeRows_eq ▸ h)).imp fun _ h => h.2

/-- No two rows have the same opcode. -/
theorem selectedRows_length_le (w : Word) : (opcodeRows.filter (selectsRow w)).length ≤ 1 := by
  have hn : (opcodeRows.map fun r => opField r.1).Nodup := by decide
  have hop : ∀ r ∈ opcodeRows, selectsRow w r = true → (opField r.1 == opField w) = true := fun r hr h => by
    obtain ⟨i, rfl⟩ := exists_row_of_mem hr
    exact beq_iff_eq.mpr ((opField_commandWord ..).trans (opcode_of_selectsRow h))
  calc (opcodeRows.filter (selectsRow w)).length
      ≤ (opcodeRows.map fun r => opField r.1).count (opField w) := by
        rw [← List.countP_eq_length_filter, List.count, List.countP_map]
        exact List.countP_mono_left hop
    _ ≤ 1 := List.nodup_iff_count_le_one.mp hn _

/-- Settles O3: all masks keep OP, which no two rows share (`selectedRows_length_le`); a word that selects a row is a command's
(`decode_of_selectsRow`), and a command's word, which is its encoding, selects the command's row (`selectsRow_encode`). -/
theorem everyWordSelectsAtMostOneRow : Obligations.EveryWordSelectsAtMostOneRow := by
  intro w
  have hsel {i : Instr} (h : decode w = some i) : selectsRow w i.row = true := by
    obtain ⟨hi, rfl⟩ := encode_of_decode h
    exact selectsRow_encode hi
  refine ⟨selectedRows_length_le w, ⟨fun h r hr => ?_, fun h => ?_⟩, fun i h => ?_⟩
  · obtain ⟨i, rfl⟩ := exists_row_of_mem hr
    refine Bool.eq_false_iff.mpr fun hs => ?_
    obtain ⟨j, hj⟩ := decode_of_selectsRow hs
    exact Option.some_ne_none j (hj.symm.trans h)
  · refine Option.eq_none_iff_forall_ne_some.mpr fun i hi => ?_
    exact Bool.false_ne_true ((h _ (row_mem_opcodeRows i)).symm.trans (hsel hi))
  · exact ⟨i.row, row_mem_opcodeRows i, hsel h, opField_commandWord ..⟩

/-! ### Illegal words -/

/-- The opcodes of the opcode map (30_encoding.md R92). -/
def rowOps : List Nat :=
  [0x00, 0x01, 0x10, 0x11, 0x12, 0x13, 0x14, 0x15, 0x16, 0x20, 0x21, 0x28, 0x29, 0x30, 0x31, 0x38, 0x39, 0x40, 0x41, 0x42, 0x48, 0x49]

/-- Which words an arm refuses: one with an operand where its class has none, or that is no symbol, and one without a row. -/
theorem DecodeArm.eq_none_iff {r : Option Instr} (h : DecodeArm w op r) (h1 : op ≠ 0x01) : r = none ↔
    op.toNat ∉ rowOps ∨
    (bField w ≠ 0 ∧ op ≠ 0x41 ∧ op ≠ 0x01) ∨
    (argField w ≠ 0 ∧ op.toNat ∉ [0x01, 0x15, 0x16, 0x21, 0x29, 0x30]) ∨
    (256 < (argField w).toNat ∧ op.toNat ∈ [0x15, 0x16, 0x29, 0x30]) := by
  cases h with
  | plain mem =>
    have facts : ∀ op ∈ plainOps, op.toNat ∈ rowOps ∧ op ≠ 0x41 ∧ op.toNat ∉ [0x01, 0x15, 0x16, 0x21, 0x29, 0x30] ∧
        op.toNat ∉ [0x15, 0x16, 0x29, 0x30] := by decide
    have := facts op mem
    simp only [classNone, ite_eq_right_iff, reduceCtorEq, imp_false]
    tauto
  | sym mem =>
    have facts : ∀ op ∈ symOps, op.toNat ∈ rowOps ∧ op ≠ 0x41 ∧ op.toNat ∈ [0x01, 0x15, 0x16, 0x21, 0x29, 0x30] ∧
        op.toNat ∈ [0x15, 0x16, 0x29, 0x30] := by decide
    have := facts op mem
    simp only [classSym, ite_eq_right_iff, reduceCtorEq, imp_false, isSymbolArg, decide_eq_true_eq, ← not_le]
    tauto
  | node mem =>
    subst mem
    simp [classNode, rowOps]
  | bit mem =>
    subst mem
    simp [classBit, rowOps]
  | noRow notMem =>
    have facts : ∀ n ∈ rowOps, n = 1 ∨ BitVec.ofNat 8 n ∈ plainOps ++ symOps ++ [0x21, 0x41] := by decide
    refine iff_of_true rfl (.inl fun hop => ?_)
    have := facts _ hop
    rw [BitVec.ofNat_toNat, BitVec.setWidth_eq] at this
    exact this.elim (fun h => h1 (BitVec.eq_of_toNat_eq h)) notMem

theorem runWord_illegal {s : Machine.State} (hq : s.quiet) (h : decode w = none) :
    Machine.runWord w s = .next (Machine.afterError (opField w) 5 s) := by
  rw [Machine.runWord, h]
  exact Machine.illegalCommand_eq (opField w) hq

/-- Settles O4: `DecodeArm.eq_none_iff` where the reserved fields are 0, and `illegalCommand_eq` for the report. -/
theorem illegalWordsOnlyReportTheError : Obligations.IllegalWordsOnlyReportTheError := by
  refine ⟨fun w => ?_, fun w s hq h => runWord_illegal hq h⟩
  by_cases h1 : opField w = 0x01
  · simp [decode, h1]
  by_cases hr : lowReserved w = 0 ∧ highReserved w = 0
  · rw [decode, if_neg h1, if_pos hr, (decodeOp_arm w).eq_none_iff h1]
    simp only [hr, ne_eq, not_true_eq_false, or_self, and_false, false_or]
    exact Iff.rfl
  · rw [decode, if_neg h1, if_neg hr]
    exact iff_of_true rfl (.inr (.inl ⟨h1, not_and_or.mp hr⟩))

/-- Settles O8: the command runs alone (`step_runWord`), and its hidden state is that of an idle core. -/
theorem stepOfAnIllegalWordReportsIllegalCommand : Obligations.StepOfAnIllegalWordReportsIllegalCommand := by
  intro s w rest hq hb hr hd
  have hs : s.seq = Machine.Sequencer.idle := hq
  refine ((Machine.step_runWord hb hr).trans (runWord_illegal hq hd)).trans ?_
  rw [Machine.afterError, ← hs]
  rfl

/-! ### SOFT_RESET and the example words -/

/-- Settles O5: OP alone chooses the arm, and `execSoftReset` does not look at the ignored bits. -/
theorem softResetIgnoresTheOtherBits : Obligations.SoftResetIgnoresTheOtherBits := by
  refine ⟨fun w h => decode_softReset h, fun s v w hv hw => ?_⟩
  rw [Machine.runWord_decoded (decode_softReset hv), Machine.runWord_decoded (decode_softReset hw)]
  rfl

/-- Settles O6: the decoder evaluated on each of the words. -/
theorem exampleWordsDecode : Obligations.ExampleWordsDecode := by
  unfold Obligations.ExampleWordsDecode
  decide

end Sys2Proof
end

section
/-! The source as the sequence of bytes that a running command takes (20_memory.md R63, R64, R67). -/

namespace Sys2Proof.Machine

variable {s : State} {n : Nat}

theorem Result.andThen_assoc {α β γ : Type} (r : Result α) (f : α → State → Result β) (g : β → State → Result γ) :
    (r.andThen f).andThen g = r.andThen fun a s => (f a s).andThen g := by cases r <;> rfl

@[simp] theorem Result.ok_andThen {α β : Type} (a : α) (s : State) (f : α → State → Result β) :
    (Result.ok a s).andThen f = f a s := rfl

@[simp] theorem Result.raise_andThen {α β : Type} (e : ErrorKind) (s : State) (f : α → State → Result β) :
    (Result.raise e s).andThen f = .raise e s := rfl

/-- The state after the next `n` source bytes are taken, each in one beat. -/
def taken (s : State) (n : Nat) : State := beaten (consumed s n) n

theorem taken_zero (s : State) : taken s 0 = s := by simp [taken, beaten, consumed, State.setSeq]

theorem consumed_consumed (s : State) (m n : Nat) : consumed (consumed s m) n = consumed s (m + n) := by
  simp only [consumed, BitVec.ofNat_add, BitVec.ofNat_toNat, BitVec.setWidth_eq, BitVec.add_assoc]

theorem beaten_beaten (s : State) (m n : Nat) : beaten (beaten s m) n = beaten s (m + n) := by
  simp only [beaten, State.setSeq, Nat.add_assoc]

theorem consumed_beaten (s : State) (m n : Nat) : consumed (beaten s m) n = beaten (consumed s n) m := rfl

theorem taken_taken (s : State) (m n : Nat) : taken (taken s m) n = taken s (m + n) := by
  rw [taken, taken, taken, consumed_beaten, consumed_consumed, beaten_beaten]

theorem advanceSrc_beaten (s : State) : advanceSrc (beaten s 1) = taken s 1 := by
  simp [taken, beaten, consumed, advanceSrc, State.setSeq, State.setPorts, BitVec.ofNat_add]

theorem State.undisturbed.taken (h : s.undisturbed) (n : Nat) : (taken s n).undisturbed := h

@[simp] theorem length_sourceBytes (s : State) : (sourceBytes s).length = bytesLeft s := by simp [sourceBytes]

theorem exhausted_iff : exhausted s = true ↔ bytesLeft s = 0 := by
  simp [exhausted, bytesLeft, Nat.sub_eq_zero_iff_le]

theorem srcPos_taken (h : n ≤ bytesLeft s) : (taken s n).ports.srcPos.toNat = s.ports.srcPos.toNat + n := by
  have hpos := s.ports.srcPos.isLt
  have hlen := s.ports.srcLen.isLt
  simp only [bytesLeft] at h
  exact (BitVec.toNat_ofNat ..).trans (Nat.mod_eq_of_lt (by omega))

theorem bytesLeft_taken (h : n ≤ bytesLeft s) : bytesLeft (taken s n) = bytesLeft s - n := by
  rw [bytesLeft, srcPos_taken h, ← Nat.sub_sub]; rfl

theorem sourceBytes_taken (h : n ≤ bytesLeft s) : sourceBytes (taken s n) = (sourceBytes s).drop n := by
  refine List.ext_getElem (by simp [bytesLeft_taken h]) fun k _ _ => ?_
  simp only [sourceBytes, srcPos_taken h, List.getElem_map, List.getElem_range, List.getElem_drop, Nat.add_assoc]
  rfl

theorem getElem_sourceBytes (h : n < (sourceBytes s).length) :
    (sourceBytes s)[n] = memoryGet s.src (s.ports.srcPos.toNat + n) := by simp [sourceBytes]

/-! ### The source bytes taken and a table of counts made of them -/

/-- The state after the next `n` source bytes are taken and the counts have become `table`. -/
def tabled (s : State) (table : Vector Word 257) (n : Nat) : State := (taken s n).setCounts table

theorem State.undisturbed.tabled (h : s.undisturbed) (table : Vector Word 257) (n : Nat) :
    (tabled s table n).undisturbed := h

theorem clearCounts_eq_tabled (s : State) : clearCounts s = tabled s (Vector.replicate 257 0) 0 := by
  rw [tabled, taken_zero]; rfl

theorem taken_tabled (s : State) (table : Vector Word 257) (m n : Nat) :
    taken (tabled s table m) n = tabled s table (m + n) := by
  rw [tabled, tabled, ← taken_taken]; rfl

theorem bytesLeft_tabled (table : Vector Word 257) (h : n ≤ bytesLeft s) : bytesLeft (tabled s table n) = bytesLeft s - n :=
  bytesLeft_taken h

theorem sourceBytes_tabled (table : Vector Word 257) (h : n ≤ bytesLeft s) :
    sourceBytes (tabled s table n) = (sourceBytes s).drop n := sourceBytes_taken h

/-! ### Several source bytes in order -/

/-- So many source bytes in order, as `get_s32le(E)` and `get_s16le(E)` read them (20_memory.md R67). -/
def srcBytes (e : ErrorKind) : Nat → State → Result (List Byte)
  | 0, s => .ok [] s
  | n + 1, s => (srcByte e s).andThen fun b s => (srcBytes e n s).andThen fun bs s => .ok (b :: bs) s

/-- Source bytes are taken in order, or all that are left where there are too few. -/
theorem srcBytes_eq (e : ErrorKind) (n : Nat) (hu : s.undisturbed) :
    srcBytes e n s =
      if n ≤ bytesLeft s then .ok ((sourceBytes s).take n) (taken s n) else .raise e (taken s (bytesLeft s)) := by
  induction n generalizing s with
  | zero => simp [srcBytes, taken_zero]
  | succ n ih =>
    rcases Nat.eq_zero_or_pos (bytesLeft s) with h0 | h0
    · simp [srcBytes, srcByte, exhausted_iff.mpr h0, h0, taken_zero]
    · have hx : ¬exhausted s = true := fun h => by rw [exhausted_iff] at h; omega
      have hcons : (sourceBytes s).take (n + 1) = memoryGet s.src s.ports.srcPos.toNat :: ((sourceBytes s).drop 1).take n := by
        have h0 : 0 < (sourceBytes s).length := by rwa [length_sourceBytes]
        have hhead : memoryGet s.src s.ports.srcPos.toNat = (sourceBytes s)[0] := (getElem_sourceBytes h0).symm
        rw [hhead, ← List.take_succ_cons, List.getElem_cons_drop, List.drop_zero]
      rw [srcBytes, srcByte, if_neg hx, takeByte_undisturbed hu, advanceSrc_beaten, Result.ok_andThen, ih (hu.taken 1),
        bytesLeft_taken h0, sourceBytes_taken h0, taken_taken, taken_taken, hcons]
      by_cases hn : n + 1 ≤ bytesLeft s
      · rw [if_pos (by omega), if_pos hn, Nat.add_comm 1 n]; rfl
      · rw [if_neg (by omega), if_neg hn, Nat.add_sub_cancel' h0]; rfl

theorem toNat_append_byte {w : Nat} (x : BitVec w) (b : Byte) : (x ++ b).toNat = b.toNat + 256 * x.toNat := by
  rw [BitVec.toNat_append, ← Nat.shiftLeft_add_eq_or_of_lt b.isLt, Nat.shiftLeft_eq]; omega

theorem signed32_eq (b0 b1 b2 b3 : Byte) : signed32 b0 b1 b2 b3 = signedValue [b0, b1, b2, b3] := by
  simp [signed32, signedValue, bytesValue, BitVec.toInt_eq_toNat_cond, toNat_append_byte]

theorem signed16_eq (b0 b1 : Byte) : signed16 b0 b1 = signedValue [b0, b1] := by
  simp [signed16, signedValue, bytesValue, BitVec.toInt_eq_toNat_cond, toNat_append_byte]

theorem getS32le_eq_srcBytes (e : ErrorKind) (s : State) :
    getS32le e s = (srcBytes e 4 s).andThen fun bs s => .ok (signedValue bs) s := by
  simp [getS32le, srcBytes, Result.andThen_assoc, signed32_eq]

theorem getS16le_eq_srcBytes (e : ErrorKind) (s : State) :
    getS16le e s = (srcBytes e 2 s).andThen fun bs s => .ok (signedValue bs) s := by
  simp [getS16le, srcBytes, Result.andThen_assoc, signed16_eq]

theorem getS32le_eq (e : ErrorKind) (hu : s.undisturbed) :
    getS32le e s = if 4 ≤ bytesLeft s then .ok (signedValue ((sourceBytes s).take 4)) (taken s 4)
      else .raise e (taken s (bytesLeft s)) := by
  rw [getS32le_eq_srcBytes, srcBytes_eq e 4 hu]; split_ifs <;> rfl

theorem getS16le_eq (e : ErrorKind) (hu : s.undisturbed) :
    getS16le e s = if 2 ≤ bytesLeft s then .ok (signedValue ((sourceBytes s).take 2)) (taken s 2)
      else .raise e (taken s (bytesLeft s)) := by
  rw [getS16le_eq_srcBytes, srcBytes_eq e 2 hu]; split_ifs <;> rfl

end Sys2Proof.Machine
end

section
/-! The sink as the place of a sequence of bytes that a running command writes (20_memory.md R65, R66, R70). -/

namespace Sys2Proof.Machine

variable {s : State} {xs ys : List Byte}

/-- A piece of a body may go on with any continuation that agrees on the states it can leave. -/
theorem Result.andThen_congr {α β : Type} {P : State → Prop} {S F : Prop} {r : Result α} {f g : α → State → Result β}
    (hr : r.meets P S F) (hfg : ∀ a s, P s → f a s = g a s) : r.andThen f = r.andThen g := by
  cases r with
  | ok a s => exact hfg a s hr
  | raise e s => rfl
  | stopped s => rfl
  | faulted x => rfl

theorem sinkBytes_append (xs ys : List Byte) (s : State) :
    sinkBytes (xs ++ ys) s = (sinkBytes xs s).andThen fun _ s => sinkBytes ys s := by
  induction xs generalizing s with
  | nil => rfl
  | cons x xs ih => simp only [List.cons_append, sinkBytes, Result.andThen_assoc, ih]

/-- The state after bytes are appended to the sink, each in one beat. -/
def wrote (s : State) (bs : List Byte) : State := beaten (appended s bs) bs.length

theorem wrote_nil (s : State) : wrote s [] = s := by
  simp [wrote, beaten, appended, writeBytes, State.setSeq]

theorem State.undisturbed.wrote (h : s.undisturbed) (bs : List Byte) : (wrote s bs).undisturbed := h

theorem dstPos_appended (h : xs.length ≤ room s) :
    (appended s xs).ports.dstPos.toNat = s.ports.dstPos.toNat + xs.length := by
  have hpos := s.ports.dstPos.isLt
  have hcap := s.ports.dstCap.isLt
  simp only [room] at h
  exact (BitVec.toNat_ofNat ..).trans (Nat.mod_eq_of_lt (by omega))

theorem room_wrote (h : xs.length ≤ room s) : room (wrote s xs) = room s - xs.length := by
  show s.ports.dstCap.toNat - (appended s xs).ports.dstPos.toNat = _
  rw [dstPos_appended h, ← Nat.sub_sub]; rfl

theorem appended_appended (h : xs.length ≤ room s) (ys : List Byte) :
    appended (appended s xs) ys = appended s (xs ++ ys) := by
  rw [appended, dstPos_appended h]
  simp only [appended, writeBytes_append, List.length_append, Nat.add_assoc]

theorem wrote_wrote (h : xs.length ≤ room s) (ys : List Byte) : wrote (wrote s xs) ys = wrote s (xs ++ ys) := by
  have hswap : wrote (wrote s xs) ys = beaten (beaten (appended (appended s xs) ys) xs.length) ys.length := rfl
  rw [hswap, appended_appended h, beaten_beaten, wrote, List.length_append]

/-- Bytes are appended in order, or as many of them as the sink has room for. -/
theorem sinkBytes_eq (hu : s.undisturbed) (bs : List Byte) :
    sinkBytes bs s = if bs.length ≤ room s then .ok () (wrote s bs) else .raise .io (wrote s (bs.take (room s))) := by
  induction bs generalizing s with
  | nil => simp [sinkBytes, wrote_nil]
  | cons b bs ih =>
    rcases Nat.eq_zero_or_pos (room s) with h0 | h0
    · rw [sinkBytes, sinkByte_full b (Nat.sub_eq_zero_iff_le.mp h0), h0, if_neg (by simp), List.take_zero, wrote_nil]; rfl
    · have hlen : [b].length ≤ room s := h0
      have hone : sinkByte b s = .ok () (wrote s [b]) := sinkByte_undisturbed b hu (Nat.lt_of_sub_pos h0)
      rw [sinkBytes, hone, Result.ok_andThen, ih (hu.wrote _), room_wrote hlen, wrote_wrote hlen, wrote_wrote hlen]
      obtain ⟨r, hr⟩ : ∃ r, room s = r + 1 := ⟨room s - 1, by omega⟩
      simp [hr]

end Sys2Proof.Machine
end

section
/-! FT_ANALYZE, and the commands that reach one count or all (41_frequency_table.md R130 to R133, R139, R140). -/

namespace Sys2Proof.Machine

variable {s : State} {b : Byte} {k : Nat}

/-! ### Occurrence counts -/

theorem occurrences_append (xs ys : List Byte) (x : Symbol) :
    occurrences (xs ++ ys) x = occurrences xs x + occurrences ys x := List.countP_append

theorem occurrences_take_le (xs : List Byte) (k : Nat) (x : Symbol) : occurrences (xs.take k) x ≤ occurrences xs x :=
  (List.take_sublist k xs).countP_le

theorem getElem_occurrenceTable (bytes : List Byte) (x : Symbol) :
    (occurrenceTable bytes)[x.val] = BitVec.ofNat 32 (occurrences bytes x) := Vector.getElem_ofFn ..

theorem occurrenceTable_nil : occurrenceTable [] = Vector.replicate 257 0 := by
  refine Vector.ext fun i hi => ?_
  simp [occurrenceTable, occurrences]

/-- One byte more adds 1 to its symbol's count. -/
theorem occurrenceTable_append_singleton (bytes : List Byte) (b : Byte) :
    occurrenceTable (bytes ++ [b]) =
      (occurrenceTable bytes).set (byteSymbol b).val ((occurrenceTable bytes)[(byteSymbol b).val] + 1) := by
  refine Vector.ext fun i hi => ?_
  simp only [occurrenceTable, Vector.getElem_set, Vector.getElem_ofFn, occurrences_append, BitVec.ofNat_add]
  by_cases h : b.toNat = i <;> simp [byteSymbol, occurrences, h]

/-! ### The scan of FT_ANALYZE -/

/-- The state of the scan after the first `k` source bytes. -/
def counted (s : State) (k : Nat) : State := tabled s (occurrenceTable ((sourceBytes s).take k)) k

theorem counted_zero (s : State) : counted s 0 = clearCounts s := by
  rw [counted, List.take_zero, occurrenceTable_nil, clearCounts_eq_tabled]

theorem State.undisturbed.counted (h : s.undisturbed) (k : Nat) : (counted s k).undisturbed := h

theorem countOf_counted (s : State) (k : Nat) (x : Symbol) :
    countOf (counted s k) x = BitVec.ofNat 32 (occurrences ((sourceBytes s).take k) x) := getElem_occurrenceTable ..

theorem countFull_counted {x : Symbol} (h : occurrences ((sourceBytes s).take k) x ≤ Config.maxCount) (t : Nat) :
    countFull (beaten (counted s k) t) x = true ↔ occurrences ((sourceBytes s).take k) x = Config.maxCount := by
  have hcount : (countOf (beaten (counted s k) t) x).toNat = occurrences ((sourceBytes s).take k) x := by
    refine (congrArg BitVec.toNat (countOf_counted s k x)).trans ?_
    simp only [Config.maxCount] at h
    exact (BitVec.toNat_ofNat ..).trans (Nat.mod_eq_of_lt (by omega))
  rw [countFull_iff, hcount]

theorem addOne_counted (hb : (sourceBytes s)[k]? = some b) :
    addOne (advanceSrc (beaten (counted s k) 1)) (byteSymbol b) = counted s (k + 1) := by
  have htake : (sourceBytes s).take (k + 1) = (sourceBytes s).take k ++ [b] := by rw [List.take_add_one, hb]; rfl
  rw [counted, counted, htake, occurrenceTable_append_singleton, advanceSrc_beaten, taken_tabled]
  -- the rest holds by definition, whatever the table: `rfl` must not evaluate it
  generalize occurrenceTable ((sourceBytes s).take k) = table
  rfl

/-- The scan at byte `k`: it stops where the byte's count is full, and otherwise counts it (41_frequency_table.md R131). -/
theorem analyzeLoop_counted (hu : s.undisturbed) (hb : (sourceBytes s)[k]? = some b) (n : Nat) :
    analyzeLoop (n + 1) (counted s k) =
      if countFull (beaten (counted s k) 1) (byteSymbol b) then .raise .countOverflow (beaten (counted s k) 1)
      else analyzeLoop n (counted s (k + 1)) := by
  obtain ⟨hk, hget⟩ := List.getElem?_eq_some_iff.mp hb
  rw [length_sourceBytes] at hk
  have hleft : bytesLeft (counted s k) = bytesLeft s - k := bytesLeft_tabled _ hk.le
  have hx : ¬exhausted (counted s k) = true := fun h => by rw [exhausted_iff, hleft] at h; omega
  have hbyte : memoryGet (counted s k).src (counted s k).ports.srcPos.toNat = b := by
    have hpos : (counted s k).ports.srcPos.toNat = s.ports.srcPos.toNat + k := srcPos_taken hk.le
    rw [hpos, ← hget, getElem_sourceBytes]; rfl
  rw [analyzeLoop, if_neg hx, memRead_undisturbed _ (hu.counted k), Result.ok_andThen, hbyte, addOne_counted hb]

/-- The scan goes past bytes whose counts do not overflow. -/
theorem analyzeLoop_steps (hu : s.undisturbed) (hk : k ≤ bytesLeft s)
    (hc : ∀ x : Symbol, occurrences ((sourceBytes s).take k) x ≤ Config.maxCount) :
    analyzeLoop (bytesLeft s) (counted s 0) = analyzeLoop (bytesLeft s - k) (counted s k) := by
  induction k with
  | zero => rfl
  | succ k ih =>
    obtain ⟨b, hb⟩ : ∃ b, (sourceBytes s)[k]? = some b := ⟨_, List.getElem?_eq_getElem (by rwa [length_sourceBytes])⟩
    have hsplit (x : Symbol) : occurrences ((sourceBytes s).take (k + 1)) x =
        occurrences ((sourceBytes s).take k) x + occurrences [b] x := by
      rw [List.take_add_one, hb, occurrences_append]; rfl
    have hle (x : Symbol) : occurrences ((sourceBytes s).take k) x ≤ Config.maxCount := by
      have := hc x; rw [hsplit] at this; omega
    have hroom : occurrences ((sourceBytes s).take k) (byteSymbol b) ≠ Config.maxCount := by
      have hone : occurrences [b] (byteSymbol b) = 1 := by simp [occurrences, byteSymbol]
      have := hc (byteSymbol b); rw [hsplit, hone] at this; omega
    rw [ih (by omega) hle, show bytesLeft s - k = bytesLeft s - (k + 1) + 1 by omega, analyzeLoop_counted hu hb,
      if_neg (by rwa [countFull_counted (hle _)])]

theorem analyzeBody_eq (hu : s.undisturbed) (hk : k ≤ bytesLeft s)
    (hc : ∀ x : Symbol, occurrences ((sourceBytes s).take k) x ≤ Config.maxCount) :
    analyzeBody s = analyzeLoop (bytesLeft s - k) (counted s k) := by
  rw [analyzeBody, ← counted_zero, analyzeLoop_steps hu hk hc]

/-- Settles O24: the scan goes past all source bytes (`analyzeBody_eq`). -/
theorem ftAnalyzeCountsTheSourceBytes : Obligations.FtAnalyzeCountsTheSourceBytes := by
  intro s hq hp hc
  have hall : (sourceBytes s).take (bytesLeft s) = sourceBytes s := by rw [← length_sourceBytes, List.take_length]
  have hbody : analyzeBody (startSteps 0x11 s) = .ok () (counted (startSteps 0x11 s) (bytesLeft s)) := by
    rw [analyzeBody_eq (s := startSteps 0x11 s) hq.undisturbed le_rfl fun x => (occurrences_take_le _ _ x).trans (hc x),
      Nat.sub_self]
    rfl
  have hend : endSteps (counted (startSteps 0x11 s) (bytesLeft s)) =
      afterSuccess 0x11 (consumed { s with counts := occurrenceTable ((sourceBytes s).take (bytesLeft s)) } (bytesLeft s)) := rfl
  rw [hall] at hend
  exact command_ok hp hbody hq.unstopped hend

/-- Settles O25: the scan goes past the first `k` bytes (`analyzeBody_eq`) and stops at byte `k` (`analyzeLoop_counted`). -/
theorem ftAnalyzeStopsAtTheOverflowingByte : Obligations.FtAnalyzeStopsAtTheOverflowingByte := by
  intro s k b hq hp hb hc hfull
  have hk : k < bytesLeft s := length_sourceBytes s ▸ (List.getElem?_eq_some_iff.mp hb).1
  have hleft : bytesLeft (startSteps 0x11 s) - k = bytesLeft s - (k + 1) + 1 := by
    change bytesLeft s - k = _
    omega
  have hbody : analyzeBody (startSteps 0x11 s) = .raise .countOverflow (beaten (counted (startSteps 0x11 s) k) 1) := by
    rw [analyzeBody_eq (s := startSteps 0x11 s) hq.undisturbed hk.le hc, hleft,
      analyzeLoop_counted (s := startSteps 0x11 s) hq.undisturbed hb,
      if_pos ((countFull_counted (s := startSteps 0x11 s) (hc _) 1).mpr hfull)]
  exact command_raise .countOverflow hp hbody hq.unstopped rfl

/-! ### The commands that reach one count or all -/

/-- Settles O23: FT_CLEAR is `clearCounts`, and the terminator's count is full at MAX_COUNT (`countFull_iff`). -/
theorem ftClearAndFtAddTerminatorSetTheCounts : Obligations.FtClearAndFtAddTerminatorSetTheCounts := by
  intro s hq hp
  refine ⟨command_ok hp rfl hq.unstopped rfl, ?_⟩
  have hfull : countFull (startSteps 0x12 s) terminator = true ↔ s.counts[256].toNat = 0x7FFFFFFE := countFull_iff ..
  split_ifs with h
  · exact command_raise .countOverflow hp (if_pos (hfull.mpr h)) hq.unstopped rfl
  · exact command_ok hp (if_neg (hfull.not.mpr h)) hq.unstopped rfl

/-- Settles O30: the operand is a symbol up to 256 (`symbolCommand_eq`), and FT_WRITE looks at DATA_IN. -/
theorem ftReadAndFtWriteReachOneCount : Obligations.FtReadAndFtWriteReachOneCount := by
  intro s arg hq hp
  refine ⟨(symbolCommand_eq 0x15 arg _ hq).trans ?_, (symbolCommand_eq 0x16 arg _ hq).trans ?_⟩
  · split_ifs
    · exact command_ok hp rfl hq.unstopped rfl
    · rfl
  · split_ifs with _ hd
    · exact command_raise .countOverflow hp (if_pos hd) hq.unstopped rfl
    · exact command_ok hp (if_neg hd) hq.unstopped rfl
    · rfl

end Sys2Proof.Machine
end

section
/-! FT_SERIALIZE and the delimiter (41_frequency_table.md R134, R135). -/

namespace Sys2Proof.Machine

variable {counts : Vector Word 257} {s : State}

/-! ### The delimiter -/

theorem foldr_max_eq_zero_or_mem (xs : List Nat) : xs.foldr max 0 = 0 ∨ xs.foldr max 0 ∈ xs := by
  induction xs with
  | nil => exact Or.inl rfl
  | cons x xs ih =>
    rw [List.foldr_cons, List.mem_cons]
    rcases max_choice x (xs.foldr max 0) with h | h <;> rw [h]
    · exact Or.inr (Or.inl rfl)
    · exact ih.imp id Or.inr

theorem le_largestCount (counts : Vector Word 257) (x : Symbol) : counts[x.val].toNat ≤ largestCount counts :=
  List.le_max_of_le' 0 (List.mem_map.mpr ⟨x, List.mem_finRange x, rfl⟩) le_rfl

theorem largestCount_eq_zero_or_count (counts : Vector Word 257) :
    largestCount counts = 0 ∨ ∃ x : Symbol, counts[x.val].toNat = largestCount counts := by
  refine (foldr_max_eq_zero_or_mem _).imp id fun h => ?_
  obtain ⟨x, _, hx⟩ := List.mem_map.mp h
  exact ⟨x, hx⟩

theorem largestCount_le (h : countsLegal counts) : largestCount counts ≤ Config.maxCount := by
  rcases largestCount_eq_zero_or_count counts with h0 | ⟨x, hx⟩
  · rw [h0]; exact Nat.zero_le _
  · exact hx ▸ h x

theorem toList_eq_map_allSymbols (counts : Vector Word 257) : counts.toList = allSymbols.map fun x => counts[x.val] :=
  List.ext_getElem (by simp [allSymbols]) fun i _ _ => by simp [allSymbols]

theorem tableMax_eq (counts : Vector Word 257) : tableMax counts = largestCount counts := by
  rw [tableMax, largestCount, ← List.foldl_eq_foldr, toList_eq_map_allSymbols, List.foldl_map, List.foldl_map]

theorem delimiterOf_eq (counts : Vector Word 257) : delimiterOf counts = BitVec.ofNat 32 (largestCount counts + 1) := by
  rw [delimiterOf, tableMax_eq]

theorem delimiterOf_toNat (h : countsLegal counts) : (delimiterOf counts).toNat = largestCount counts + 1 := by
  have hle := largestCount_le h
  simp only [Config.maxCount] at hle
  rw [delimiterOf_eq]
  exact (BitVec.toNat_ofNat ..).trans (Nat.mod_eq_of_lt (by omega))

/-! ### The serialized table -/

@[simp] theorem length_littleEndianBytes (width v : Nat) : (littleEndianBytes width v).length = width := by
  simp [littleEndianBytes]

theorem littleEndianBytes_succ (width v : Nat) :
    littleEndianBytes (width + 1) v = BitVec.ofNat 8 v :: littleEndianBytes width (v / 256) := by
  simp [littleEndianBytes, List.range_succ_eq_map, Nat.div_div_eq_div_mul, pow_succ']

/-- A byte of a 32-bit pattern, or of a 16-bit one, is a byte of the number it is the pattern of. -/
theorem extractLsb'_byte (n k w : Nat) (h : 8 * k + 8 ≤ w) :
    (BitVec.ofNat w n).extractLsb' (8 * k) 8 = BitVec.ofNat 8 (n / 256 ^ k) := by
  refine BitVec.eq_of_getLsbD_eq fun i hi => ?_
  have hpow : 256 ^ k = 2 ^ (8 * k) := by rw [pow_mul]; rfl
  simp only [BitVec.getLsbD_extractLsb', BitVec.getLsbD_ofNat, hpow, Nat.testBit_div_two_pow]
  simp [hi, show i + 8 * k < w by omega, Nat.add_comm]

theorem bytesLE32_ofNat (n : Nat) : bytesLE32 (BitVec.ofNat 32 n) = littleEndianBytes 4 n :=
  List.map_congr_left (l := List.range 4) fun k hk => extractLsb'_byte n k 32 (by rw [List.mem_range] at hk; omega)

theorem bytesLE32_eq (v : Word) : bytesLE32 v = littleEndianBytes 4 v.toNat := by
  rw [← bytesLE32_ofNat, BitVec.ofNat_toNat, BitVec.setWidth_eq]

theorem bytesLE16_ofNat (n : Nat) : bytesLE16 (BitVec.ofNat 16 n) = littleEndianBytes 2 n :=
  List.map_congr_left (l := List.range 2) fun k hk => extractLsb'_byte n k 16 (by rw [List.mem_range] at hk; omega)

/-- A pair of the serialized table (30_encoding.md R97). -/
def pairBytes (counts : Vector Word 257) (x : Symbol) : List Byte :=
  littleEndianBytes 4 counts[x.val].toNat ++ littleEndianBytes 2 x.val

theorem serializedTable_eq (counts : Vector Word 257) :
    serializedTable counts = bytesLE32 (delimiterOf counts) ++
      ((presentSymbols counts).flatMap (pairBytes counts) ++ bytesLE32 (delimiterOf counts)) := by
  rw [delimiterOf_eq, bytesLE32_ofNat, ← List.append_assoc]; rfl

theorem length_serializedTable (counts : Vector Word 257) :
    (serializedTable counts).length = 8 + 6 * (presentSymbols counts).length := by
  simp [serializedTable, List.length_flatMap]; omega

/-- Writing to the sink leaves the counts, which FT_SERIALIZE reads all along. -/
theorem sinkBytes_keeps_counts (bs : List Byte) (s : State) : (sinkBytes bs s).meets (fun t => t.counts = s.counts) True False :=
  sinkBytes_meets ⟨fun _ _ h => h, fun _ _ _ h => h, fun _ _ => Or.inl trivial⟩ (fun _ _ _ h => h) bs rfl

theorem serializePairs_eq (xs : List Symbol) (s : State) :
    serializePairs xs s = sinkBytes ((xs.filter fun x => s.counts[x.val] != 0).flatMap (pairBytes s.counts)) s := by
  induction xs generalizing s with
  | nil => rfl
  | cons x xs ih =>
    by_cases hx : countOf s x = 0
    · have hx' : ¬(s.counts[x.val] != 0) = true := by simpa [countOf] using hx
      rw [serializePairs, if_pos hx, List.filter_cons, if_neg hx', ih]
    · have hx' : (s.counts[x.val] != 0) = true := by simpa [countOf] using hx
      rw [serializePairs, if_neg hx, List.filter_cons, if_pos hx', List.flatMap_cons, sinkBytes_append, pairBytes, sinkBytes_append,
        Result.andThen_assoc, putU32le, bytesLE32_eq]
      refine Result.andThen_congr (sinkBytes_keeps_counts _ s) fun _ t ht => ?_
      rw [putU16le, bytesLE16_ofNat]
      refine Result.andThen_congr (sinkBytes_keeps_counts _ t) fun _ u hu => ?_
      rw [ih, hu, ht]

/-- FT_SERIALIZE writes the serialized table to the sink, byte by byte. -/
theorem serializeBody_eq (s : State) : serializeBody s = sinkBytes (serializedTable s.counts) s := by
  rw [serializedTable_eq, sinkBytes_append]
  refine Result.andThen_congr (sinkBytes_keeps_counts _ s) fun _ t ht => ?_
  rw [serializePairs_eq, ht, sinkBytes_append]
  rfl

/-- Settles O26: the body is the writing of the table's bytes (`serializeBody_eq`), as far as the sink has room (`sinkBytes_eq`). -/
theorem ftSerializeWritesTheTable : Obligations.FtSerializeWritesTheTable := by
  intro s hq hp _
  have hbody := (serializeBody_eq (startSteps 0x13 s)).trans (sinkBytes_eq (s := startSteps 0x13 s) hq.undisturbed _)
  split_ifs with h
  · exact command_ok hp (hbody.trans (if_pos h)) hq.unstopped rfl
  · exact command_raise .io hp (hbody.trans (if_neg h)) hq.unstopped rfl

/-- Settles O27: the delimiter is the largest count plus 1 (`delimiterOf_toNat`). -/
theorem delimiterExceedsEveryCount : Obligations.DelimiterExceedsEveryCount := by
  intro counts h
  have hmax := largestCount_le h
  simp only [Config.maxCount] at hmax
  rw [delimiterOf_toNat h]
  refine ⟨?_, fun x => Nat.lt_succ_of_le (le_largestCount counts x), by omega, ?_⟩
  · rw [serializedTable_eq]; exact List.take_left' rfl
  · refine (largestCount_eq_zero_or_count counts).imp (by omega) ?_
    rintro ⟨x, hx⟩
    exact ⟨x, by omega⟩

end Sys2Proof.Machine
end

section
/-! FT_DESERIALIZE (41_frequency_table.md R136). -/

namespace Sys2Proof.Machine

variable {s : State} {bs : List Byte}

/-! ### Reading pairs, step by step -/

theorem bytesValue_lt (bs : List Byte) : bytesValue bs < 256 ^ bs.length := by
  induction bs with
  | nil => simp [bytesValue]
  | cons b bs ih =>
    have hb := b.isLt
    simp only [bytesValue, List.foldr_cons, List.length_cons, pow_succ] at ih ⊢
    omega

theorem fieldSymbol_val (x : Symbol) : fieldSymbol (x.val : Int) = some x := by
  unfold fieldSymbol
  rw [dif_pos ⟨by simp, by omega⟩]
  rfl

/-- The symbol of a signed field is that of its bytes: a negative field stands for bytes of at least 2^15. -/
theorem fieldSymbol_signedValue (s0 s1 : Byte) :
    fieldSymbol (signedValue [s0, s1]) =
      if h : bytesValue [s0, s1] ≤ 256 then some ⟨bytesValue [s0, s1], by omega⟩ else none := by
  have hlt : bytesValue [s0, s1] < 65536 := by simpa using bytesValue_lt [s0, s1]
  have hsigned : signedValue [s0, s1] =
      if 2 * bytesValue [s0, s1] < 65536 then (bytesValue [s0, s1] : Int) else bytesValue [s0, s1] - 65536 := by
    simp [signedValue]
  rw [hsigned]
  by_cases hv : bytesValue [s0, s1] ≤ 256
  · rw [if_pos (by omega), dif_pos hv]
    exact fieldSymbol_val ⟨bytesValue [s0, s1], by omega⟩
  · rw [dif_neg hv, fieldSymbol, dif_neg]
    split_ifs <;> omega

theorem readPairs_short (d : Int) (table : Vector Word 257) (k : Nat) (h : bs.length < 4) :
    readPairs d bs table k = (false, table, k + bs.length) := by
  rcases bs with _ | ⟨b0, _ | ⟨b1, _ | ⟨b2, _ | ⟨b3, rest⟩⟩⟩⟩
  case cons.cons.cons.cons => simp at h; omega
  all_goals rfl

/-- One round of the loop of R136: the delimiter, a count out of range, a field cut short, no symbol, or a pair stored. -/
theorem readPairs_eq (d : Int) (table : Vector Word 257) (k : Nat) (h : 4 ≤ bs.length) :
    readPairs d bs table k =
      if signedValue (bs.take 4) = d then (true, table, k + 4)
      else if signedValue (bs.take 4) < 0 ∨ (Config.maxCount : Int) < signedValue (bs.take 4) then (false, table, k + 4)
      else if bs.length < 6 then (false, table, k + bs.length)
      else (fieldSymbol (signedValue ((bs.drop 4).take 2))).elim (false, table, k + 6) fun x =>
        readPairs d (bs.drop 6) (table.set x.val (BitVec.ofInt 32 (signedValue (bs.take 4)))) (k + 6) := by
  obtain ⟨b0, b1, b2, b3, rest, rfl⟩ : ∃ b0 b1 b2 b3 rest, bs = b0 :: b1 :: b2 :: b3 :: rest := by
    rcases bs with _ | ⟨b0, _ | ⟨b1, _ | ⟨b2, _ | ⟨b3, rest⟩⟩⟩⟩
    case cons.cons.cons.cons => exact ⟨b0, b1, b2, b3, rest, rfl⟩
    all_goals simp at h
  rcases rest with _ | ⟨s0, _ | ⟨s1, rest⟩⟩
  · rfl
  · rfl
  · have hlen : ¬(b0 :: b1 :: b2 :: b3 :: s0 :: s1 :: rest).length < 6 := by simp
    rw [if_neg hlen, readPairs]
    simp only [List.take_succ_cons, List.take_zero, List.drop_succ_cons, List.drop_zero, fieldSymbol_signedValue]
    by_cases hx : bytesValue [s0, s1] ≤ 256 <;> simp [hx]

/-! ### The loop of FT_DESERIALIZE -/

/-- What the body comes to where reading pairs from `s` on comes to `r`. -/
def deserialized (s : State) (r : Bool × Vector Word 257 × Nat) : Result Unit :=
  if r.1 then .ok () (tabled s r.2.1 r.2.2) else .raise .format (tabled s r.2.1 r.2.2)

theorem deserializeLoop_eq (hu : s.undisturbed) (d : Int) {n k : Nat} (table : Vector Word 257) (hk : k ≤ bytesLeft s)
    (hn : bytesLeft s ≤ k + n) :
    deserializeLoop d n (tabled s table k) = deserialized s (readPairs d ((sourceBytes s).drop k) table k) := by
  have hlen (j : Nat) : ((sourceBytes s).drop j).length = bytesLeft s - j := by simp
  induction n generalizing table k with
  | zero =>
    rw [readPairs_short d table k (by rw [hlen]; omega), hlen, show k + (bytesLeft s - k) = k by omega]; rfl
  | succ n ih =>
    rw [deserializeLoop, getS32le_eq .format (hu.tabled table k), bytesLeft_tabled table hk, sourceBytes_tabled table hk,
      taken_tabled, taken_tabled]
    by_cases h4 : 4 ≤ bytesLeft s - k
    · rw [if_pos h4, Result.ok_andThen, readPairs_eq d table k (by rw [hlen]; exact h4)]
      split_ifs with hd hc h6
      · rfl
      · rfl
      · rw [getS16le_eq .format (hu.tabled ..), bytesLeft_tabled table (by omega), if_neg (by rw [hlen] at h6; omega), taken_tabled,
          hlen, show k + 4 + (bytesLeft s - (k + 4)) = k + (bytesLeft s - k) by omega]
        rfl
      · rw [hlen] at h6
        rw [getS16le_eq .format (hu.tabled ..), bytesLeft_tabled table (by omega), sourceBytes_tabled table (by omega),
          if_pos (by omega), taken_tabled, Result.ok_andThen, List.drop_drop, List.drop_drop]
        cases fieldSymbol (signedValue (((sourceBytes s).drop (k + 4)).take 2)) with
        | none => rfl
        | some x => exact ih _ (by omega) (by omega)
    · rw [if_neg h4, readPairs_short d table k (by rw [hlen]; omega), hlen]; rfl

/-- FT_DESERIALIZE reads the table that the source bytes hold. -/
theorem deserializeBody_eq (hu : s.undisturbed) : deserializeBody s = deserialized s (readTable (sourceBytes s)) := by
  rw [deserializeBody, clearCounts_eq_tabled, getS32le_eq .format (hu.tabled ..), bytesLeft_tabled _ (Nat.zero_le _),
    sourceBytes_tabled _ (Nat.zero_le _), taken_tabled, taken_tabled, readTable, length_sourceBytes]
  by_cases h4 : bytesLeft s < 4
  · rw [if_neg (by omega), if_pos h4]
    simp only [Nat.sub_zero, Nat.zero_add]
    rfl
  · rw [if_pos (by omega), if_neg h4, Result.ok_andThen, bytesLeft_tabled _ (by omega),
      deserializeLoop_eq hu _ _ (by omega) (by omega)]
    rfl

/-- Settles O28: `deserializeBody_eq`. -/
theorem ftDeserializeReadsTheTable : Obligations.FtDeserializeReadsTheTable := by
  intro s hq hp
  have hbody := deserializeBody_eq (s := startSteps 0x14 s) hq.undisturbed
  by_cases h : (readTable (sourceBytes s)).1 = true
  · exact (command_ok hp (hbody.trans (if_pos h)) hq.unstopped rfl).trans (if_pos h).symm
  · exact (command_raise .format hp (hbody.trans (if_neg h)) hq.unstopped rfl).trans (if_neg h).symm

end Sys2Proof.Machine
end

section
/-! What FT_SERIALIZE writes, FT_DESERIALIZE reads back (41_frequency_table.md R137, R138). -/

namespace Sys2Proof.Machine

variable {counts table : Vector Word 257}

theorem bytesValue_littleEndianBytes (width v : Nat) : bytesValue (littleEndianBytes width v) = v % 256 ^ width := by
  induction width generalizing v with
  | zero => simp [littleEndianBytes, bytesValue, Nat.mod_one]
  | succ width ih =>
    have hcons (b : Byte) (bs : List Byte) : bytesValue (b :: bs) = b.toNat + 256 * bytesValue bs := rfl
    rw [littleEndianBytes_succ, hcons, ih, BitVec.toNat_ofNat, pow_succ' 256]
    exact Nat.mod_mul.symm

/-- A number is read back, as signed, where it is below half the range. -/
theorem signedValue_littleEndianBytes {width v : Nat} (h : 2 * v < 256 ^ width) :
    signedValue (littleEndianBytes width v) = v := by
  rw [signedValue, bytesValue_littleEndianBytes, length_littleEndianBytes, Nat.mod_eq_of_lt (by omega), if_pos h]

/-- A pair of a legal table is stored, its count being no delimiter. -/
theorem readPairs_pair {d : Int} {x : Symbol} (hc : counts[x.val].toNat ≤ Config.maxCount) (hd : (counts[x.val].toNat : Int) ≠ d)
    (rest : List Byte) (k : Nat) :
    readPairs d (pairBytes counts x ++ rest) table k = readPairs d rest (table.set x.val counts[x.val]) (k + 6) := by
  have htake : (pairBytes counts x ++ rest).take 4 = littleEndianBytes 4 counts[x.val].toNat := by
    rw [pairBytes, List.append_assoc]; exact List.take_left' (length_littleEndianBytes ..)
  have hsym : ((pairBytes counts x ++ rest).drop 4).take 2 = littleEndianBytes 2 x.val := by
    rw [pairBytes, List.append_assoc, List.drop_left' (length_littleEndianBytes ..)]
    exact List.take_left' (length_littleEndianBytes ..)
  have hlen : (pairBytes counts x).length = 6 := by simp [pairBytes]
  have hx := x.isLt
  simp only [Config.maxCount] at hc
  rw [readPairs_eq d table k (by rw [List.length_append, hlen]; omega), htake, hsym, signedValue_littleEndianBytes (by omega),
    signedValue_littleEndianBytes (by omega), if_neg hd, if_neg (by simp only [Config.maxCount]; omega), if_neg (by simp [hlen]),
    fieldSymbol_val, List.drop_left' hlen]
  simp

/-- The terminating delimiter ends the reading. -/
theorem readPairs_delimiter {v : Nat} (hv : 2 * v < 2 ^ 32) (rest : List Byte) (k : Nat) :
    readPairs v (littleEndianBytes 4 v ++ rest) table k = (true, table, k + 4) := by
  rw [readPairs_eq _ _ _ (by simp), List.take_left' (length_littleEndianBytes ..), signedValue_littleEndianBytes hv, if_pos rfl]

/-- A table with the counts of some symbols copied into it. -/
def copyCounts (counts : Vector Word 257) (xs : List Symbol) (table : Vector Word 257) : Vector Word 257 :=
  xs.foldl (fun t x => t.set x.val counts[x.val]) table

theorem getElem_copyCounts (xs : List Symbol) (table : Vector Word 257) (y : Symbol) :
    (copyCounts counts xs table)[y.val] = if y ∈ xs then counts[y.val] else table[y.val] := by
  induction xs generalizing table with
  | nil => simp [copyCounts]
  | cons x xs ih =>
    rw [copyCounts, List.foldl_cons, ← copyCounts, ih, Vector.getElem_set]
    by_cases hxy : x = y
    · subst hxy; simp
    · have hval : x.val ≠ y.val := fun h => hxy (Fin.ext h)
      simp [hval, Ne.symm hxy]

/-- The counts of the present symbols are the whole table. -/
theorem copyCounts_presentSymbols (counts : Vector Word 257) :
    copyCounts counts (presentSymbols counts) (Vector.replicate 257 0) = counts := by
  refine Vector.ext fun i hi => ?_
  have h := getElem_copyCounts (counts := counts) (presentSymbols counts) (Vector.replicate 257 0) ⟨i, hi⟩
  have hmem : (⟨i, hi⟩ : Symbol) ∈ presentSymbols counts ↔ counts[i] ≠ 0 := by
    simp [presentSymbols, allSymbols]
  refine h.trans ?_
  split_ifs with hx
  · rfl
  · have h0 : counts[i] = 0 := not_not.mp (hmem.not.mp hx)
    rw [Vector.getElem_replicate, h0]

theorem readPairs_pairs {d : Int} (hc : countsLegal counts) (hd : ∀ x : Symbol, (counts[x.val].toNat : Int) ≠ d) (xs : List Symbol)
    (rest : List Byte) (table : Vector Word 257) (k : Nat) :
    readPairs d (xs.flatMap (pairBytes counts) ++ rest) table k = readPairs d rest (copyCounts counts xs table) (k + 6 * xs.length) := by
  induction xs generalizing table k with
  | nil => rfl
  | cons x xs ih =>
    rw [List.flatMap_cons, List.append_assoc, readPairs_pair (hc x) (hd x), ih, List.length_cons,
      show k + 6 + 6 * xs.length = k + 6 * (xs.length + 1) by omega]
    rfl

/-- A legal table is read back from its serialization, whatever bytes follow. -/
theorem readTable_serializedTable (h : countsLegal counts) (extra : List Byte) :
    readTable (serializedTable counts ++ extra) = (true, counts, (serializedTable counts).length) := by
  have hmax := largestCount_le h
  simp only [Config.maxCount] at hmax
  have hd (x : Symbol) : (counts[x.val].toNat : Int) ≠ (largestCount counts + 1 : Nat) := by
    have := le_largestCount counts x; omega
  have hbytes : serializedTable counts ++ extra = littleEndianBytes 4 (largestCount counts + 1) ++
      ((presentSymbols counts).flatMap (pairBytes counts) ++ (littleEndianBytes 4 (largestCount counts + 1) ++ extra)) := by
    rw [serializedTable_eq, delimiterOf_eq, bytesLE32_ofNat]; simp only [List.append_assoc]
  rw [length_serializedTable, hbytes, readTable, if_neg (by simp), List.take_left' (length_littleEndianBytes ..),
    List.drop_left' (length_littleEndianBytes ..), signedValue_littleEndianBytes (by omega), readPairs_pairs h hd,
    readPairs_delimiter (by omega), copyCounts_presentSymbols,
    show 4 + 6 * (presentSymbols counts).length + 4 = 8 + 6 * (presentSymbols counts).length by omega]

/-- The sink's new bytes, read where they were appended. -/
theorem memoryGet_appended (s : State) (bs : List Byte) :
    (List.range bs.length).map (fun k => memoryGet (appended s bs).dst (s.ports.dstPos.toNat + k)) = bs := by
  refine List.ext_getElem (by simp) fun k _ hk => ?_
  simp [appended, memoryGet_writeBytes, hk]

/-- Settles O29: FT_SERIALIZE appends the serialized table (O26), which the source bytes then start with, and FT_DESERIALIZE reads what
they hold (O28), which is the table (`readTable_serializedTable`). -/
theorem serializedTableDeserializesToItself : Obligations.SerializedTableDeserializesToItself := by
  intro s hq hp hc hroom
  rw [← length_serializedTable] at hroom ⊢
  refine ⟨_, (ftSerializeWritesTheTable s hq hp hc).trans (if_pos hroom), dstPos_appended hroom, ?_⟩
  intro u extra hqu hpu hsrc
  have hbytes : sourceBytes u = serializedTable s.counts ++ extra := by
    rw [hsrc]; exact congrArg (· ++ extra) (memoryGet_appended s _)
  refine (ftDeserializeReadsTheTable u hqu hpu).trans ?_
  rw [hbytes, readTable_serializedTable hc]
  rfl

end Sys2Proof.Machine
end

section
/-! The order in which TB_BUILD removes nodes: least weight first, at equal weights least index (42_tree_builder.md R161). -/

namespace Sys2Proof.Machine

variable {arena : List Node} {q q' : List Nat} {a i j : Nat}

/-- The key of an entry: its weight, then its index (42_tree_builder.md R161). -/
def nodeKey (arena : List Node) (i : Nat) : ℕ ×ₗ ℕ := toLex (weightAt arena i, i)

theorem nodeKey_lt_iff : nodeKey arena i < nodeKey arena j ↔
    weightAt arena i < weightAt arena j ∨ weightAt arena i = weightAt arena j ∧ i < j := Prod.Lex.toLex_lt_toLex

theorem nodeKey_inj : nodeKey arena i = nodeKey arena j ↔ i = j :=
  ⟨fun h => congrArg (fun k => (ofLex k).2) h, fun h => congrArg _ h⟩

theorem keyBelow_iff : keyBelow arena i j = true ↔ nodeKey arena i < nodeKey arena j := by
  rw [nodeKey_lt_iff]
  simp [keyBelow]

/-- `a` is the element of the collection with the least key. -/
def HasLeastKey (arena : List Node) (q : List Nat) (a : Nat) : Prop := a ∈ q ∧ ∀ j ∈ q, nodeKey arena a ≤ nodeKey arena j

theorem leastOf_le (arena : List Node) (i : Nat) (q : List Nat) :
    ∀ j ∈ i :: q, nodeKey arena (leastOf arena i q) ≤ nodeKey arena j := by
  induction q generalizing i with
  | nil => simp [leastOf]
  | cons k q ih =>
    rw [leastOf]
    have hrest := List.forall_mem_cons.mp (ih (if keyBelow arena k i then k else i))
    have hmin : nodeKey arena (if keyBelow arena k i then k else i) ≤ nodeKey arena i ∧
        nodeKey arena (if keyBelow arena k i then k else i) ≤ nodeKey arena k := by
      split_ifs with h <;> rw [keyBelow_iff] at h
      · exact ⟨h.le, le_rfl⟩
      · exact ⟨le_rfl, not_lt.mp h⟩
    simp only [List.forall_mem_cons]
    exact ⟨hrest.1.trans hmin.1, hrest.1.trans hmin.2, hrest.2⟩

theorem takeLeast_least (h : takeLeast arena q = some (a, q')) : HasLeastKey arena q a ∧ q' = q.erase a := by
  obtain ⟨ha, hq⟩ := takeLeast_some h
  refine ⟨⟨ha, ?_⟩, hq⟩
  cases q with
  | nil => simp at ha
  | cons i rest =>
    simp only [takeLeast, Option.some.injEq, Prod.mk.injEq] at h
    exact h.1 ▸ leastOf_le arena i rest

/-- What each pass of the loop of TB_BUILD keeps, the loop keeps. -/
theorem joinLoop_keeps {P : List Nat → List Node → Prop}
    (hpass : ∀ q arena a b, P q arena → HasLeastKey arena q a → HasLeastKey arena (q.erase a) b →
      P ((q.erase a).erase b ++ [arena.length]) (arena ++ [joinNodes arena a b]))
    (n : Nat) (q : List Nat) (arena : List Node) (h : P q arena) : P (joinLoop n q arena).1 (joinLoop n q arena).2 := by
  induction n generalizing q arena with
  | zero => exact h
  | succ n ih =>
    unfold joinLoop
    cases h1 : takeLeast arena q with
    | none => exact h
    | some p =>
      obtain ⟨a, q1⟩ := p
      obtain ⟨ha, rfl⟩ := takeLeast_least h1
      dsimp only
      cases h2 : takeLeast arena (q.erase a) with
      | none => exact h
      | some p =>
        obtain ⟨b, q2⟩ := p
        obtain ⟨hb, rfl⟩ := takeLeast_least h2
        exact ih _ _ (hpass q arena a b h ha hb)

end Sys2Proof.Machine
end

section
/-! The nodes that TB_BUILD joins, and their weights, pass by pass (42_tree_builder.md R161, R163, R165). -/

namespace Sys2Proof.Machine

variable {leaves arena : List Node} {q : List Nat} {a b i j : Nat} {w : BitVec 40} {l r : BitVec 10}

/-! ### The weights of the collection -/

theorem weightAt_append_left (arena' : List Node) (h : i < arena.length) : weightAt (arena ++ arena') i = weightAt arena i := by
  rw [weightAt, List.getElem?_append_left h, weightAt]

theorem weightAt_append_length (x : Node) : weightAt (arena ++ [x]) arena.length = (nodeWeight x).toNat := by
  simp [weightAt]

theorem weightAt_take (h : i < j) : weightAt (arena.take j) i = weightAt arena i := by
  rw [weightAt, List.getElem?_take, if_pos h, weightAt]

/-- The weights of the entries in a collection, summed. -/
def weightSum (arena : List Node) (q : List Nat) : Nat := (q.map (weightAt arena)).sum

theorem weightSum_erase (ha : a ∈ q) : weightAt arena a + weightSum arena (q.erase a) = weightSum arena q :=
  List.sum_map_erase _ ha

/-- The two weights removed and the weights that stay make up the whole. -/
theorem weightSum_erase_erase (ha : a ∈ q) (hb : b ∈ q.erase a) :
    weightAt arena a + weightAt arena b + weightSum arena ((q.erase a).erase b) = weightSum arena q := by
  rw [add_assoc, weightSum_erase hb, weightSum_erase ha]

/-- Before the first pass the collection holds the leaves, each once. -/
theorem weightSum_range (leaves : List Node) :
    weightSum leaves (List.range leaves.length) = (leaves.map fun x => (nodeWeight x).toNat).sum := by
  refine congrArg List.sum (List.ext_getElem (by simp) fun i _ hi => ?_)
  rw [List.length_map] at hi
  simp [weightAt, hi]

/-! ### Free entries -/

/-- An entry that is no child of an internal node. -/
def IsFree (arena : List Node) (j : Nat) : Prop :=
  j < arena.length ∧ ∀ (k : Nat) (w : BitVec 40) (l r : BitVec 10),
    arena[k]? = some (.internal w l r) → l.toNat ≠ j ∧ r.toNat ≠ j

theorem isFree_take_iff (h : i ≤ arena.length) : IsFree (arena.take i) j ↔
    j < i ∧ ∀ (k : Nat) (w : BitVec 40) (l r : BitVec 10), k < i →
      arena[k]? = some (.internal w l r) → l.toNat ≠ j ∧ r.toNat ≠ j := by
  simp [IsFree, List.getElem?_take, h]

/-- What was free and is no child of the new node is still free, and so is the new node; nothing else is. -/
theorem IsFree.of_append (h : IsFree (arena ++ [.internal w l r]) j) :
    j = arena.length ∨ IsFree arena j ∧ j ≠ l.toNat ∧ j ≠ r.toNat := by
  obtain ⟨hj, hkids⟩ := h
  obtain ⟨hl, hr⟩ := hkids arena.length w l r (by simp)
  rw [List.length_append, List.length_singleton] at hj
  refine (Nat.lt_succ_iff_lt_or_eq.mp hj).symm.imp id fun hj => ⟨⟨hj, fun k w' l' r' hk => ?_⟩, hl.symm, hr.symm⟩
  obtain ⟨hlt, -⟩ := List.getElem?_eq_some_iff.mp hk
  exact hkids k w' l' r' (by rwa [List.getElem?_append_left hlt])

theorem JoinInv.isFree (h : JoinInv leaves q arena) (hj : j ∈ q) : IsFree arena j := by
  refine ⟨h.bound j hj, fun k w l r hk => ?_⟩
  have hchild (c : BitVec 10) (hc : c ∈ (Node.internal w l r).children) : c.toNat ≠ j := by
    rintro rfl
    refine h.fresh _ hj ?_
    rw [BitVec.ofNat_toNat, BitVec.setWidth_eq]
    exact List.mem_flatMap.mpr ⟨_, List.mem_of_getElem? hk, hc⟩
  exact ⟨hchild l (by simp [Node.children]), hchild r (by simp [Node.children])⟩

theorem JoinInv.length_arena (h : JoinInv leaves q arena) : arena.length + q.length = 2 * leaves.length := by
  obtain ⟨joins, rfl, -, hlen⟩ := h.split
  rw [List.length_append]
  omega

/-- An index in the collection fits the 10 bits of a child. -/
theorem JoinInv.toNat_index (h : JoinInv leaves q arena) (hL : leaves.length ≤ 257) (hj : j ∈ q) :
    (BitVec.ofNat 10 j).toNat = j := by
  have := h.bound j hj
  have := h.length_arena
  exact (BitVec.toNat_ofNat ..).trans (Nat.mod_eq_of_lt (by omega))

/-! ### One pass -/

/-- An internal node over the entries before it: its children are the two free ones of least key, the left one the least, and its weight
is their exact sum (42_tree_builder.md R161, R163, R165). -/
structure JoinsLeast (arena : List Node) (w : BitVec 40) (l r : BitVec 10) : Prop where
  left : IsFree arena l.toNat
  right : IsFree arena r.toNat
  ordered : nodeKey arena l.toNat < nodeKey arena r.toNat
  least : ∀ j, IsFree arena j → j ≠ l.toNat → j ≠ r.toNat → nodeKey arena r.toNat < nodeKey arena j
  weight : w.toNat = weightAt arena l.toNat + weightAt arena r.toNat

/-- What holds each time around the loop of TB_BUILD, besides `JoinInv`, where the leaves' weights sum to `total`: the collection is that
of the free entries, no weight is lost, and every internal node joined the least of the entries before it. -/
structure GreedyInv (total : Nat) (leaves : List Node) (q : List Nat) (arena : List Node) : Prop extends JoinInv leaves q arena where
  free : ∀ j, IsFree arena j → j ∈ q
  sum : weightSum arena q = total
  joined : ∀ (i : Nat) (w : BitVec 40) (l r : BitVec 10), arena[i]? = some (.internal w l r) → JoinsLeast (arena.take i) w l r

variable {total : Nat}

theorem GreedyInv.joinsLeast (h : GreedyInv total leaves q arena) (hL : leaves.length ≤ 257) (ht : total < 2 ^ 40)
    (ha : HasLeastKey arena q a) (hb : HasLeastKey arena (q.erase a) b) :
    JoinsLeast arena (BitVec.ofNat 40 (weightAt arena a + weightAt arena b)) (BitVec.ofNat 10 a) (BitVec.ofNat 10 b) := by
  have hbq : b ∈ q := List.mem_of_mem_erase hb.1
  have hab : a ≠ b := fun e => h.nodup.not_mem_erase (e ▸ hb.1)
  have hsum := weightSum_erase_erase (arena := arena) ha.1 hb.1
  have hweight : weightAt arena a + weightAt arena b < 2 ^ 40 := by have := h.sum; omega
  have hla := h.toNat_index hL ha.1
  have hrb := h.toNat_index hL hbq
  constructor <;> simp only [hla, hrb]
  · exact h.isFree ha.1
  · exact h.isFree hbq
  · exact (ha.2 b hbq).lt_of_ne (nodeKey_inj.not.mpr hab)
  · intro j hj hja hjb
    exact (hb.2 j ((List.mem_erase_of_ne hja).mpr (h.free j hj))).lt_of_ne (nodeKey_inj.not.mpr (Ne.symm hjb))
  · exact (BitVec.toNat_ofNat ..).trans (Nat.mod_eq_of_lt hweight)

theorem GreedyInv.pass (h : GreedyInv total leaves q arena) (hL : leaves.length ≤ 257) (ht : total < 2 ^ 40)
    (ha : HasLeastKey arena q a) (hb : HasLeastKey arena (q.erase a) b) :
    GreedyInv total leaves ((q.erase a).erase b ++ [arena.length]) (arena ++ [joinNodes arena a b]) where
  toJoinInv := h.toJoinInv.pass hL ha.1 hb.1
  free j hj := by
    rw [List.mem_append, List.mem_singleton]
    refine hj.of_append.symm.imp (fun hold => ?_) id
    obtain ⟨hfree, hja, hjb⟩ := hold
    rw [h.toNat_index hL ha.1] at hja
    rw [h.toNat_index hL (List.mem_of_mem_erase hb.1)] at hjb
    exact (List.mem_erase_of_ne hjb).mpr ((List.mem_erase_of_ne hja).mpr (h.free j hfree))
  sum := by
    have hstay : weightSum (arena ++ [joinNodes arena a b]) ((q.erase a).erase b) = weightSum arena ((q.erase a).erase b) :=
      congrArg List.sum (List.map_congr_left fun j hj =>
        weightAt_append_left _ (h.bound j (List.mem_of_mem_erase (List.mem_of_mem_erase hj))))
    have hnew : weightAt (arena ++ [joinNodes arena a b]) arena.length = weightAt arena a + weightAt arena b := by
      have hj := h.joinsLeast hL ht ha hb
      rw [weightAt_append_length, joinNodes, nodeWeight, hj.weight, h.toNat_index hL ha.1,
        h.toNat_index hL (List.mem_of_mem_erase hb.1)]
    have hsplit : weightSum (arena ++ [joinNodes arena a b]) ((q.erase a).erase b ++ [arena.length]) =
        weightSum (arena ++ [joinNodes arena a b]) ((q.erase a).erase b) +
          weightAt (arena ++ [joinNodes arena a b]) arena.length := by simp [weightSum]
    rw [hsplit, hstay, hnew, add_comm, weightSum_erase_erase ha.1 hb.1, h.sum]
  joined i w l r hi := by
    have hlen := (List.getElem?_eq_some_iff.mp hi).1
    rw [List.length_append, List.length_singleton] at hlen
    rw [List.take_append_of_le_length (by omega)]
    rcases Nat.lt_succ_iff_lt_or_eq.mp hlen with hlt | rfl
    · rw [List.getElem?_append_left hlt] at hi
      exact h.joined i w l r hi
    · rw [List.getElem?_concat_length, Option.some.injEq, joinNodes, Node.internal.injEq] at hi
      obtain ⟨rfl, rfl, rfl⟩ := hi
      rw [List.take_length]
      exact h.joinsLeast hL ht ha hb

theorem greedyInv_start (hl : leaves ≠ []) (hleaf : ∀ x ∈ leaves, x.isLeaf = true) :
    GreedyInv (leaves.map fun x => (nodeWeight x).toNat).sum leaves (List.range leaves.length) leaves where
  toJoinInv := joinInv_start hl hleaf
  free _ hj := List.mem_range.mpr hj.1
  sum := weightSum_range leaves
  joined _ _ _ _ hi := absurd (hleaf _ (List.mem_of_getElem? hi)) Bool.false_ne_true

end Sys2Proof.Machine
end

section
/-! The tree that TB_BUILD leaves (42_tree_builder.md R160 to R167), and TB_READNODE (R166). -/

namespace Sys2Proof.Machine

variable {counts : Vector Word 257} {s t : State}

/-! ### The command -/

theorem leavesOf_eq_nil_iff : leavesOf counts = [] ↔ ∀ x : Symbol, counts[x.val] = 0 := by
  simp [leavesOf, allSymbols]

theorem length_leavesOf (counts : Vector Word 257) : (leavesOf counts).length = (presentSymbols counts).length := by
  rw [leavesOf_eq, List.length_map]

theorem leavesOf_length_le (counts : Vector Word 257) : (leavesOf counts).length ≤ 257 :=
  length_leavesOf counts ▸ presentSymbols_length counts

theorem exec_tbBuild_empty (hq : s.quiet) (hp : s.littleEndian) (hl : leavesOf s.counts = []) :
    exec .tbBuild s = .next (afterError 0x20 1 { s with tree := Tree.none, codes := Codes.empty }) :=
  command_raise .format hp (if_pos hl) hq.unstopped rfl

theorem exec_tbBuild (hq : s.quiet) (hp : s.littleEndian) (hl : leavesOf s.counts ≠ []) :
    exec .tbBuild s =
      .next (afterSuccess 0x20 { s with tree := treeOver (leavesOf s.counts), codes := Codes.empty }) :=
  command_ok hp (if_neg hl) hq.unstopped rfl

/-- With a present symbol, TB_BUILD leaves the tree over the leaves. -/
theorem tree_of_exec_tbBuild (hq : s.quiet) (hp : s.littleEndian) (hx : ∃ x : Symbol, s.counts[x.val] ≠ 0)
    (h : exec .tbBuild s = .next t) : leavesOf s.counts ≠ [] ∧ t.tree = treeOver (leavesOf s.counts) := by
  have hl : leavesOf s.counts ≠ [] := by
    rw [ne_eq, leavesOf_eq_nil_iff, not_forall]; exact hx
  rw [exec_tbBuild hq hp hl] at h
  cases h
  exact ⟨hl, rfl⟩

/-! ### The weights of the leaves -/

/-- The absent symbols add nothing to the sum of the counts. -/
theorem leavesOf_weight_sum (counts : Vector Word 257) :
    ((leavesOf counts).map fun x => (nodeWeight x).toNat).sum = (allSymbols.map fun x => counts[x.val].toNat).sum := by
  have hweight (x : Symbol) : (nodeWeight (.leaf (counts[x.val].setWidth 40) x)).toNat = counts[x.val].toNat :=
    BitVec.toNat_setWidth_of_le (by omega)
  have hpresent (x : Symbol) : (counts[x.val].toNat != 0) = (counts[x.val] != 0) := by
    simp [bne, ← BitVec.toNat_inj]
  rw [← List.sum_filter_bne_zero (allSymbols.map _), List.filter_map, leavesOf, List.map_map]
  simp only [Function.comp_def, hweight, hpresent]

theorem sum_counts_lt (h : countsLegal counts) : (allSymbols.map fun x => counts[x.val].toNat).sum < 2 ^ 40 := by
  have hmem : ∀ c ∈ allSymbols.map fun x => counts[x.val].toNat, c ≤ Config.maxCount :=
    List.forall_mem_map.mpr fun x _ => h x
  have hle := List.sum_le_card_nsmul _ _ hmem
  simp only [List.length_map, allSymbols, List.length_finRange, Config.maxCount, smul_eq_mul] at hle ⊢
  omega

/-! ### The tree over the leaves -/

/-- TB_BUILD leaves one element in the collection, which is the root. -/
theorem joinLoop_leavesOf (hl : leavesOf counts ≠ []) :
    (joinLoop (leavesOf counts).length (List.range (leavesOf counts).length) (leavesOf counts)).1 =
        [(treeOver (leavesOf counts)).root.toNat] ∧
      JoinInv (leavesOf counts) [(treeOver (leavesOf counts)).root.toNat] (treeOver (leavesOf counts)).arena := by
  obtain ⟨inv, hone⟩ := joinLoop_inv (leavesOf_length_le counts) (leavesOf counts).length _ _
    (joinInv_start hl fun x hx => (leavesOf_leaf x hx).1) (by simp)
  obtain ⟨i, hi⟩ := List.length_eq_one_iff.mp hone
  have hroot : (treeOver (leavesOf counts)).root.toNat = i := by
    rw [treeOver, hi]
    exact inv.toNat_index (leavesOf_length_le counts) (by simp [hi])
  rw [hroot, ← hi]
  exact ⟨rfl, inv⟩

theorem treeOver_joinInv (hl : leavesOf counts ≠ []) :
    JoinInv (leavesOf counts) [(treeOver (leavesOf counts)).root.toNat] (treeOver (leavesOf counts)).arena :=
  (joinLoop_leavesOf hl).2

theorem treeOver_greedyInv (hc : countsLegal counts) (hl : leavesOf counts ≠ []) :
    GreedyInv (allSymbols.map fun x => counts[x.val].toNat).sum (leavesOf counts)
      [(treeOver (leavesOf counts)).root.toNat] (treeOver (leavesOf counts)).arena := by
  have hstart := greedyInv_start hl fun x hx => (leavesOf_leaf x hx).1
  rw [leavesOf_weight_sum] at hstart
  rw [← (joinLoop_leavesOf hl).1]
  exact joinLoop_keeps (fun _ _ _ _ h ha hb => h.pass (leavesOf_length_le counts) (sum_counts_lt hc) ha hb) _ _ _ hstart

/-- Settles O32: every internal node joined the least of the entries before it (`GreedyInv.joined`), whose weights later entries leave as
they are. -/
theorem tbBuildJoinsTheLeastWeights : Obligations.TbBuildJoinsTheLeastWeights := by
  intro s t hq hp hc hx ht i w l r hi
  obtain ⟨hl, htree⟩ := tree_of_exec_tbBuild hq hp hx ht
  have hlen : i ≤ t.tree.arena.length := (List.getElem?_eq_some_iff.mp hi).1.le
  have inv := treeOver_greedyInv hc hl
  rw [← htree] at inv
  have hj := inv.joined i w l r hi
  have hfree (j : Nat) := isFree_take_iff (j := j) hlen
  have hleft := (hfree _).mp hj.left
  have hright := (hfree _).mp hj.right
  have hlt := nodeKey_lt_iff.mp hj.ordered
  have hsum := hj.weight
  rw [weightAt_take hleft.1, weightAt_take hright.1] at hlt hsum
  refine ⟨hleft, hright, hlt, fun j hjf hjl hjr => ?_, hsum⟩
  have hleast := nodeKey_lt_iff.mp (hj.least j ((hfree j).mpr hjf) hjl hjr)
  rwa [weightAt_take hright.1, weightAt_take hjf.1] at hleast

/-- Settles O33: the collection's weights sum to the counts' throughout (`GreedyInv.sum`), and the root is all that is left in it. -/
theorem rootWeightIsTheSumOfTheCounts : Obligations.RootWeightIsTheSumOfTheCounts := by
  intro s t hq hp hc hx ht
  obtain ⟨hl, htree⟩ := tree_of_exec_tbBuild hq hp hx ht
  rw [htree]
  exact ⟨(treeOver_greedyInv hc hl).sum, sum_counts_lt hc⟩

/-- The arena is the leaves of the present symbols and then internal nodes. -/
theorem treeOver_arena_split (hl : leavesOf counts ≠ []) : ∃ joins, (treeOver (leavesOf counts)).arena = leavesOf counts ++ joins ∧
    (∀ x ∈ joins, x.isLeaf = false) ∧ joins.length + 1 = (leavesOf counts).length := by
  obtain ⟨joins, harena, hjoins, hlen⟩ := (treeOver_joinInv hl).split
  exact ⟨joins, harena, hjoins, by simpa [add_comm] using hlen⟩

theorem treeSound.root_eq {t : Tree} (h : treeSound t) : t.root.toNat + 1 = t.arena.length := by
  obtain ⟨leaves, joins, ha, hl, _, _, _, _, hr, _⟩ := h
  rw [ha, List.length_append]
  omega

theorem leavesOf_getElem? {k : Nat} {x : Symbol} (h : (presentSymbols counts)[k]? = some x) :
    (leavesOf counts)[k]? = some (.leaf (counts[x.val].setWidth 40) x) := by
  rw [leavesOf_eq, List.getElem?_map, h, Option.map_some]

/-- Settles O31: the arena is the leaves and as many internal nodes less one (`treeOver_arena_split`), and the tree is sound
(`treeOver_sound`). -/
theorem tbBuildLaysOutTheArena : Obligations.TbBuildLaysOutTheArena := by
  intro s hq hp
  refine ⟨fun h => exec_tbBuild_empty hq hp (leavesOf_eq_nil_iff.mpr h), ?_⟩
  intro L hL hpos
  rw [← length_leavesOf] at hL
  have hl : leavesOf s.counts ≠ [] := List.ne_nil_of_length_pos (hL ▸ hpos)
  obtain ⟨joins, harena, hjoins, hlen⟩ := treeOver_arena_split hl
  have hsound := treeOver_sound hl
  have hsize : (treeOver (leavesOf s.counts)).arena.length = 2 * L - 1 := by
    rw [harena, List.length_append]; omega
  have hroot := hsound.root_eq
  refine ⟨treeOver (leavesOf s.counts), exec_tbBuild hq hp hl, rfl, by omega, hsound.nodeCount_eq.trans hsize, hsize, ?_, ?_⟩
  · intro k x hk
    have hleaf := leavesOf_getElem? hk
    rw [harena, List.getElem?_append_left (List.getElem?_eq_some_iff.mp hleaf).1, hleaf]
  · intro k hLk hk
    obtain ⟨x, hx⟩ : ∃ x, (treeOver (leavesOf s.counts)).arena[k]? = some x := ⟨_, List.getElem?_eq_getElem (hsize ▸ hk)⟩
    have hjoin : x ∈ joins := by
      rw [harena, List.getElem?_append_right (hL ▸ hLk)] at hx
      exact List.mem_of_getElem? hx
    cases x with
    | leaf w y => exact absurd (hjoins _ hjoin) Bool.true_eq_false_eq_False
    | internal w l r => exact ⟨w, l, r, hx, hsound.smaller k w l r hx⟩

/-- Settles O34: both outcomes name the counts alone (`exec_tbBuild_empty`, `exec_tbBuild`). -/
theorem tbBuildDependsOnTheCountsAlone : Obligations.TbBuildDependsOnTheCountsAlone := by
  intro s u t v hqs hqu hps hpu hcounts ht hv
  by_cases hl : leavesOf s.counts = []
  · rw [exec_tbBuild_empty hqs hps hl] at ht
    rw [exec_tbBuild_empty hqu hpu (hcounts ▸ hl)] at hv
    cases ht; cases hv
    exact ⟨rfl, rfl⟩
  · rw [exec_tbBuild hqs hps hl] at ht
    rw [exec_tbBuild hqu hpu (hcounts ▸ hl)] at hv
    cases ht; cases hv
    exact ⟨congrArg (fun c => treeOver (leavesOf c)) hcounts, rfl⟩

/-! ### TB_READNODE -/

/-- A leaf's symbol stands below the mark in bit 31. -/
theorem nodeDescriptor_leaf (w : BitVec 40) (x : Symbol) : nodeDescriptor (.leaf w x) = 0x80000000 + BitVec.ofNat 32 x.val := by
  have hx := x.isLt
  have hor : 2 ^ 31 * 1 + x.val = 2 ^ 31 * 1 ||| x.val := Nat.two_pow_add_eq_or_of_lt (by omega) 1
  have hval : x.val % 2 ^ 32 = x.val := Nat.mod_eq_of_lt (by omega)
  have hsum : (0x80000000 : Word).toNat + x.val < 2 ^ 32 := show 2 ^ 31 + x.val < 2 ^ 32 by omega
  refine BitVec.eq_of_toNat_eq ?_
  rw [nodeDescriptor, BitVec.toNat_or, BitVec.toNat_add, BitVec.toNat_ofNat, hval, Nat.mod_eq_of_lt hsum]
  exact hor.symm

/-- The left index stands in bits 25:16 and the right one in bits 9:0. -/
theorem nodeDescriptor_internal (w : BitVec 40) (l r : BitVec 10) :
    nodeDescriptor (.internal w l r) = 0#6 ++ l ++ 0#6 ++ r := by
  have hl : l.toNat <<< 16 % 2 ^ 32 = l.toNat <<< 16 := Nat.mod_eq_of_lt (by rw [Nat.shiftLeft_eq]; omega)
  refine BitVec.eq_of_toNat_eq ?_
  simp only [nodeDescriptor, BitVec.toNat_or, BitVec.toNat_shiftLeft, BitVec.toNat_setWidth_of_le (show 10 ≤ 32 by decide), hl,
    BitVec.toNat_append]
  simp [← Nat.shiftLeft_add]

theorem tbReadnodeBody_outside {i : BitVec 10} (hv : s.tree.valid = true) (h : s.tree.nodeCount.toNat ≤ i.toNat) :
    tbReadnodeBody i s = .raise .illegalCommand s := by
  rw [tbReadnodeBody, hv, if_neg Bool.true_eq_false_eq_False, if_pos h]

theorem tbReadnodeBody_inside {i : BitVec 10} {x : Node} (hv : s.tree.valid = true) (h : i.toNat < s.tree.nodeCount.toNat)
    (hx : nodeAt s i = some x) : tbReadnodeBody i s = .ok () (s.setResults { s.results with
      result := (nodeWeight x).extractLsb' 0 32
      result2 := 0#24 ++ (nodeWeight x).extractLsb' 32 8
      result3 := nodeDescriptor x }) := by
  have hhigh (v : BitVec 8) : v.setWidth 32 = 0#24 ++ v := BitVec.setWidth_eq_append (by decide)
  rw [tbReadnodeBody, hv, if_neg Bool.true_eq_false_eq_False, if_neg (Nat.not_le.mpr h), hx, ← hhigh]

/-- Settles O35: an index below `nodeCount` is one of the arena (`treeSound.nodeCount_eq`). -/
theorem tbReadnodeReturnsTheNode : Obligations.TbReadnodeReturnsTheNode := by
  intro s i hq hp htree
  refine ⟨fun h => command_raise .sequence hp (if_pos h) hq.unstopped rfl, fun hv h => ?_, fun hv h => ?_⟩
  · exact command_raise .illegalCommand hp (tbReadnodeBody_outside (s := startSteps 0x21 s) hv h) hq.unstopped rfl
  · obtain ⟨x, hx⟩ : ∃ x, s.tree.arena[i.toNat]? = some x :=
      ⟨_, List.getElem?_eq_getElem ((htree.1 hv).nodeCount_eq ▸ h)⟩
    refine ⟨x, hx, command_ok hp (tbReadnodeBody_inside (s := startSteps 0x21 s) hv h hx) hq.unstopped ?_⟩
    cases x with
    | leaf w y => rw [nodeDescriptor_leaf]; rfl
    | internal w l r => rw [nodeDescriptor_internal]; rfl

end Sys2Proof.Machine
end

section
/-! Paths in the arena of a sound tree: every entry is at the end of one from the root, and none is longer than 256 (10_state.md R36,
42_tree_builder.md R168). -/

namespace Sys2Proof.Machine

variable {arena : List Node} {i c l r : BitVec 10} {b : Bool} {bs cs : List Bool} {w : BitVec 40} {x y : Symbol} {t : Tree}

/-- The child of an internal node that a bit leads to: 0 is left and 1 is right (30_encoding.md R101). -/
def childAt (l r : BitVec 10) (b : Bool) : BitVec 10 := if b then r else l

theorem mem_flatMap_children :
    c ∈ arena.flatMap Node.children ↔ ∃ (k : Nat) (w : BitVec 40) (l r : BitVec 10) (b : Bool),
      arena[k]? = some (.internal w l r) ∧ childAt l r b = c := by
  have hbit (l r : BitVec 10) : c ∈ [l, r] ↔ ∃ b, childAt l r b = c := by simp [childAt, eq_comm, or_comm]
  constructor
  · intro h
    obtain ⟨n, hn, hc⟩ := List.mem_flatMap.mp h
    obtain ⟨k, hk⟩ := List.mem_iff_getElem?.mp hn
    cases n with
    | leaf w x => simp [Node.children] at hc
    | internal w l r =>
      obtain ⟨b, hb⟩ := (hbit l r).mp hc
      exact ⟨k, w, l, r, b, hk, hb⟩
  · rintro ⟨k, w, l, r, b, hk, hb⟩
    exact List.mem_flatMap.mpr ⟨_, List.mem_of_getElem? hk, (hbit l r).mpr ⟨b, hb⟩⟩

theorem Node.length_children (n : Node) : n.children.length = if n.isLeaf then 0 else 2 := by
  cases n <;> rfl

/-! ### Where a path leads -/

/-- The path leads from the entry to the leaf of the symbol. -/
def LeadsToLeaf (arena : List Node) (i : BitVec 10) (bs : List Bool) (x : Symbol) : Prop :=
  ∃ w, nodeOnPath arena i bs = some (.leaf w x)

theorem nodeOnPath_cons (h : arena[i.toNat]? = some (.internal w l r)) (b : Bool) (bs : List Bool) :
    nodeOnPath arena i (b :: bs) = nodeOnPath arena (childAt l r b) bs := by
  rw [nodeOnPath, h]; rfl

/-- A path of at least one step starts at an internal node. -/
theorem internal_of_nodeOnPath_cons {n : Node} (h : nodeOnPath arena i (b :: bs) = some n) :
    ∃ w l r, arena[i.toNat]? = some (.internal w l r) ∧ nodeOnPath arena (childAt l r b) bs = some n := by
  rcases hi : arena[i.toNat]? with _ | ⟨w, x⟩ | ⟨w, l, r⟩
  · simp [nodeOnPath, hi] at h
  · simp [nodeOnPath, hi] at h
  · exact ⟨w, l, r, rfl, nodeOnPath_cons hi b bs ▸ h⟩

theorem leadsToLeaf_of_leaf (h : arena[i.toNat]? = some (.leaf w x)) : LeadsToLeaf arena i bs y ↔ bs = [] ∧ y = x := by
  cases bs with
  | nil => simp [LeadsToLeaf, nodeOnPath, h, eq_comm]
  | cons b bs => simp [LeadsToLeaf, nodeOnPath, h]

theorem leadsToLeaf_of_internal (h : arena[i.toNat]? = some (.internal w l r)) :
    LeadsToLeaf arena i bs y ↔ ∃ b cs, bs = b :: cs ∧ LeadsToLeaf arena (childAt l r b) cs y := by
  cases bs with
  | nil => simp [LeadsToLeaf, nodeOnPath, h]
  | cons b bs => simp [LeadsToLeaf, nodeOnPath_cons h]

/-- A path over an internal node goes on from its child. -/
theorem nodeOnPath_append_cons (h : nodeOnPath arena i bs = some (.internal w l r)) (b : Bool) (cs : List Bool) :
    nodeOnPath arena i (bs ++ b :: cs) = nodeOnPath arena (childAt l r b) cs := by
  induction bs generalizing i with
  | nil => exact nodeOnPath_cons h b cs
  | cons a bs ih =>
    obtain ⟨w', l', r', hi, hbs⟩ := internal_of_nodeOnPath_cons h
    rw [List.cons_append, nodeOnPath_cons hi, ih hbs]

/-- No path goes on from a leaf (43_code_table.md R181: leaves have no children). -/
theorem LeadsToLeaf.eq_nil_of_append (h : LeadsToLeaf arena i bs x) (h' : LeadsToLeaf arena i (bs ++ cs) y) :
    cs = [] ∧ y = x := by
  induction bs generalizing i with
  | nil =>
    obtain ⟨w, hw⟩ := h
    exact (leadsToLeaf_of_leaf hw).mp h'
  | cons b bs ih =>
    obtain ⟨w, hw⟩ := h
    obtain ⟨v, l, r, hi, hbs⟩ := internal_of_nodeOnPath_cons hw
    refine ih ⟨w, hbs⟩ ?_
    rwa [LeadsToLeaf, List.cons_append, nodeOnPath_cons hi] at h'

theorem nodeOnPath_mem {n : Node} (h : nodeOnPath arena i bs = some n) : n ∈ arena := by
  induction bs generalizing i with
  | nil => exact List.mem_of_getElem? h
  | cons b bs ih =>
    obtain ⟨w, l, r, -, hbs⟩ := internal_of_nodeOnPath_cons h
    exact ih hbs

/-! ### How long a path is -/

theorem childrenSmaller.childAt_lt {k : Nat} (hs : childrenSmaller arena) (h : arena[k]? = some (.internal w l r)) (b : Bool) :
    (childAt l r b).toNat < k := by
  obtain ⟨hl, hr⟩ := hs _ _ _ _ h
  cases b
  · exact hl
  · exact hr

/-- Each step of a path starts at an internal node and leads to a smaller index, so a path has no more steps than there are indices of
internal nodes up to its start. -/
theorem length_le_of_nodeOnPath {n : Node} {L : Nat} (hs : childrenSmaller arena)
    (hL : ∀ (k : Nat) (w : BitVec 40) (l r : BitVec 10), arena[k]? = some (.internal w l r) → L ≤ k)
    (h : nodeOnPath arena i bs = some n) : bs.length ≤ i.toNat + 1 - L := by
  induction bs generalizing i with
  | nil => simp
  | cons b bs ih =>
    obtain ⟨w, l, r, hi, hbs⟩ := internal_of_nodeOnPath_cons h
    have hlt := hs.childAt_lt hi b
    have hge := hL _ _ _ _ hi
    have := ih hbs
    simp only [List.length_cons]
    omega

/-- No path to a leaf of a sound tree is longer than 256 steps (42_tree_builder.md R168). -/
theorem treeSound.length_le (h : treeSound t) (hx : LeadsToLeaf t.arena t.root bs x) : bs.length ≤ 256 := by
  obtain ⟨v, hv⟩ := hx
  have hs := h.smaller
  obtain ⟨leaves, joins, harena, -, hlen, hleaf, -, -, hroot, -⟩ := h
  refine (length_le_of_nodeOnPath (L := leaves.length) hs (fun k w l r hk => ?_) hv).trans (by omega)
  by_contra hlt
  rw [harena, List.getElem?_append_left (not_le.mp hlt)] at hk
  exact absurd (hleaf _ (List.mem_of_getElem? hk)).1 Bool.false_ne_true

/-! ### Every entry is on a path -/

theorem treeSound.children_nodup (h : treeSound t) : (t.arena.flatMap Node.children).Nodup := by
  obtain ⟨_, _, _, _, _, _, _, _, _, _, _, hnodup⟩ := h
  exact hnodup

/-- There are two children for each internal node, and so as many as entries below the root. -/
theorem treeSound.length_children (h : treeSound t) : (t.arena.flatMap Node.children).length = t.root.toNat := by
  obtain ⟨leaves, joins, harena, hlen, -, hleaf, -, hjoin, hroot, -⟩ := h
  have hleaves : leaves.map (fun n => n.children.length) = List.replicate leaves.length 0 :=
    List.eq_replicate_iff.mpr ⟨by simp, by simpa [Node.length_children] using fun n hn => (hleaf n hn).1⟩
  have hjoins : joins.map (fun n => n.children.length) = List.replicate joins.length 2 :=
    List.eq_replicate_iff.mpr ⟨by simp, by simpa [Node.length_children] using hjoin⟩
  rw [List.length_flatMap, harena, List.map_append, hleaves, hjoins, List.sum_append, List.sum_replicate, List.sum_replicate]
  simp only [smul_eq_mul]
  omega

/-- The children of a sound tree are the entries below the root, each once: they are distinct, and as many. -/
theorem treeSound.children_perm (h : treeSound t) :
    ((t.arena.flatMap Node.children).map BitVec.toNat).Perm (List.range t.root.toNat) := by
  have hsub : (t.arena.flatMap Node.children).map BitVec.toNat ⊆ List.range t.root.toNat := by
    intro j hj
    obtain ⟨c, hc, rfl⟩ := List.mem_map.mp hj
    obtain ⟨k, w, l, r, b, hk, rfl⟩ := mem_flatMap_children.mp hc
    have hklen := (List.getElem?_eq_some_iff.mp hk).1
    have hroot := h.root_eq
    have hchild := h.smaller.childAt_lt hk b
    exact List.mem_range.mpr (by omega)
  refine (List.subperm_of_subset (h.children_nodup.map BitVec.toNat_injective) hsub).perm_of_length_le ?_
  rw [List.length_range, List.length_map, h.length_children]

/-- Every entry but the root has a parent, of greater index. -/
theorem treeSound.exists_parent (h : treeSound t) {j : Nat} (hj : j < t.root.toNat) :
    ∃ k w l r b, t.arena[k]? = some (.internal w l r) ∧ (childAt l r b).toNat = j ∧ j < k := by
  obtain ⟨c, hc, rfl⟩ := List.mem_map.mp (h.children_perm.mem_iff.mpr (List.mem_range.mpr hj))
  obtain ⟨k, w, l, r, b, hk, rfl⟩ := mem_flatMap_children.mp hc
  exact ⟨k, w, l, r, b, hk, rfl, h.smaller.childAt_lt hk b⟩

/-- By induction from the root downward: the path to an entry is the one to its parent and one more step. -/
theorem treeSound.exists_path (h : treeSound t) {j : Nat} {n : Node} (hj : t.arena[j]? = some n) :
    ∃ bs, nodeOnPath t.arena t.root bs = some n := by
  induction hd : t.arena.length - j using Nat.strongRecOn generalizing j n with
  | ind d ih =>
    have hlt := (List.getElem?_eq_some_iff.mp hj).1
    have hroot := h.root_eq
    rcases Nat.lt_or_eq_of_le (show j ≤ t.root.toNat by omega) with hbelow | rfl
    · obtain ⟨k, w, l, r, b, hk, hchild, hjk⟩ := h.exists_parent hbelow
      obtain ⟨bs, hbs⟩ := ih _ (by omega) hk rfl
      refine ⟨bs ++ [b], ?_⟩
      rw [nodeOnPath_append_cons hbs, nodeOnPath, hchild, hj]
    · exact ⟨[], hj⟩

theorem treeSound.leaf_mem_iff (h : treeSound t) :
    (∃ w, Node.leaf w x ∈ t.arena) ↔ ∃ bs, LeadsToLeaf t.arena t.root bs x := by
  constructor
  · rintro ⟨w, hw⟩
    obtain ⟨j, hj⟩ := List.mem_iff_getElem?.mp hw
    obtain ⟨bs, hbs⟩ := h.exists_path hj
    exact ⟨bs, w, hbs⟩
  · rintro ⟨bs, w, hbs⟩
    exact ⟨w, nodeOnPath_mem hbs⟩

end Sys2Proof.Machine
end

section
/-! The code that a path is recorded as, and the code table of a tree (10_state.md R37, 43_code_table.md R180). -/

namespace Sys2Proof.Machine

variable {arena : List Node} {i : BitVec 10} {bs : List Bool} {x : Symbol} {t : Tree} {table table' : Vector Code 257}

/-! ### The code of a path -/

/-- Step `k` of a path is bit `k` (43_code_table.md R180). -/
def pathBits (bs : List Bool) : BitVec 256 := (BitVec.ofBoolListLE bs).setWidth 256

/-- The code that records a path. -/
def pathCode (bs : List Bool) : Code := { present := true, len := BitVec.ofNat 9 bs.length, bits := pathBits bs }

theorem getLsbD_pathBits (bs : List Bool) (k : Nat) : (pathBits bs).getLsbD k = (decide (k < 256) && bs.getD k false) := by
  rw [pathBits, BitVec.getLsbD_setWidth, BitVec.getLsbD_ofBoolListLE]

/-- `p` is also the path with a 0 appended. -/
theorem pathBits_append_false (bs : List Bool) : pathBits (bs ++ [false]) = pathBits bs := by
  refine BitVec.eq_of_getLsbD_eq fun k _ => ?_
  rw [getLsbD_pathBits, getLsbD_pathBits, List.getD_eq_getElem?_getD, List.getD_eq_getElem?_getD]
  rcases Nat.lt_trichotomy k bs.length with h | rfl | h
  · rw [List.getElem?_append_left h]
  · simp
  · simp [List.getElem?_eq_none, h.le, Nat.succ_le_of_lt h]

theorem pathBits_append_true (bs : List Bool) : pathBits (bs ++ [true]) = appendOne bs.length (pathBits bs) := by
  refine BitVec.eq_of_getLsbD_eq fun k hk => ?_
  rw [appendOne, BitVec.getLsbD_or, BitVec.getLsbD_shiftLeft, BitVec.getLsbD_one, getLsbD_pathBits, getLsbD_pathBits,
    List.getD_eq_getElem?_getD, List.getD_eq_getElem?_getD]
  rcases Nat.lt_trichotomy k bs.length with h | rfl | h
  · simp [List.getElem?_append_left h, h]
  · simp [hk]
  · simp [List.getElem?_eq_none, h.le, Nat.succ_le_of_lt h, Nat.sub_ne_zero_of_lt h]

theorem len_pathCode (h : bs.length ≤ 256) : (pathCode bs).len.toNat = bs.length :=
  (BitVec.toNat_ofNat ..).trans (Nat.mod_eq_of_lt (by omega))

/-- The code of a path is read back as the path. -/
theorem codeBitList_pathCode (h : bs.length ≤ 256) : codeBitList (pathCode bs) = bs := by
  refine List.ext_getElem (by simp [codeBitList, len_pathCode h]) fun k _ hk => ?_
  simp [codeBitList, pathCode, getLsbD_pathBits, hk, hk.trans_le h]

theorem pathBits_lt (bs : List Bool) : (pathBits bs).toNat < 2 ^ bs.length :=
  (BitVec.toNat_setWidth .. ▸ Nat.mod_le _ _).trans_lt (BitVec.ofBoolListLE bs).isLt

/-! ### The walk of CT_BUILD -/

/-- What visiting an entry, at the end of the path `q`, does to the code of a symbol: it records the path to the symbol's leaf, or the
symbol has no leaf under the entry and the code stays. -/
def Recorded (arena : List Node) (i : BitVec 10) (q : List Bool) (x : Symbol) (old new : Code) : Prop :=
  (∃ bs, LeadsToLeaf arena i bs x ∧ new = pathCode (q ++ bs)) ∨ ((∀ bs, ¬LeadsToLeaf arena i bs x) ∧ new = old)

/-- Visiting the left child and then the right one visits the parent. -/
theorem Recorded.internal {w : BitVec 40} {l r : BitVec 10} {q : List Bool} {old mid new : Code}
    (h : arena[i.toNat]? = some (.internal w l r)) (hl : Recorded arena l (q ++ [false]) x old mid)
    (hr : Recorded arena r (q ++ [true]) x mid new) : Recorded arena i q x old new := by
  have hpath (b : Bool) (bs : List Bool) (hb : LeadsToLeaf arena (childAt l r b) bs x) : LeadsToLeaf arena i (b :: bs) x :=
    (leadsToLeaf_of_internal h).mpr ⟨b, bs, rfl, hb⟩
  rcases hr with ⟨bs, hbs, rfl⟩ | ⟨hr, rfl⟩
  · exact .inl ⟨true :: bs, hpath true bs hbs, by simp⟩
  rcases hl with ⟨bs, hbs, rfl⟩ | ⟨hl, rfl⟩
  · exact .inl ⟨false :: bs, hpath false bs hbs, by simp⟩
  refine .inr ⟨fun bs hbs => ?_, rfl⟩
  obtain ⟨b, cs, -, hcs⟩ := (leadsToLeaf_of_internal h).mp hbs
  cases b
  · exact hl cs hcs
  · exact hr cs hcs

theorem visit_records {depth : Nat} {q : List Bool} (h : visit arena depth i q.length (pathBits q) table = some table')
    (x : Symbol) : Recorded arena i q x table[x.val] table'[x.val] := by
  induction depth generalizing i q table table' with
  | zero => cases h
  | succ depth ih =>
    rcases hi : arena[i.toNat]? with _ | ⟨w, y⟩ | ⟨w, l, r⟩ <;> simp only [visit, hi] at h
    · cases h
    · cases h
      by_cases hxy : y = x
      · subst hxy
        exact .inl ⟨[], ⟨w, hi⟩, by simp [pathCode]⟩
      · refine .inr ⟨fun bs hbs => hxy ((leadsToLeaf_of_leaf hi).mp hbs).2.symm, ?_⟩
        exact Vector.getElem_set_ne _ _ fun e => hxy (Fin.ext e)
    · obtain ⟨mid, hmid, hnew⟩ := Option.bind_eq_some_iff.mp h
      rw [← pathBits_append_false] at hmid
      rw [← pathBits_append_true] at hnew
      have hlen (b : Bool) : q.length + 1 = (q ++ [b]).length := by simp
      rw [hlen false] at hmid
      rw [hlen true] at hnew
      exact .internal hi (ih hmid) (ih hnew)

/-- The code table of a sound tree: a symbol's code is the path from the root to its leaf, and a symbol without a leaf has none. -/
theorem codesOfTree_entry {e : Vector Code 257} (h : treeSound t) (he : codesOfTree t = some e) (x : Symbol) :
    (∃ bs, LeadsToLeaf t.arena t.root bs x ∧ bs.length ≤ 256 ∧ e[x.val] = pathCode bs) ∨
      ((∀ w, Node.leaf w x ∉ t.arena) ∧ e[x.val] = Code.absent) := by
  have hzero : pathBits [] = 0 := by decide
  rcases visit_records (q := []) (by rw [hzero]; exact he) x with ⟨bs, hbs, hcode⟩ | ⟨hnone, hcode⟩
  · exact .inl ⟨bs, hbs, h.length_le hbs, hcode⟩
  · refine .inr ⟨fun w hw => ?_, by simpa using hcode⟩
    obtain ⟨bs, hbs⟩ := h.leaf_mem_iff.mp ⟨w, hw⟩
    exact hnone bs hbs

theorem codesOfTree_present_iff {e : Vector Code 257} (h : treeSound t) (he : codesOfTree t = some e) (x : Symbol) :
    e[x.val].present = true ↔ ∃ w, Node.leaf w x ∈ t.arena := by
  rcases codesOfTree_entry h he x with ⟨bs, hbs, -, hcode⟩ | ⟨hnone, hcode⟩ <;> rw [hcode]
  · exact iff_of_true rfl (h.leaf_mem_iff.mpr ⟨bs, hbs⟩)
  · exact iff_of_false Bool.false_ne_true fun ⟨w, hw⟩ => hnone w hw

/-- The bits of a present symbol's code lead from the root to its leaf. -/
theorem codesOfTree_leadsToLeaf {e : Vector Code 257} (h : treeSound t) (he : codesOfTree t = some e) {x : Symbol}
    (hx : e[x.val].present = true) : LeadsToLeaf t.arena t.root (codeBitList e[x.val]) x := by
  rcases codesOfTree_entry h he x with ⟨bs, hbs, hlen, hcode⟩ | ⟨-, hcode⟩ <;> rw [hcode] at hx ⊢
  · rwa [codeBitList_pathCode hlen]
  · exact absurd hx Bool.false_ne_true

/-- The leaves are distinct and none is above another (43_code_table.md R181). -/
theorem codesOfTree_prefixFree {e : Vector Code 257} (h : treeSound t) (he : codesOfTree t = some e) (v : Bool) :
    prefixFree { valid := v, entries := e } := by
  rintro x y hxy hx hy ⟨cs, hcs⟩
  have hpath := codesOfTree_leadsToLeaf h he hy
  rw [← hcs] at hpath
  exact hxy ((codesOfTree_leadsToLeaf h he hx).eq_nil_of_append hpath).2.symm

end Sys2Proof.Machine
end

section
/-! CT_BUILD and CT_READ (43_code_table.md R180, R181, R185). -/

namespace Sys2Proof.Machine

variable {counts : Vector Word 257} {s : State}

/-! ### CT_BUILD -/

theorem exec_ctBuild {e : Vector Code 257} (hq : s.quiet) (hp : s.littleEndian) (hv : s.tree.valid = true)
    (he : codesOfTree s.tree = some e) :
    exec .ctBuild s = .next (afterSuccess 0x28 { s with codes := { valid := true, entries := e } }) := by
  have hbody : ctBuildBody (startSteps 0x28 s) = .ok () ((startSteps 0x28 s).setCodes { valid := true, entries := e }) := by
    have hv' : (startSteps 0x28 s).tree.valid = true := hv
    have he' : codesOfTree (startSteps 0x28 s).tree = some e := he
    rw [ctBuildBody, hv', if_neg Bool.true_eq_false_eq_False, he']
  exact command_ok hp hbody hq.unstopped rfl

/-- Settles O36: the walk records the path to every leaf it reaches (`visit_records`), and it reaches them all (`treeSound.exists_path`). -/
theorem ctBuildRecordsTheTreePaths : Obligations.CtBuildRecordsTheTreePaths := by
  intro s hq hp
  refine ⟨fun hv => command_raise .sequence hp (if_pos hv) hq.unstopped rfl, fun hv h => ?_⟩
  obtain ⟨e, he⟩ := Option.ne_none_iff_exists'.mp (codesOfTree_some h)
  refine ⟨e, exec_ctBuild hq hp hv he, fun x => ?_⟩
  rcases codesOfTree_entry h he x with ⟨bs, hbs, hlen, hcode⟩ | ⟨hnone, hcode⟩ <;> rw [hcode]
  · rw [codeBitList_pathCode hlen, len_pathCode hlen]
    exact .inl ⟨rfl, hbs, pathBits_lt bs, hlen⟩
  · exact .inr ⟨rfl, hnone⟩

theorem leaf_mem_leavesOf {x : Symbol} : (∃ w, Node.leaf w x ∈ leavesOf counts) ↔ counts[x.val] ≠ 0 := by
  simp [leavesOf_eq, mem_presentSymbols]

theorem leaf_mem_treeOver (hl : leavesOf counts ≠ []) {x : Symbol} :
    (∃ w, Node.leaf w x ∈ (treeOver (leavesOf counts)).arena) ↔ counts[x.val] ≠ 0 := by
  obtain ⟨joins, harena, hjoins, -⟩ := treeOver_arena_split hl
  have hno (w : BitVec 40) : Node.leaf w x ∉ joins := fun hw => absurd (hjoins _ hw) Bool.true_eq_false_eq_False
  simp only [harena, List.mem_append, hno, or_false, leaf_mem_leavesOf]

theorem ctBuild_prefixFree (hq : s.quiet) (hp : s.littleEndian) (hv : s.tree.valid = true) (h : treeSound s.tree) :
    answers (exec .ctBuild s) fun u => u.codes.valid = true ∧ prefixFree u.codes ∧
      ∀ x : Symbol, (codeOf u x).present = true ↔ ∃ w, Node.leaf w x ∈ s.tree.arena := by
  obtain ⟨e, he⟩ := Option.ne_none_iff_exists'.mp (codesOfTree_some h)
  exact ⟨_, exec_ctBuild hq hp hv he, rfl, codesOfTree_prefixFree h he true, codesOfTree_present_iff h he⟩

/-- Settles O37: TB_BUILD leaves a sound tree (`treeOver_sound`), whose leaves are those of the non-zero counts. -/
theorem codesArePrefixFree : Obligations.CodesArePrefixFree := by
  refine ⟨fun s hq hp hv h => ctBuild_prefixFree hq hp hv h, fun s hq hp hx => ?_⟩
  have hl : leavesOf s.counts ≠ [] := by
    rw [ne_eq, leavesOf_eq_nil_iff, not_forall]; exact hx
  obtain ⟨u, hu, hvalid, hfree, hpresent⟩ := ctBuild_prefixFree
    (s := afterSuccess 0x20 { s with tree := treeOver (leavesOf s.counts), codes := Codes.empty }) rfl hp rfl (treeOver_sound hl)
  exact ⟨u, by simp only [runAll, exec_tbBuild hq hp hl, hu], hvalid, hfree,
    fun x => (hpresent x).trans (leaf_mem_treeOver hl)⟩

/-! ### CT_READ -/

/-- RESULT of a present symbol: bit 31 and the length. -/
theorem codeResult_eq (c : Code) : codeResult c = if c.present then 1#1 ++ 0#22 ++ c.len else 0 := by
  have hlen : c.len.setWidth 32 = 0#23 ++ c.len := BitVec.setWidth_eq_append (by decide)
  have hmark : (0x80000000 : Word) = (1#1 ++ 0#22) ++ 0#9 := by decide
  rw [codeResult, hlen, hmark, BitVec.or_append, BitVec.or_zero, BitVec.zero_or]

theorem codeBitsOf_eq (c : Code) : codeBitsOf c = #v[c.bits.extractLsb' 0 32, c.bits.extractLsb' 32 32, c.bits.extractLsb' 64 32,
    c.bits.extractLsb' 96 32, c.bits.extractLsb' 128 32, c.bits.extractLsb' 160 32, c.bits.extractLsb' 192 32,
    c.bits.extractLsb' 224 32] := rfl

/-- Settles O38: the operand is a symbol up to 256 (`symbolCommand_eq`), and the code table is looked at after that. -/
theorem ctReadReturnsTheCode : Obligations.CtReadReturnsTheCode := by
  intro s arg hq hp
  refine (symbolCommand_eq 0x29 arg _ hq).trans ?_
  split_ifs with _ hv
  · exact command_raise .sequence hp (if_pos hv) hq.unstopped rfl
  · refine command_ok hp (if_neg hv) hq.unstopped ?_
    rw [codeResult_eq, codeBitsOf_eq]
    rfl
  · rfl

end Sys2Proof.Machine
end

section
/-! Bit sequences as bytes, and the writer that holds the bits after the whole bytes (10_state.md R38, 30_encoding.md R100). -/

namespace Sys2Proof.Machine

variable {bits xs ys : List Bool}

/-! ### The whole bytes of a bit sequence and the bits after them -/

@[simp] theorem length_wholeBytes (bits : List Bool) : (wholeBytes bits).length = bits.length / 8 := by simp [wholeBytes]

@[simp] theorem length_restBits (bits : List Bool) : (restBits bits).length = bits.length % 8 := by
  rw [restBits, List.length_drop, Nat.mod_eq_sub]

theorem wholeBytes_of_lt (h : bits.length < 8) : wholeBytes bits = [] := by
  rw [← List.length_eq_zero_iff, length_wholeBytes, Nat.div_eq_of_lt h]

theorem restBits_of_lt (h : bits.length < 8) : restBits bits = bits := by
  rw [restBits, Nat.div_eq_of_lt h, Nat.mul_zero, List.drop_zero]

theorem wholeBytes_of_length_eq (h : bits.length = 8) : wholeBytes bits = [packByte bits] := by
  rw [wholeBytes, h]
  exact congrArg (fun xs => [packByte xs]) (List.take_of_length_le h.le)

theorem drop_append_eq_restBits (xs ys : List Bool) : (xs ++ ys).drop (8 * (xs.length / 8)) = restBits xs ++ ys :=
  List.drop_append_of_le_length (Nat.mul_div_le ..)

/-- How many bytes a sequence has in front of those that its rest makes with what follows. -/
theorem length_append_div (xs ys : List Bool) :
    (xs ++ ys).length / 8 = xs.length / 8 + (restBits xs ++ ys).length / 8 := by
  simp only [List.length_append, length_restBits]; omega

/-- Bits that follow go on from the bits after the whole bytes. -/
theorem wholeBytes_append (xs ys : List Bool) : wholeBytes (xs ++ ys) = wholeBytes xs ++ wholeBytes (restBits xs ++ ys) := by
  rw [wholeBytes, length_append_div, List.range_add, List.map_append, List.map_map]
  congr 1
  · refine List.map_congr_left fun j hj => ?_
    have hj : 8 * j + 8 ≤ xs.length := by rw [List.mem_range] at hj; omega
    rw [List.drop_append_of_le_length (by omega), List.take_append_of_le_length (by rw [List.length_drop]; omega)]
  · refine List.map_congr_left fun j _ => ?_
    rw [Function.comp_apply, Nat.mul_add, ← List.drop_drop, drop_append_eq_restBits]

theorem restBits_append (xs ys : List Bool) : restBits (xs ++ ys) = restBits (restBits xs ++ ys) := by
  rw [restBits, length_append_div, Nat.mul_add, ← List.drop_drop, drop_append_eq_restBits, ← restBits]

theorem wholeBytes_take (bits : List Bool) (n : Nat) : wholeBytes (bits.take n) = (wholeBytes bits).take (n / 8) := by
  rcases Nat.le_total n bits.length with h | h
  · conv_rhs => rw [← List.take_append_drop n bits, wholeBytes_append]
    exact (List.take_left' (by rw [length_wholeBytes, List.length_take_of_le h])).symm
  · rw [List.take_of_length_le h, List.take_of_length_le (by rw [length_wholeBytes]; exact Nat.div_le_div_right h)]

theorem restBits_take (h : 8 * n + 7 ≤ bits.length) : restBits (bits.take (8 * n + 7)) = (bits.drop (8 * n)).take 7 := by
  rw [restBits, List.length_take_of_le h, show (8 * n + 7) / 8 = n by omega, List.drop_take, Nat.add_sub_cancel_left]

/-! ### The bits of a byte -/

theorem testBit_packed (bits : List Bool) (k : Nat) :
    (bits.foldr (fun (b : Bool) rest => b.toNat + 2 * rest) 0).testBit k = bits.getD k false := by
  induction bits generalizing k with
  | nil => simp
  | cons b bs ih =>
    cases k with
    | zero => cases b <;> simp
    | succ k =>
      rw [List.foldr_cons, Nat.testBit_succ, List.getD_cons_succ, ← ih]
      congr 1
      cases b <;> simp
      omega

theorem getLsbD_packByte (bits : List Bool) (k : Nat) : (packByte bits).getLsbD k = (decide (k < 8) && bits.getD k false) := by
  rw [packByte, BitVec.getLsbD_ofNat, testBit_packed]

/-- The missing bits of a byte read 0. -/
theorem byteBits_packByte (h : bits.length ≤ 8) : byteBits (packByte bits) = bits ++ List.replicate (8 - bits.length) false := by
  refine List.ext_getElem (by simp [byteBits]; omega) fun k hk _ => ?_
  have hk : k < 8 := by simpa [byteBits] using hk
  rcases Nat.lt_or_ge k bits.length with hlt | hge
  · simp [byteBits, getLsbD_packByte, hk, hlt]
  · simp [byteBits, getLsbD_packByte, List.getElem_append_right hge, hge]

theorem flatMap_byteBits_wholeBytes (bits : List Bool) :
    (wholeBytes bits).flatMap byteBits ++ restBits bits = bits := by
  induction hn : bits.length using Nat.strongRecOn generalizing bits with
  | ind n ih =>
    rcases Nat.lt_or_ge bits.length 8 with h | h
    · rw [wholeBytes_of_lt h, restBits_of_lt h]; rfl
    · have hlen : (bits.take 8).length = 8 := List.length_take_of_le h
      have hrest : restBits (bits.take 8) = [] := by
        rw [← List.length_eq_zero_iff, length_restBits, hlen]
      have ih := ih (bits.drop 8).length (by rw [List.length_drop]; omega) (bits.drop 8) rfl
      conv_lhs => rw [← List.take_append_drop 8 bits, wholeBytes_append, restBits_append, hrest, wholeBytes_of_length_eq hlen]
      rw [List.nil_append, List.singleton_append, List.flatMap_cons, byteBits_packByte hlen.le, hlen, List.append_assoc, ih]
      simp

/-! ### The packed stream -/

theorem length_packBits (bits : List Bool) : (packBits bits).length = (bits.length + 7) / 8 := by
  have hrest : restBits bits = [] ↔ bits.length % 8 = 0 := by rw [← length_restBits, List.length_eq_zero_iff]
  rw [packBits]
  split_ifs with h <;> rw [hrest] at h <;> simp <;> omega

/-- A packed sequence is read back, followed by fewer than eight zeros. -/
theorem flatMap_byteBits_packBits (bits : List Bool) :
    ∃ pad < 8, (packBits bits).flatMap byteBits = bits ++ List.replicate pad false := by
  have hbits := flatMap_byteBits_wholeBytes bits
  have hlen := length_restBits bits
  rw [packBits]
  split_ifs with h
  · exact ⟨0, by omega, by simpa [h] using hbits⟩
  · refine ⟨8 - (restBits bits).length, by have := List.length_pos_iff.mpr h; omega, ?_⟩
    rw [List.flatMap_append, List.flatMap_singleton, byteBits_packByte (by omega), ← List.append_assoc, hbits]

theorem packBits_take {n : Nat} (h : n ≤ bits.length / 8) : (packBits bits).take n = (wholeBytes bits).take n := by
  rw [packBits]
  split_ifs
  · rfl
  · exact List.take_append_of_le_length (by rwa [length_wholeBytes])

/-! ### The writer that holds a sequence of bits -/

theorem n_writerOf (h : xs.length < 8) : (writerOf xs).n.toNat = xs.length :=
  (BitVec.toNat_ofNat ..).trans (Nat.mod_eq_of_lt h)

@[simp] theorem length_bufferedBits (w : BitWriter) : (bufferedBits w).length = w.n.toNat := by simp [bufferedBits]

/-- A legal writer is the one that holds its buffered bits. -/
theorem writerOf_bufferedBits {w : BitWriter} (h : writerLegal w) : writerOf (bufferedBits w) = w := by
  have hbuf : packByte (bufferedBits w) = w.buf := by
    refine BitVec.eq_of_getLsbD_eq fun k hk => ?_
    rw [getLsbD_packByte, decide_eq_true hk, Bool.true_and]
    rcases Nat.lt_or_ge k w.n.toNat with hlt | hge
    · simp [bufferedBits, hlt]
    · have hzero : w.buf.toNat.testBit k = false :=
        Nat.testBit_lt_two_pow (h.trans_le (Nat.pow_le_pow_right (by decide) hge))
      rw [List.getD_eq_default _ _ (by simpa using hge)]
      exact hzero.symm
  rw [writerOf, length_bufferedBits, hbuf, BitVec.ofNat_toNat, BitVec.setWidth_eq]

theorem writerOf_nil : writerOf [] = { n := 0, buf := 0 } := rfl

theorem getLsbD_bitAt (b : Bool) {n k : Nat} (hk : k < 8) : (bitAt b n).getLsbD k = (decide (k = n) && b) := by
  rcases Nat.lt_trichotomy k n with h | rfl | h
  · simp [bitAt, hk, h, h.ne]
  · simp [bitAt, hk]
  · simp [bitAt, hk, h.ne', show k - n ≠ 0 by omega]

/-- One more bit goes to the place after the buffered ones. -/
theorem packByte_append_singleton (xs : List Bool) (b : Bool) : packByte xs ||| bitAt b xs.length = packByte (xs ++ [b]) := by
  refine BitVec.eq_of_getLsbD_eq fun k hk => ?_
  rw [BitVec.getLsbD_or, getLsbD_bitAt b hk, getLsbD_packByte, getLsbD_packByte, List.getD_eq_getElem?_getD,
    List.getD_eq_getElem?_getD]
  rcases Nat.lt_trichotomy k xs.length with h | rfl | h
  · simp [h.ne, List.getElem?_append_left h]
  · simp [hk]
  · simp [h.ne', List.getElem?_eq_none, h.le, Nat.succ_le_of_lt h]

theorem writerOf_append_singleton (h : xs.length < 8) (b : Bool) :
    writerOf (xs ++ [b]) = { n := (writerOf xs).n + 1, buf := (writerOf xs).buf ||| bitAt b (writerOf xs).n.toNat } := by
  rw [n_writerOf h, writerOf, ← packByte_append_singleton, List.length_append, List.length_singleton, BitVec.ofNat_add]
  rfl

end Sys2Proof.Machine
end

section
/-! The writer of a running command, and ENC_SYMBOL (44_compress.md R200, 46_bitstream.md R241, R243). -/

namespace Sys2Proof.Machine

variable {s : State} {bits cs : List Bool}

/-- The state after a sequence of bits is put to an empty writer: the whole bytes are in the sink, the bits after them in the writer. -/
def bitsPut (s : State) (bits : List Bool) : State := (wrote s (wholeBytes bits)).setBw (writerOf (restBits bits))

theorem State.undisturbed.bitsPut (h : s.undisturbed) (bits : List Bool) : (bitsPut s bits).undisturbed := h

/-- Fewer than eight bits are all in the writer. -/
theorem bitsPut_of_lt (h : bits.length < 8) : bitsPut s bits = s.setBw (writerOf bits) := by
  rw [bitsPut, wholeBytes_of_lt h, restBits_of_lt h, wrote_nil]

/-- A command starts on a legal writer as after its buffered bits. -/
theorem bitsPut_bufferedBits (h : writerLegal s.bw) : bitsPut s (bufferedBits s.bw) = s := by
  rw [bitsPut_of_lt (by rw [length_bufferedBits]; exact s.bw.n.isLt), writerOf_bufferedBits h]
  rfl

theorem room_bitsPut (h : bits.length / 8 ≤ room s) : room (bitsPut s bits) = room s - bits.length / 8 := by
  rw [← length_wholeBytes] at h ⊢
  exact room_wrote h

/-- A sink byte for the bits put so far and those to come. -/
theorem sinkByte_bitsPut (hu : s.undisturbed) (h : bits.length / 8 ≤ room s) (v : Byte) :
    sinkByte v (bitsPut s bits) =
      if bits.length / 8 + 1 ≤ room s then .ok () ((wrote s (wholeBytes bits ++ [v])).setBw (writerOf (restBits bits)))
      else .raise .io (bitsPut s bits) := by
  have hroom := room_bitsPut h
  simp only [room] at hroom
  split_ifs with hfit
  · have hone : sinkByte v (bitsPut s bits) = .ok () (wrote (bitsPut s bits) [v]) :=
      sinkByte_undisturbed v (hu.bitsPut bits) (by simp only [room] at hfit; omega)
    rw [hone, ← wrote_wrote (by rwa [length_wholeBytes])]
    rfl
  · exact sinkByte_full v (by simp only [room] at hfit h; omega)

/-- One more bit: it is buffered, or completes a byte, for which the sink has room or not (46_bitstream.md R241). -/
theorem putbit_bitsPut (hu : s.undisturbed) (h : bits.length / 8 ≤ room s) (b : Bool) :
    putbit b (bitsPut s bits) =
      if (bits ++ [b]).length / 8 ≤ room s then .ok () (bitsPut s (bits ++ [b])) else .raise .io (bitsPut s bits) := by
  have hlt : (restBits bits).length < 8 := by rw [length_restBits]; omega
  have hn : (bitsPut s bits).bw.n.toNat = bits.length % 8 := (n_writerOf hlt).trans (length_restBits bits)
  have hlen : (restBits bits ++ [b]).length = bits.length % 8 + 1 := by simp
  have hwhole : (bits ++ [b]).length = bits.length + 1 := by simp
  by_cases h7 : bits.length % 8 = 7
  · have hn7 : (bitsPut s bits).bw.n = 7 := BitVec.eq_of_toNat_eq (hn.trans h7)
    have hbyte : (bitsPut s bits).bw.buf ||| bitAt b 7 = packByte (restBits bits ++ [b]) := by
      rw [← packByte_append_singleton, length_restBits, h7]; rfl
    have hnext : bitsPut s (bits ++ [b]) =
        ((wrote s (wholeBytes bits ++ [packByte (restBits bits ++ [b])])).setBw { n := 0, buf := 0 }) := by
      have hnil : restBits (restBits bits ++ [b]) = [] := by rw [← List.length_eq_zero_iff, length_restBits, hlen, h7]
      rw [bitsPut, wholeBytes_append, restBits_append, hnil, wholeBytes_of_length_eq (hlen.trans (by omega)), writerOf_nil]
    rw [putbit, if_pos hn7, hbyte, sinkByte_bitsPut hu h, hwhole, hnext, show (bits.length + 1) / 8 = bits.length / 8 + 1 by omega]
    split_ifs <;> rfl
  · have hn7 : ¬(bitsPut s bits).bw.n = 7 := fun e => h7 (hn.symm.trans (congrArg BitVec.toNat e))
    have hnext : bitsPut s (bits ++ [b]) = (wrote s (wholeBytes bits)).setBw (writerOf (restBits bits ++ [b])) := by
      have hlt : (restBits bits ++ [b]).length < 8 := by omega
      rw [bitsPut, wholeBytes_append, restBits_append, wholeBytes_of_lt hlt, restBits_of_lt hlt, List.append_nil]
    rw [putbit, if_neg hn7, if_pos (by omega), hnext, writerOf_append_singleton hlt]
    rfl

/-- Bits are put in order, or as many of them as the sink has room for their whole bytes, and seven more. -/
theorem putbits_bitsPut (hu : s.undisturbed) (h : bits.length / 8 ≤ room s) (cs : List Bool) :
    putbits cs (bitsPut s bits) =
      if (bits ++ cs).length / 8 ≤ room s then .ok () (bitsPut s (bits ++ cs))
      else .raise .io (bitsPut s ((bits ++ cs).take (8 * room s + 7))) := by
  induction cs generalizing bits with
  | nil => rw [List.append_nil, if_pos h]; rfl
  | cons c cs ih =>
    rw [putbits, putbit_bitsPut hu h]
    have hlen : (bits ++ [c]).length = bits.length + 1 := by simp
    have hlen' : (bits ++ c :: cs).length = bits.length + 1 + cs.length := by simp; omega
    by_cases hc : (bits ++ [c]).length / 8 ≤ room s
    · rw [if_pos hc, Result.ok_andThen, ih hc, List.append_assoc, List.singleton_append]
    · rw [if_neg hc, if_neg (by omega), List.take_append_of_le_length (by omega), List.take_of_length_le (by omega)]
      rfl

/-- The same of a command that starts on a legal writer. -/
theorem putbits_of_writerLegal (hu : s.undisturbed) (hw : writerLegal s.bw) (cs : List Bool) :
    putbits cs s =
      if (bufferedBits s.bw ++ cs).length / 8 ≤ room s then .ok () (bitsPut s (bufferedBits s.bw ++ cs))
      else .raise .io (bitsPut s ((bufferedBits s.bw ++ cs).take (8 * room s + 7))) := by
  have hlen : (bufferedBits s.bw).length / 8 ≤ room s := by
    have := s.bw.n.isLt; rw [length_bufferedBits]; omega
  have h := putbits_bitsPut hu hlen cs
  rwa [bitsPut_bufferedBits hw] at h

/-- The sink takes the whole bytes of the bits that a full sink leaves, and the writer holds the seven after them. -/
theorem bitsPut_take (h : 8 * room s + 7 ≤ bits.length) :
    bitsPut s (bits.take (8 * room s + 7)) =
      (wrote s ((wholeBytes bits).take (room s))).setBw (writerOf ((bits.drop (8 * room s)).take 7)) := by
  rw [bitsPut, wholeBytes_take, restBits_take h, show (8 * room s + 7) / 8 = room s by omega]

/-- BW_FLUSH and the end of COMPRESS: the bits after the whole bytes are written, zero-padded (46_bitstream.md R243). -/
theorem flushBody_bitsPut (hu : s.undisturbed) (h : bits.length / 8 ≤ room s) :
    flushBody (bitsPut s bits) =
      if (packBits bits).length ≤ room s then .ok () ((wrote s (packBits bits)).setBw { n := 0, buf := 0 })
      else .raise .io (bitsPut s bits) := by
  have hlt : (restBits bits).length < 8 := by rw [length_restBits]; omega
  have hn : (bitsPut s bits).bw.n.toNat = (restBits bits).length := n_writerOf hlt
  by_cases hnil : restBits bits = []
  · have hn0 : (bitsPut s bits).bw.n = 0 := BitVec.eq_of_toNat_eq (hn.trans (by rw [hnil]; rfl))
    rw [flushBody, if_pos hn0, packBits, if_pos hnil, if_pos (by rwa [length_wholeBytes]), bitsPut, hnil, writerOf_nil]
  · have hn0 : ¬(bitsPut s bits).bw.n = 0 := fun e =>
      hnil (List.length_eq_zero_iff.mp (hn.symm.trans (congrArg BitVec.toNat e)))
    rw [flushBody, if_neg hn0, packBits, if_neg hnil, List.length_append, length_wholeBytes, List.length_singleton]
    have hbuf : (bitsPut s bits).bw.buf = packByte (restBits bits) := rfl
    rw [hbuf, sinkByte_bitsPut hu h]
    split_ifs <;> rfl

/-! ### ENC_SYMBOL -/

theorem encSymbolBody_of_present {x : Symbol} (hv : s.codes.valid = true) (hx : (codeOf s x).present = true) :
    encSymbolBody x s = putbits (codeBitList (codeOf s x)) s :=
  if_neg (by simp [hv, hx])

theorem encSymbolBody_of_absent {x : Symbol} (h : ¬(s.codes.valid = true ∧ (codeOf s x).present = true)) :
    encSymbolBody x s = .raise .consistency s :=
  if_pos (by simpa [Classical.or_iff_not_imp_left] using h)

/-- Settles O45: the writer starts as after its buffered bits (`bitsPut_bufferedBits`), and the code's bits follow (`putbits_bitsPut`). -/
theorem encSymbolWritesTheCode : Obligations.EncSymbolWritesTheCode := by
  intro s arg hq hp hw
  refine (symbolCommand_eq 0x30 arg _ hq).trans ?_
  split_ifs with harg hcode
  · have hbody := (encSymbolBody_of_present (s := startSteps 0x30 s) (x := ⟨arg.toNat, by omega⟩) hcode.1 hcode.2).trans
      (putbits_of_writerLegal (s := startSteps 0x30 s) hq.undisturbed hw _)
    dsimp only
    split_ifs with hfit
    · exact command_ok hp (hbody.trans (if_pos hfit)) hq.unstopped rfl
    · rw [bitsPut_take] at hbody
      · exact command_raise .io hp (hbody.trans (if_neg hfit)) hq.unstopped rfl
      · have hlt := not_le.mp hfit
        change 8 * room s + 7 ≤ (bufferedBits s.bw ++ codeBitList s.codes.entries[arg.toNat]).length
        omega
  · exact command_raise .consistency hp (encSymbolBody_of_absent hcode) hq.unstopped rfl
  · rfl

end Sys2Proof.Machine
end

section
/-! The encoding of the source bytes by COMPRESS (44_compress.md R205 steps 6 and 7). -/

namespace Sys2Proof.Machine

variable {s : State} {b : Byte} {k : Nat} {xs ys : List Byte} {bits : List Bool}

/-- The code bits of source bytes, in the code table that a state holds. -/
def codeBits (s : State) (bytes : List Byte) : List Bool :=
  (bytes.map byteSymbol).flatMap fun x => codeBitList (codeOf s x)

theorem codeBits_append (s : State) (xs ys : List Byte) : codeBits s (xs ++ ys) = codeBits s xs ++ codeBits s ys := by
  rw [codeBits, List.map_append, List.flatMap_append]; rfl

theorem codeBits_singleton (s : State) (b : Byte) : codeBits s [b] = codeBitList (codeOf s (byteSymbol b)) :=
  List.flatMap_singleton ..

/-- The code bits of the first `k` source bytes. -/
def codedBits (s : State) (k : Nat) : List Bool := codeBits s ((sourceBytes s).take k)

theorem codedBits_succ (hb : (sourceBytes s)[k]? = some b) :
    codedBits s (k + 1) = codedBits s k ++ codeBitList (codeOf s (byteSymbol b)) := by
  have htake : (sourceBytes s).take (k + 1) = (sourceBytes s).take k ++ [b] := by rw [List.take_add_one, hb]; rfl
  rw [codedBits, htake, codeBits_append, codeBits_singleton, codedBits]

theorem codedBits_prefix (s : State) (k : Nat) : codedBits s k <+: codeBits s (sourceBytes s) :=
  ⟨codeBits s ((sourceBytes s).drop k), by rw [codedBits, ← codeBits_append, List.take_append_drop]⟩

theorem codedBits_bytesLeft (s : State) : codedBits s (bytesLeft s) = codeBits s (sourceBytes s) := by
  rw [codedBits, ← length_sourceBytes, List.take_length]

/-- The code bits of the source bytes and of the terminator. -/
def allCodeBits (s : State) : List Bool := codeBits s (sourceBytes s) ++ codeBitList (codeOf s terminator)

/-- When bit `i` of the code bits is put, `m` source bytes are taken: it is a bit of the code of the last of them, or of the terminator. -/
def TakenAtBit (s : State) (i m : Nat) : Prop :=
  m ≤ bytesLeft s ∧ (m = bytesLeft s ∨ i < (codedBits s m).length) ∧ (m = 0 ∨ (codedBits s (m - 1)).length ≤ i)

/-! ### One symbol -/

theorem taken_bitsPut (s : State) (bits : List Bool) (n : Nat) : taken (bitsPut s bits) n = bitsPut (taken s n) bits := by
  have hleft : taken (bitsPut s bits) n =
      (beaten (beaten (consumed (appended s (wholeBytes bits)) n) (wholeBytes bits).length) n).setBw (writerOf (restBits bits)) := rfl
  rw [hleft, beaten_beaten, Nat.add_comm, ← beaten_beaten]
  rfl

theorem srcPos_bitsPut (s : State) (bits : List Bool) : (bitsPut s bits).ports.srcPos = s.ports.srcPos := rfl

theorem bytesLeft_bitsPut (s : State) (bits : List Bool) : bytesLeft (bitsPut s bits) = bytesLeft s := rfl

theorem takeByte_bitsPut (hu : s.undisturbed) (hb : (sourceBytes s)[k]? = some b) (bits : List Bool) :
    takeByte (bitsPut (taken s k) bits) = .ok b (bitsPut (taken s (k + 1)) bits) := by
  obtain ⟨hk, hget⟩ := List.getElem?_eq_some_iff.mp hb
  have hpos : (bitsPut (taken s k) bits).ports.srcPos.toNat = s.ports.srcPos.toNat + k := by
    rw [srcPos_bitsPut, srcPos_taken (length_sourceBytes s ▸ hk).le]
  rw [takeByte_undisturbed ((hu.taken k).bitsPut bits), advanceSrc_beaten, taken_bitsPut, taken_taken, hpos, ← hget,
    getElem_sourceBytes]
  rfl

theorem exhausted_bitsPut (h : k ≤ bytesLeft s) (bits : List Bool) :
    exhausted (bitsPut (taken s k) bits) = true ↔ k = bytesLeft s := by
  rw [exhausted_iff, bytesLeft_bitsPut, bytesLeft_taken h]
  omega

theorem encSymbolBody_bitsPut {x : Symbol} (hu : s.undisturbed) (hv : s.codes.valid = true) (hx : (codeOf s x).present = true)
    (h : bits.length / 8 ≤ room s) :
    encSymbolBody x (bitsPut s bits) =
      if (bits ++ codeBitList (codeOf s x)).length / 8 ≤ room s then .ok () (bitsPut s (bits ++ codeBitList (codeOf s x)))
      else .raise .io (bitsPut s ((bits ++ codeBitList (codeOf s x)).take (8 * room s + 7))) :=
  (encSymbolBody_of_present (s := bitsPut s bits) hv hx).trans (putbits_bitsPut hu h _)

/-! ### All symbols -/

/-- The encoding puts the bits of all codes, or as many of them as the sink has room for their whole bytes, and seven more. -/
theorem encodeLoop_cases (hu : s.undisturbed) (hv : s.codes.valid = true)
    (hsource : ∀ b ∈ sourceBytes s, (codeOf s (byteSymbol b)).present = true) (hterm : (codeOf s terminator).present = true)
    (hk : k ≤ bytesLeft s) (hfit : (codedBits s k).length / 8 ≤ room s)
    (hprev : k = 0 ∨ (codedBits s (k - 1)).length ≤ 8 * room s + 7) :
    ((allCodeBits s).length / 8 ≤ room s ∧ encodeLoop (bytesLeft s - k) (bitsPut (taken s k) (codedBits s k)) =
        .ok () (bitsPut (taken s (bytesLeft s)) (allCodeBits s))) ∨
    (room s < (allCodeBits s).length / 8 ∧ ∃ m, TakenAtBit s (8 * room s + 7) m ∧
      encodeLoop (bytesLeft s - k) (bitsPut (taken s k) (codedBits s k)) =
        .raise .io (bitsPut (taken s m) ((allCodeBits s).take (8 * room s + 7)))) := by
  induction hn : bytesLeft s - k generalizing k with
  | zero =>
    obtain rfl : k = bytesLeft s := by omega
    have hall : codedBits s (bytesLeft s) ++ codeBitList (codeOf s terminator) = allCodeBits s := by
      rw [codedBits_bytesLeft, allCodeBits]
    have hbody := encSymbolBody_bitsPut (s := taken s (bytesLeft s)) (hu.taken _) hv hterm hfit
    rw [show codeOf (taken s (bytesLeft s)) terminator = codeOf s terminator from rfl, hall] at hbody
    rcases Nat.lt_or_ge (room s) ((allCodeBits s).length / 8) with hlt | hle
    · exact .inr ⟨hlt, bytesLeft s, ⟨le_rfl, .inl rfl, hprev⟩, hbody.trans (if_neg (not_le.mpr hlt))⟩
    · exact .inl ⟨hle, hbody.trans (if_pos hle)⟩
  | succ n ih =>
    obtain ⟨b, hb⟩ : ∃ b, (sourceBytes s)[k]? = some b :=
      ⟨_, List.getElem?_eq_getElem (by rw [length_sourceBytes]; omega)⟩
    have hx : ¬exhausted (bitsPut (taken s k) (codedBits s k)) = true := by rw [exhausted_bitsPut hk]; omega
    have hput := encSymbolBody_bitsPut (s := taken s (k + 1)) (hu.taken _) hv (hsource b (List.mem_of_getElem? hb)) hfit
    rw [show codeOf (taken s (k + 1)) (byteSymbol b) = codeOf s (byteSymbol b) from rfl, ← codedBits_succ hb] at hput
    rw [encodeLoop, if_neg hx, takeByte_bitsPut hu hb, Result.ok_andThen, hput]
    have hroom : room (taken s (k + 1)) = room s := rfl
    rw [hroom]
    by_cases hnext : (codedBits s (k + 1)).length / 8 ≤ room s
    · rw [if_pos hnext, Result.ok_andThen]
      exact ih (by omega) hnext (.inr (by rw [Nat.add_sub_cancel]; omega)) (by omega)
    · obtain ⟨rest, hrest⟩ := (codedBits_prefix s (k + 1)).trans (List.prefix_append _ (codeBitList (codeOf s terminator)))
      have hall : allCodeBits s = codedBits s (k + 1) ++ rest := hrest.symm
      have hlen : (allCodeBits s).length = (codedBits s (k + 1)).length + rest.length := by rw [hall, List.length_append]
      refine .inr ⟨by omega, k + 1, ⟨by omega, .inr (by omega), .inr (by rw [Nat.add_sub_cancel]; omega)⟩, ?_⟩
      rw [if_neg hnext, hall, List.take_append_of_le_length (by omega)]
      rfl

/-- The encoding and the flush put the packed bits of all codes, or end where the next byte does not fit the sink. -/
theorem encodeAndFlush_cases (hu : s.undisturbed) (hv : s.codes.valid = true)
    (hsource : ∀ b ∈ sourceBytes s, (codeOf s (byteSymbol b)).present = true) (hterm : (codeOf s terminator).present = true)
    (hw : s.bw = { n := 0, buf := 0 }) :
    ((packBits (allCodeBits s)).length ≤ room s ∧ (encodeLoop (bytesLeft s) s).andThen (fun _ s => flushBody s) =
        .ok () ((wrote (taken s (bytesLeft s)) (packBits (allCodeBits s))).setBw { n := 0, buf := 0 })) ∨
    (room s < (packBits (allCodeBits s)).length ∧ ∃ m, TakenAtBit s (8 * room s + 7) m ∧
      (encodeLoop (bytesLeft s) s).andThen (fun _ s => flushBody s) =
        .raise .io ((wrote (taken s m) ((packBits (allCodeBits s)).take (room s))).setBw
          (writerOf (((allCodeBits s).drop (8 * room s)).take 7)))) := by
  have hnone : codedBits s 0 = [] := rfl
  have hstart : bitsPut (taken s 0) (codedBits s 0) = s := by
    rw [taken_zero, hnone, bitsPut_of_lt (by decide), writerOf_nil, ← hw]
    rfl
  have hloop := encodeLoop_cases (k := 0) hu hv hsource hterm (Nat.zero_le _) (by rw [hnone]; exact Nat.zero_le _) (.inl rfl)
  rw [hstart, Nat.sub_zero] at hloop
  have hlen := length_packBits (allCodeBits s)
  rcases hloop with ⟨hfit, hok⟩ | ⟨hfull, m, hm, hraise⟩
  · have hflush := flushBody_bitsPut (s := taken s (bytesLeft s)) (hu.taken _) hfit
    rw [hok, Result.ok_andThen, hflush]
    rcases Nat.lt_or_ge (room s) (packBits (allCodeBits s)).length with hlt | hle
    · refine .inr ⟨hlt, bytesLeft s, ⟨le_rfl, .inl rfl, ?_⟩, ?_⟩
      · have hle : (codedBits s (bytesLeft s - 1)).length ≤ (allCodeBits s).length :=
          ((codedBits_prefix s _).trans (List.prefix_append _ _)).length_le
        exact .inr (by omega)
      · have hdiv : (allCodeBits s).length / 8 = room s := by omega
        have hrest : restBits (allCodeBits s) = ((allCodeBits s).drop (8 * room s)).take 7 := by
          rw [restBits, hdiv, List.take_of_length_le (by rw [List.length_drop]; omega)]
        rw [packBits_take hdiv.ge, ← hrest, List.take_of_length_le (by rw [length_wholeBytes]; exact hdiv.le)]
        exact if_neg (not_le.mpr hlt)
    · exact .inl ⟨hle, if_pos hle⟩
  · refine .inr ⟨by omega, m, hm, ?_⟩
    have hlong : 8 * room (taken s m) + 7 ≤ (allCodeBits s).length := by
      change 8 * room s + 7 ≤ _
      omega
    rw [hraise, packBits_take hfull.le]
    exact congrArg (Result.raise .io) (bitsPut_take hlong)

end Sys2Proof.Machine
end

section
/-! The table, the tree and the codes that COMPRESS makes of its source bytes (44_compress.md R205, R206). -/

namespace Sys2Proof.Machine

variable {bytes : List Byte} {counts : Vector Word 257} {e : Vector Code 257} {x : Symbol}

/-! ### The table -/

theorem occurrences_terminator (bytes : List Byte) : occurrences bytes terminator = 0 := by
  rw [occurrences, List.countP_eq_zero]
  intro b _
  have hb := b.isLt
  have hne : b.toNat ≠ 256 := by omega
  simpa [terminator] using hne

theorem byteSymbol_ne_terminator (b : Byte) : byteSymbol b ≠ terminator := fun h => by
  have hval : b.toNat = 256 := congrArg Fin.val h
  have := b.isLt
  omega

theorem getElem_compressTable_terminator (bytes : List Byte) : (compressTable bytes)[terminator.val] = 1 :=
  Vector.getElem_set_self ..

theorem getElem_compressTable_of_ne (h : x ≠ terminator) :
    (compressTable bytes)[x.val] = BitVec.ofNat 32 (occurrences bytes x) := by
  rw [compressTable, Vector.getElem_set_ne _ _ fun e => h (Fin.ext e).symm, getElem_occurrenceTable]

theorem toNat_ofNat_of_le_maxCount {n : Nat} (h : n ≤ Config.maxCount) : (BitVec.ofNat 32 n).toNat = n := by
  simp only [Config.maxCount] at h
  exact (BitVec.toNat_ofNat ..).trans (Nat.mod_eq_of_lt (by omega))

theorem countsLegal_compressTable (h : ∀ x : Symbol, occurrences bytes x ≤ Config.maxCount) : countsLegal (compressTable bytes) := by
  intro x
  by_cases hx : x = terminator
  · rw [hx, getElem_compressTable_terminator]; decide
  · rw [getElem_compressTable_of_ne hx, toNat_ofNat_of_le_maxCount (h x)]; exact h x

/-- Every byte that occurs has a count. -/
theorem compressTable_byteSymbol_ne_zero {b : Byte} (h : ∀ x : Symbol, occurrences bytes x ≤ Config.maxCount) (hb : b ∈ bytes) :
    (compressTable bytes)[(byteSymbol b).val] ≠ 0 := by
  have hpos : 0 < occurrences bytes (byteSymbol b) := List.countP_pos_iff.mpr ⟨b, hb, by simp [byteSymbol]⟩
  intro hzero
  rw [getElem_compressTable_of_ne (byteSymbol_ne_terminator b)] at hzero
  have hval := congrArg BitVec.toNat hzero
  rw [toNat_ofNat_of_le_maxCount (h _)] at hval
  exact hpos.ne' hval

theorem compressTable_terminator_ne_zero (bytes : List Byte) : (compressTable bytes)[terminator.val] ≠ 0 := by
  rw [getElem_compressTable_terminator]; decide

theorem leavesOf_ne_nil (h : counts[x.val] ≠ 0) : leavesOf counts ≠ [] :=
  fun hl => h (leavesOf_eq_nil_iff.mp hl x)

theorem leavesOf_compressTable_ne_nil (bytes : List Byte) : leavesOf (compressTable bytes) ≠ [] :=
  leavesOf_ne_nil (compressTable_terminator_ne_zero bytes)

/-! ### The codes of a table -/

theorem exists_codesOfTree (hl : leavesOf counts ≠ []) : ∃ e, codesOfTree (treeOver (leavesOf counts)) = some e :=
  Option.ne_none_iff_exists'.mp (codesOfTree_some (treeOver_sound hl))

/-- The symbols with a count are those with a code. -/
theorem present_of_count (he : codesOfTree (treeOver (leavesOf counts)) = some e) (h : counts[x.val] ≠ 0) :
    e[x.val].present = true :=
  (codesOfTree_present_iff (treeOver_sound (leavesOf_ne_nil h)) he x).mpr ((leaf_mem_treeOver (leavesOf_ne_nil h)).mpr h)

theorem codeIn_eq (he : codesOfTree (treeOver (leavesOf counts)) = some e) (x : Symbol) :
    codeIn counts x = codeBitList e[x.val] := by
  rw [codeIn, he]

theorem streamBits_eq (counts : Vector Word 257) (bytes : List Byte) :
    streamBits counts bytes = (bytes.map byteSymbol).flatMap (codeIn counts) ++ codeIn counts terminator := by
  rw [streamBits, List.flatMap_append, List.flatMap_singleton]

end Sys2Proof.Machine
end

section
/-! COMPRESS (44_compress.md R205, R206), and what it leaves where it fails (60_exceptions.md R307, R311). -/

namespace Sys2Proof.Machine

variable {s : State} {b : Byte} {k : Nat} {table : Vector Word 257} {head : List Byte} {t : Tree}
  {e : Vector Code 257}

/-! ### Before the table is written -/

/-- COMPRESS after the table is written: steps 4 to 7 of R205. -/
def encodeBody (s : State) : Result Unit :=
  (tbBuildBody s).andThen fun _ s =>
  (ctBuildBody s).andThen fun _ s =>
  (rewind s).andThen fun _ s =>
  (encodeLoop (bytesLeft s) s).andThen fun _ s => flushBody s

/-- The state of COMPRESS when the source is counted in a table and consumed. -/
def compressCounted (s : State) (table : Vector Word 257) : State :=
  { consumed s (bytesLeft s) with
    counts := table
    tree := { s.tree with valid := false, arena := [] }
    codes := Codes.empty
    bw := { n := 0, buf := 0 }
    seq := { s.seq with beat := s.seq.beat + bytesLeft s, srcStart := s.ports.srcPos } }

theorem tabled_compressStart (s : State) (table : Vector Word 257) :
    tabled (compressStart s) table (bytesLeft s) = compressCounted s table := by
  cases s
  rfl

theorem State.undisturbed.compressStart (h : s.undisturbed) : (compressStart s).undisturbed := h

theorem sourceBytes_compressStart (s : State) : sourceBytes (compressStart s) = sourceBytes s := rfl

theorem analyzeBody_compressStart (hu : s.undisturbed) (hc : ∀ x : Symbol, occurrences (sourceBytes s) x ≤ Config.maxCount) :
    analyzeBody (compressStart s) = .ok () (compressCounted s (occurrenceTable (sourceBytes s))) := by
  have hall : (sourceBytes (compressStart s)).take (bytesLeft (compressStart s)) = sourceBytes s := by
    rw [← length_sourceBytes, List.take_length, sourceBytes_compressStart]
  rw [analyzeBody_eq hu.compressStart le_rfl (by rwa [hall]), Nat.sub_self, counted, hall, ← tabled_compressStart]
  rfl

/-- The terminator occurs in no source, and its count becomes 1. -/
theorem addTerminatorBody_compressCounted (s : State) (bytes : List Byte) :
    addTerminatorBody (compressCounted s (occurrenceTable bytes)) = .ok () (compressCounted s (compressTable bytes)) := by
  have hcount : countOf (compressCounted s (occurrenceTable bytes)) terminator = 0 := by
    have hzero := getElem_occurrenceTable bytes terminator
    rw [occurrences_terminator] at hzero
    exact hzero
  have hfull : ¬countFull (compressCounted s (occurrenceTable bytes)) terminator = true := by
    rw [countFull_iff, hcount]; decide
  rw [addTerminatorBody, if_neg hfull, addOne, hcount, compressTable]
  -- the rest holds by definition, whatever the table: `rfl` must not evaluate it
  generalize occurrenceTable bytes = table
  rfl

theorem compressBody_eq (hu : s.undisturbed) (hc : ∀ x : Symbol, occurrences (sourceBytes s) x ≤ Config.maxCount) :
    compressBody s = (sinkBytes (serializedTable (compressTable (sourceBytes s)))
      (compressCounted s (compressTable (sourceBytes s)))).andThen fun _ s => encodeBody s := by
  rw [compressBody, analyzeBody_compressStart hu hc, Result.ok_andThen, addTerminatorBody_compressCounted, Result.ok_andThen,
    serializeBody_eq]
  rfl

theorem sinkBytes_compressCounted (hu : s.undisturbed) :
    sinkBytes head (compressCounted s table) =
      if head.length ≤ room s then .ok () (wrote (compressCounted s table) head)
      else .raise .io (wrote (compressCounted s table) (head.take (room s))) :=
  sinkBytes_eq (s := compressCounted s table) hu head

/-! ### After the table is written -/

theorem treeOver_valid (leaves : List Node) : (treeOver leaves).valid = true := rfl

theorem tbBuildBody_of_leaves (h : leavesOf s.counts ≠ []) :
    tbBuildBody s = .ok () ((s.setTree (treeOver (leavesOf s.counts))).setCodes Codes.empty) := if_neg h

theorem ctBuildBody_of_codes (hv : s.tree.valid = true) (he : codesOfTree s.tree = some e) :
    ctBuildBody s = .ok () (s.setCodes { valid := true, entries := e }) := by
  rw [ctBuildBody, hv, if_neg Bool.true_eq_false_eq_False, he]

theorem rewind_undisturbed (hu : s.undisturbed) :
    rewind s = .ok () ((beaten s 1).setPorts { s.ports with srcPos := s.seq.srcStart }) := by
  rw [rewind, beat_undisturbed hu]
  rfl

/-- The state of COMPRESS in which the encoding starts: the source is counted in a table and the bytes `head` are written of it, the tree
and the codes are made, and SRC_POS is `src_start`. -/
def compressEncoding (s : State) (table : Vector Word 257) (head : List Byte) (t : Tree) (e : Vector Code 257) : State :=
  { appended s head with
    counts := table
    tree := t
    codes := { valid := true, entries := e }
    bw := { n := 0, buf := 0 }
    seq := { s.seq with beat := s.seq.beat + bytesLeft s + head.length + 1, srcStart := s.ports.srcPos } }

theorem encodeBody_eq (hu : s.undisturbed) (hl : leavesOf table ≠ []) (ht : treeOver (leavesOf table) = t)
    (hv : t.valid = true) (he : codesOfTree t = some e) :
    encodeBody (wrote (compressCounted s table) head) =
      (encodeLoop (bytesLeft s) (compressEncoding s table head t e)).andThen fun _ s => flushBody s := by
  have hcounts : (wrote (compressCounted s table) head).counts = table := rfl
  rw [encodeBody, tbBuildBody_of_leaves (by rwa [hcounts]), hcounts, ht, Result.ok_andThen, ctBuildBody_of_codes (e := e) hv he,
    Result.ok_andThen, rewind_undisturbed]
  -- of a variable state `rfl` compares every piece again at each update
  all_goals cases s
  · rfl
  · exact hu

theorem State.undisturbed.compressEncoding (hu : s.undisturbed) : (compressEncoding s table head t e).undisturbed := hu

theorem sourceBytes_compressEncoding : sourceBytes (compressEncoding s table head t e) = sourceBytes s := rfl

theorem bytesLeft_compressEncoding : bytesLeft (compressEncoding s table head t e) = bytesLeft s := rfl

theorem codeOf_compressEncoding (x : Symbol) : codeOf (compressEncoding s table head t e) x = e[x.val] := rfl

theorem room_compressEncoding (h : head.length ≤ room s) : room (compressEncoding s table head t e) = room s - head.length :=
  room_wrote h

theorem codeBits_compressEncoding (he : codesOfTree (treeOver (leavesOf table)) = some e) (bytes : List Byte) :
    codeBits (compressEncoding s table head t e) bytes = (bytes.map byteSymbol).flatMap (codeIn table) := by
  rw [funext (codeIn_eq he)]; rfl

theorem allCodeBits_compressEncoding (he : codesOfTree (treeOver (leavesOf table)) = some e) :
    allCodeBits (compressEncoding s table head t e) = streamBits table (sourceBytes s) := by
  rw [allCodeBits, codeBits_compressEncoding he, sourceBytes_compressEncoding, codeOf_compressEncoding, streamBits_eq,
    codeIn_eq he terminator]

theorem takenAtBit_compressEncoding {i m : Nat} (he : codesOfTree (treeOver (leavesOf table)) = some e) :
    TakenAtBit (compressEncoding s table head t e) i m ↔
      m ≤ bytesLeft s ∧
      (m = bytesLeft s ∨ i < ((((sourceBytes s).take m).map byteSymbol).flatMap (codeIn table)).length) ∧
      (m = 0 ∨ ((((sourceBytes s).take (m - 1)).map byteSymbol).flatMap (codeIn table)).length ≤ i) := by
  simp only [TakenAtBit, codedBits, codeBits_compressEncoding he, sourceBytes_compressEncoding, bytesLeft_compressEncoding]

/-- What COMPRESS leaves that has made a table, its tree and its codes: it has taken `m` source bytes and appended `stream`. -/
def compressLeft (s : State) (table : Vector Word 257) (t : Tree) (e : Vector Code 257) (m : Nat) (stream : List Byte) (w : BitWriter)
    (q : Sequencer) : State :=
  { appended (consumed s m) stream with
    counts := table
    tree := t
    codes := { valid := true, entries := e }
    bw := w
    seq := q }

/-- The encoding appends its bytes to those of the table. -/
theorem wrote_compressEncoding (h : head.length ≤ room s) (m : Nat) (bs : List Byte) (w : BitWriter) :
    ∃ q, q.stopAt = s.seq.stopAt ∧
      (wrote (taken (compressEncoding s table head t e) m) bs).setBw w = compressLeft s table t e m (head ++ bs) w q := by
  unfold compressLeft
  rw [← appended_appended (s := consumed s m) h]
  exact ⟨(wrote (taken (compressEncoding s table head t e) m) bs).seq, rfl, rfl⟩

end Sys2Proof.Machine
end

section
/-! COMPRESS as a whole: its stream, and where it fails (44_compress.md R205, R206, 60_exceptions.md R307, R311). -/

namespace Sys2Proof.Machine

variable {s : State} {b : Byte} {k : Nat} {table : Vector Word 257} {head : List Byte} {t : Tree} {e : Vector Code 257}

/-! ### The body -/

/-- A count overflows: the scan of COMPRESS is that of FT_ANALYZE. -/
theorem compressBody_overflow (hu : s.undisturbed) (hb : (sourceBytes s)[k]? = some b)
    (hc : ∀ x : Symbol, occurrences ((sourceBytes s).take k) x ≤ Config.maxCount)
    (hfull : occurrences ((sourceBytes s).take k) (byteSymbol b) = Config.maxCount) :
    compressBody s = .raise .countOverflow (beaten (counted (compressStart s) k) 1) := by
  have hk : k < bytesLeft s := length_sourceBytes s ▸ (List.getElem?_eq_some_iff.mp hb).1
  have hleft : bytesLeft (compressStart s) - k = bytesLeft s - (k + 1) + 1 := by
    change bytesLeft s - k = _
    omega
  rw [compressBody, analyzeBody_eq hu.compressStart hk.le hc, hleft, analyzeLoop_counted hu.compressStart hb,
    if_pos ((countFull_counted (s := compressStart s) (hc _) 1).mpr hfull)]
  rfl

theorem compressBody_table_full (hu : s.undisturbed) (hc : ∀ x : Symbol, occurrences (sourceBytes s) x ≤ Config.maxCount)
    (ht : compressTable (sourceBytes s) = table) (hroom : room s < (serializedTable table).length) :
    compressBody s = .raise .io (wrote (compressCounted s table) ((serializedTable table).take (room s))) := by
  rw [compressBody_eq hu hc, ht, sinkBytes_compressCounted hu, if_neg (not_le.mpr hroom), Result.raise_andThen]

theorem compressBody_encodes (hu : s.undisturbed) (hc : ∀ x : Symbol, occurrences (sourceBytes s) x ≤ Config.maxCount)
    (hroom : (serializedTable (compressTable (sourceBytes s))).length ≤ room s)
    (he : codesOfTree (treeOver (leavesOf (compressTable (sourceBytes s)))) = some e) :
    compressBody s = (encodeLoop (bytesLeft s) (compressEncoding s (compressTable (sourceBytes s))
      (serializedTable (compressTable (sourceBytes s))) (treeOver (leavesOf (compressTable (sourceBytes s)))) e)).andThen
        fun _ s => flushBody s := by
  rw [compressBody_eq hu hc, sinkBytes_compressCounted hu, if_pos hroom, Result.ok_andThen,
    encodeBody_eq hu (leavesOf_compressTable_ne_nil _) rfl (treeOver_valid _) he]

theorem length_huffStream (bytes : List Byte) : (huffStream bytes).length =
    (serializedTable (compressTable bytes)).length + (packBits (streamBits (compressTable bytes) bytes)).length :=
  List.length_append

/-- The encoding goes through where the stream fits the sink, and otherwise ends where the next byte does not fit. -/
theorem compressBody_cases (hu : s.undisturbed) (hc : ∀ x : Symbol, occurrences (sourceBytes s) x ≤ Config.maxCount)
    (ht : compressTable (sourceBytes s) = table) (hh : serializedTable table = head) (hT : treeOver (leavesOf table) = t)
    (he : codesOfTree t = some e) (hroom : head.length ≤ room s) :
    ∃ q, q.stopAt = none ∧
    (((huffStream (sourceBytes s)).length ≤ room s ∧
      compressBody s = .ok () (compressLeft s table t e (bytesLeft s) (huffStream (sourceBytes s)) { n := 0, buf := 0 } q)) ∨
    (room s < (huffStream (sourceBytes s)).length ∧
      ∃ m, TakenAtBit (compressEncoding s table head t e) (8 * (room s - head.length) + 7) m ∧
        compressBody s = .raise .io (compressLeft s table t e m ((huffStream (sourceBytes s)).take (room s))
          (writerOf (((streamBits table (sourceBytes s)).drop (8 * (room s - head.length))).take 7)) q))) := by
  have hbody := compressBody_encodes (e := e) hu hc (by rwa [ht, hh]) (by rwa [ht, hT])
  rw [ht, hh, hT] at hbody
  have he' : codesOfTree (treeOver (leavesOf table)) = some e := by rwa [hT]
  have hsource : ∀ b ∈ sourceBytes (compressEncoding s table head t e),
      (codeOf (compressEncoding s table head t e) (byteSymbol b)).present = true := by
    intro b hb
    rw [sourceBytes_compressEncoding] at hb
    exact present_of_count he' (ht ▸ compressTable_byteSymbol_ne_zero hc hb)
  have hterm : (codeOf (compressEncoding s table head t e) terminator).present = true :=
    present_of_count he' (ht ▸ compressTable_terminator_ne_zero _)
  have hstream : huffStream (sourceBytes s) = head ++ packBits (streamBits table (sourceBytes s)) := by rw [huffStream, ht, hh]
  have hlen : (huffStream (sourceBytes s)).length = head.length + (packBits (streamBits table (sourceBytes s))).length := by
    rw [hstream, List.length_append]
  have hcases := encodeAndFlush_cases (s := compressEncoding s table head t e) hu.compressEncoding rfl hsource hterm rfl
  rw [allCodeBits_compressEncoding he', room_compressEncoding hroom, bytesLeft_compressEncoding, ← hbody] at hcases
  rcases hcases with ⟨hle, hok⟩ | ⟨hlt, m, hm, hraise⟩
  · obtain ⟨q, hq, hleft⟩ := wrote_compressEncoding (table := table) (t := t) (e := e) hroom (bytesLeft s)
      (packBits (streamBits table (sourceBytes s))) { n := 0, buf := 0 }
    rw [hleft, ← hstream] at hok
    exact ⟨q, hq.trans hu.1, .inl ⟨by omega, hok⟩⟩
  · obtain ⟨q, hq, hleft⟩ := wrote_compressEncoding (table := table) (t := t) (e := e) hroom m
      ((packBits (streamBits table (sourceBytes s))).take (room s - head.length))
      (writerOf (((streamBits table (sourceBytes s)).drop (8 * (room s - head.length))).take 7))
    have htake : (huffStream (sourceBytes s)).take (room s) =
        head ++ (packBits (streamBits table (sourceBytes s))).take (room s - head.length) := by
      rw [hstream, List.take_append, List.take_of_length_le hroom]
    rw [hleft, ← htake] at hraise
    exact ⟨q, hq.trans hu.1, .inr ⟨by omega, m, hm, hraise⟩⟩

/-! ### The command -/

theorem exec_compress_cases (hq : s.quiet) (hp : s.littleEndian) (hc : ∀ x : Symbol, occurrences (sourceBytes s) x ≤ Config.maxCount)
    (ht : compressTable (sourceBytes s) = table) (hh : serializedTable table = head) (hT : treeOver (leavesOf table) = t)
    (he : codesOfTree t = some e) (hroom : head.length ≤ room s) :
    ((huffStream (sourceBytes s)).length ≤ room s ∧ exec .compress s = .next (afterSuccess 0x31
      (compressLeft s table t e (bytesLeft s) (huffStream (sourceBytes s)) { n := 0, buf := 0 } s.seq))) ∨
    (room s < (huffStream (sourceBytes s)).length ∧
      ∃ m, TakenAtBit (compressEncoding s table head t e) (8 * (room s - head.length) + 7) m ∧
        exec .compress s = .next (afterError 0x31 7 (compressLeft s table t e m ((huffStream (sourceBytes s)).take (room s))
          (writerOf (((streamBits table (sourceBytes s)).drop (8 * (room s - head.length))).take 7)) s.seq))) := by
  obtain ⟨q, hstop, hcases⟩ := compressBody_cases (s := startSteps 0x31 s) hq.undisturbed hc ht hh hT he hroom
  have hsource : sourceBytes (startSteps 0x31 s) = sourceBytes s := rfl
  rw [hsource] at hcases
  -- the ends of the command agree whatever the stream: `rfl` must not evaluate it
  generalize huffStream (sourceBytes s) = stream at hcases ⊢
  exact hcases.imp (fun ⟨hle, hok⟩ => ⟨hle, command_ok hp hok hstop rfl⟩)
    fun ⟨hlt, m, hm, hraise⟩ => ⟨hlt, m, hm, command_raise .io hp hraise hstop rfl⟩

/-- Settles O46: the table fits the sink, so the encoding starts, and it goes through (`exec_compress_cases`). -/
theorem compressWritesTheHuffStream : Obligations.CompressWritesTheHuffStream := by
  intro s hq hp hc hroom
  obtain ⟨e, he⟩ := exists_codesOfTree (leavesOf_compressTable_ne_nil (sourceBytes s))
  have hhead : (serializedTable (compressTable (sourceBytes s))).length ≤ room s := by
    rw [length_huffStream] at hroom; omega
  obtain ⟨-, hok⟩ | ⟨hlt, -⟩ := exec_compress_cases hq hp hc rfl rfl rfl he hhead
  · exact ⟨e, he, hok⟩
  · exact absurd hroom (not_le.mpr hlt)

/-- Settles O47: the scan ends at the overflowing byte (`compressBody_overflow`), the table does not fit (`compressBody_table_full`), or the
encoding ends at the bit whose byte does not fit (`exec_compress_cases`). -/
theorem compressEndsWhereItFails : Obligations.CompressEndsWhereItFails := by
  intro s hq hp
  refine ⟨fun k b hb hc hfull => ?_, fun hc => ⟨fun hroom => ?_, fun hhead hroom => ?_⟩⟩
  · have hbody := compressBody_overflow (s := startSteps 0x31 s) hq.undisturbed hb hc hfull
    exact command_raise .countOverflow hp hbody hq.unstopped rfl
  · generalize ht : compressTable (sourceBytes s) = table at hroom ⊢
    have hbody := compressBody_table_full (s := startSteps 0x31 s) hq.undisturbed hc ht hroom
    exact command_raise .io hp hbody hq.unstopped rfl
  · obtain ⟨e, he⟩ := exists_codesOfTree (leavesOf_compressTable_ne_nil (sourceBytes s))
    obtain ⟨hle, -⟩ | ⟨-, m, hm, hraise⟩ := exec_compress_cases hq hp hc rfl rfl rfl he hhead
    · exact absurd hroom (not_lt.mpr hle)
    · obtain ⟨hm, hlast, hfirst⟩ := (takenAtBit_compressEncoding he).mp hm
      exact ⟨m, e, hm, hlast, hfirst, he, hraise⟩

end Sys2Proof.Machine
end

section
/-! The bits that a running command takes from the reader (10_state.md R39, 46_bitstream.md R246). -/

namespace Sys2Proof.Machine

variable {s t u : State} {b : Bool} {bits bits' rest : List Bool} {out out' : List Byte} {r r' : Word}

/-! ### The reader's bits -/

theorem length_byteBits (b : Byte) : (byteBits b).length = 8 := by simp [byteBits]

/-- The reader can deliver as many bits as DEC_SYMBOL and DECOMPRESS count. -/
theorem length_readerBits (h : readerLegal s.br) : (readerBits s).length = bitsLeft s := by
  have hsum : ((sourceBytes s).map fun b => (byteBits b).length).sum = 8 * bytesLeft s := by
    simp [length_byteBits, Nat.mul_comm]
  rw [readerBits, List.length_append, List.length_drop, List.length_flatMap, hsum, length_byteBits, bitsLeft]
  simp only [readerLegal] at h
  omega

/-- A reader that holds no bit delivers the bits of the source bytes. -/
theorem readerBits_of_empty (h0 : s.br.rem = 0) : readerBits s = (sourceBytes s).flatMap byteBits := by
  have hnone : (byteBits s.br.cur).drop (8 - s.br.rem.toNat) = [] := by
    rw [h0]; exact List.drop_of_length_le (by simp [length_byteBits])
  rw [readerBits, hnone, List.nil_append]

theorem sourceBytes_setBr (s : State) (x : BitReader) : sourceBytes (s.setBr x) = sourceBytes s := rfl

/-- The bits of a byte from one place on. -/
theorem drop_byteBits {x : Byte} {k : Nat} (h : k < 8) : (byteBits x).drop k = x.getLsbD k :: (byteBits x).drop (k + 1) := by
  rw [List.drop_eq_getElem_cons (by rwa [length_byteBits])]
  simp [byteBits]

theorem toNat_rem_sub_one {x : BitReader} {n : Nat} (hn : x.rem.toNat = n + 1) : (x.rem - 1).toNat = n := by
  have := x.rem.isLt
  rw [BitVec.toNat_sub]
  simp
  omega

/-- A reader that holds a bit delivers it first. -/
theorem readerBits_of_rem {n : Nat} (hn : s.br.rem.toNat = n + 1) (h : readerLegal s.br) :
    readerBits s = nextBit s.br :: readerBits (s.setBr { s.br with rem := s.br.rem - 1 }) := by
  have hle : n + 1 ≤ 8 := hn ▸ h
  have hnext : 8 - (s.br.rem - 1).toNat = 8 - s.br.rem.toNat + 1 := by rw [toNat_rem_sub_one hn]; omega
  rw [readerBits, drop_byteBits (by omega), readerBits, State.setBr_br, hnext, sourceBytes_setBr]
  rfl

/-- A reader that holds no bit goes on with the bits of the next source byte. -/
theorem readerBits_of_next {x : Byte} (h0 : s.br.rem = 0) (hx : (sourceBytes s)[0]? = some x) :
    readerBits s = readerBits ((taken s 1).setBr { rem := 8, cur := x }) := by
  obtain ⟨hlt, hget⟩ := List.getElem?_eq_some_iff.mp hx
  have hsource := sourceBytes_taken (s := s) (n := 1) (length_sourceBytes s ▸ hlt)
  have hcons : sourceBytes s = x :: (sourceBytes s).drop 1 := by
    rw [← hget, List.getElem_cons_drop, List.drop_zero]
  have hall : (byteBits x).drop (8 - (8 : BitVec 4).toNat) = byteBits x := rfl
  rw [readerBits_of_empty h0, readerBits, sourceBytes_setBr, hsource, State.setBr_br, hall]
  conv_lhs => rw [hcons, List.flatMap_cons]

/-! ### What a piece of decoding leaves -/

theorem appended_nil (s : State) : appended s [] = s := by simp [appended, writeBytes]

/-- The state with `n` source bytes consumed, `out` appended to the sink, `r` in RESULT, and another reader and sequencer. -/
def decodedTo (s : State) (n : Nat) (out : List Byte) (r : Word) (x : BitReader) (q : Sequencer) : State :=
  { appended (consumed s n) out with results := { s.results with result := r }, br := x, seq := q }

theorem decodedTo_nil (s : State) (n : Nat) (x : BitReader) (q : Sequencer) :
    decodedTo s n [] s.results.result x q = { consumed s n with br := x, seq := q } := by
  rw [decodedTo, appended_nil]; rfl

theorem consumed_zero (s : State) : consumed s 0 = s := by simp [consumed]

theorem decodedTo_decodedTo (h : out.length ≤ room s) (n m : Nat) (x x' : BitReader) (q q' : Sequencer) :
    decodedTo (decodedTo s n out r x q) m out' r' x' q' = decodedTo s (n + m) (out ++ out') r' x' q' := by
  rw [decodedTo, decodedTo, decodedTo, ← consumed_consumed, ← appended_appended (s := consumed (consumed s n) m) h]
  rfl

theorem bytesLeft_eq_of_ports (hp : t.ports.srcPos = s.ports.srcPos) (hl : t.ports.srcLen = s.ports.srcLen) :
    bytesLeft t = bytesLeft s := by rw [bytesLeft, bytesLeft, hp, hl]

theorem bytesLeft_decodedTo {n : Nat} (h : n ≤ bytesLeft s) (out : List Byte) (r : Word) (x : BitReader) (q : Sequencer) :
    bytesLeft (decodedTo s n out r x q) = bytesLeft s - n :=
  (bytesLeft_eq_of_ports (s := taken s n) rfl rfl).trans (bytesLeft_taken h)

/-- `t` is what decoding leaves from `s` on that takes `bits` from the reader, appends `out` to the sink and leaves `r` in RESULT. -/
structure Decoded (s : State) (bits : List Bool) (out : List Byte) (r : Word) (t : State) : Prop where
  frame : ∃ n x q, n ≤ bytesLeft s ∧ t = decodedTo s n out r x q
  bits : readerBits s = bits ++ readerBits t
  rem : t.br.rem.toNat ≤ max 7 s.br.rem.toNat
  undisturbed : t.undisturbed

theorem Decoded.trans (h : Decoded s bits out r t) (h' : Decoded t bits' out' r' u) (hroom : out.length ≤ room s) :
    Decoded s (bits ++ bits') (out ++ out') r' u where
  frame := by
    obtain ⟨n, x, q, hn, rfl⟩ := h.frame
    obtain ⟨m, x', q', hm, rfl⟩ := h'.frame
    rw [bytesLeft_decodedTo hn] at hm
    exact ⟨n + m, x', q', by omega, decodedTo_decodedTo hroom ..⟩
  bits := by rw [h.bits, h'.bits, List.append_assoc]
  rem := by have := h.rem; have := h'.rem; omega
  undisturbed := h'.undisturbed

theorem Decoded.reader_legal (h : Decoded s bits out r t) (hr : readerLegal s.br) : readerLegal t.br := by
  have hrem := h.rem
  simp only [readerLegal] at hr ⊢
  omega

theorem Decoded.tree_eq (h : Decoded s bits out r t) : t.tree = s.tree := by
  obtain ⟨n, x, q, -, rfl⟩ := h.frame
  rfl

theorem Decoded.result_eq (h : Decoded s bits out r t) : t.results.result = r := by
  obtain ⟨n, x, q, -, rfl⟩ := h.frame
  rfl

theorem Decoded.room_eq (h : Decoded s bits out r t) (hroom : out.length ≤ room s) : room t = room s - out.length := by
  obtain ⟨n, x, q, -, rfl⟩ := h.frame
  exact room_wrote (s := consumed s n) hroom

/-! ### The pieces of decoding -/

theorem decoded_setWalk (hu : s.undisturbed) (i : BitVec 10) : Decoded s [] [] s.results.result (setWalk s i) where
  frame := ⟨0, s.br, { s.seq with walk := i }, Nat.zero_le _, by rw [decodedTo_nil, consumed_zero]; rfl⟩
  bits := rfl
  rem := le_max_right ..
  undisturbed := hu

theorem decoded_setSymbol (hu : s.undisturbed) (x : Symbol) : Decoded s [] [] (BitVec.ofNat 32 x.val) (setSymbol s x) where
  frame := ⟨0, s.br, s.seq, Nat.zero_le _, by rw [decodedTo, appended_nil, consumed_zero]; rfl⟩
  bits := rfl
  rem := le_max_right ..
  undisturbed := hu

theorem decoded_wrote (hu : s.undisturbed) (bs : List Byte) : Decoded s [] bs s.results.result (wrote s bs) where
  frame := ⟨0, s.br, (wrote s bs).seq, Nat.zero_le _, by rw [decodedTo, consumed_zero]; rfl⟩
  bits := rfl
  rem := le_max_right ..
  undisturbed := hu

/-- The state after a bit is delivered of a reader that holds one. -/
def bitTaken (s : State) : State := s.setBr { s.br with rem := s.br.rem - 1 }

theorem bitTaken_setBr (s : State) (n : Nat) (x : BitReader) :
    bitTaken ((taken s n).setBr x) = decodedTo s n [] s.results.result { x with rem := x.rem - 1 } (taken s n).seq := by
  rw [decodedTo_nil]
  rfl

/-- The reader delivers its first bit, and leaves the walk where it is. -/
theorem getbit_decoded (hu : s.undisturbed) (hr : readerLegal s.br) (hb : readerBits s = b :: rest) :
    ∃ t, getbit s = .ok (some b) t ∧ t.seq.walk = s.seq.walk ∧ Decoded s [b] [] s.results.result t := by
  rcases hn : s.br.rem.toNat with _ | n
  · have h0 : s.br.rem = 0 := BitVec.eq_of_toNat_eq hn
    obtain ⟨x, hx⟩ : ∃ x, (sourceBytes s)[0]? = some x := by
      cases hs : sourceBytes s with
      | nil => rw [readerBits_of_empty h0, hs] at hb; cases hb
      | cons x xs => exact ⟨x, rfl⟩
    obtain ⟨hlt, hget⟩ := List.getElem?_eq_some_iff.mp hx
    rw [getElem_sourceBytes] at hget
    rw [length_sourceBytes] at hlt
    have hnext := readerBits_of_rem (s := (taken s 1).setBr { rem := 8, cur := x }) (n := 7) rfl (le_refl 8)
    have hbits := (readerBits_of_next h0 hx).trans hnext
    obtain rfl := (List.cons.inj (hb.symm.trans hbits)).1
    have hrem : (bitTaken ((taken s 1).setBr { rem := 8, cur := x })).br.rem.toNat = 7 :=
      toNat_rem_sub_one (x := { rem := 8, cur := x }) rfl
    refine ⟨bitTaken ((taken s 1).setBr { rem := 8, cur := x }), ?_, rfl,
      ⟨1, _, _, hlt, bitTaken_setBr s 1 _⟩, hbits, hrem.le.trans (le_max_left ..), hu⟩
    have hx : ¬exhausted s = true := fun h => by rw [exhausted_iff] at h; omega
    rw [getbit, if_pos h0, if_neg hx, takeByte_undisturbed hu, advanceSrc_beaten, Result.ok_andThen, ← Nat.add_zero s.ports.srcPos.toNat,
      hget]
    rfl
  · have h0 : ¬s.br.rem = 0 := fun h => by rw [h] at hn; cases hn
    have hbits := readerBits_of_rem hn hr
    obtain rfl := (List.cons.inj (hb.symm.trans hbits)).1
    have hframe := bitTaken_setBr s 0 s.br
    rw [taken_zero] at hframe
    refine ⟨bitTaken s, ?_, rfl, ⟨0, _, _, Nat.zero_le _, hframe⟩, hbits, ?_, hu⟩
    · rw [getbit, if_neg h0]; rfl
    · have hrem : (bitTaken s).br.rem.toNat = n := toNat_rem_sub_one hn
      omega

end Sys2Proof.Machine
end

section
/-! The decoding of symbols whose codes the reader delivers (45_decompress.md R222, R223, R228 step 3). -/

namespace Sys2Proof.Machine

variable {s : State} {b : Bool} {path rest cs : List Bool} {x : Symbol} {n : Nat} {bytes : List Byte} {code : Symbol → List Bool}
  {w : BitVec 40} {l r : BitVec 10}

/-! ### One symbol -/

/-- One step of the walk: the bit leads to a child, where a leaf ends the walk and an internal node goes on with it. -/
theorem walkLoop_step (hu : s.undisturbed) (hr : readerLegal s.br) (hi : nodeAt s s.seq.walk = some (.internal w l r))
    (hb : readerBits s = b :: rest) (n : Nat) :
    ∃ (t : State) (v : Word), Decoded s [b] [] v t ∧ t.seq.walk = childAt l r b ∧
      (∀ u x, nodeAt s (childAt l r b) = some (.leaf u x) → walkLoop (n + 1) s = .ok () (setSymbol t x)) ∧
      (∀ u l' r', nodeAt s (childAt l r b) = some (.internal u l' r') → walkLoop (n + 1) s = walkLoop n t) := by
  obtain ⟨t, hget, hwalk, ht⟩ := getbit_decoded hu hr hb
  have htree (i : BitVec 10) : nodeAt t i = nodeAt s i := by rw [nodeAt, nodeAt, ht.tree_eq]
  have hchild : nodeAt (setWalk t (childAt l r b)) (setWalk t (childAt l r b)).seq.walk = nodeAt s (childAt l r b) := htree _
  have hhere : nodeAt t t.seq.walk = some (.internal w l r) := by rw [htree, hwalk, hi]
  refine ⟨setWalk t (childAt l r b), _, ht.trans (decoded_setWalk ht.undisturbed _) (Nat.zero_le _), rfl, fun u x hx => ?_,
    fun u l' r' hx => ?_⟩
  all_goals
    rw [walkLoop, hget, Result.ok_andThen]
    dsimp only
    rw [hhere]
    dsimp only
    rw [← childAt, hchild, hx]

/-- The walk takes the bits of a path and ends at its leaf. -/
theorem walkLoop_decoded (hu : s.undisturbed) (hr : readerLegal s.br) (hx : LeadsToLeaf s.tree.arena s.seq.walk path x)
    (hne : path ≠ []) (hb : readerBits s = path ++ rest) (hn : path.length ≤ n) :
    ∃ t, walkLoop n s = .ok () t ∧ Decoded s path [] (BitVec.ofNat 32 x.val) t := by
  induction path generalizing s n with
  | nil => exact absurd rfl hne
  | cons b path ih =>
    obtain ⟨n, rfl⟩ : ∃ m, n = m + 1 := ⟨n - 1, by rw [List.length_cons] at hn; omega⟩
    obtain ⟨v, hv⟩ := hx
    obtain ⟨w, l, r, hi, hpath⟩ := internal_of_nodeOnPath_cons hv
    obtain ⟨t, y, ht, hwalk, hleaf, hinternal⟩ := walkLoop_step hu hr hi hb n
    cases path with
    | nil => exact ⟨_, hleaf v x hpath, ht.trans (decoded_setSymbol ht.undisturbed x) (Nat.zero_le _)⟩
    | cons c path =>
      obtain ⟨u, l', r', hi', -⟩ := internal_of_nodeOnPath_cons hpath
      have hrest : readerBits t = c :: path ++ rest := List.append_cancel_left (as := [b]) (ht.bits.symm.trans hb)
      obtain ⟨t', hok, ht'⟩ := ih ht.undisturbed (ht.reader_legal hr) ⟨v, by rw [hwalk, ht.tree_eq, hpath]⟩ (by simp) hrest
        (Nat.le_of_succ_le_succ hn)
      exact ⟨t', (hinternal u l' r' hi').trans hok, ht.trans ht' (Nat.zero_le _)⟩

/-- DEC_SYMBOL takes the bits of the path from the root to a leaf and returns its symbol; without a bit only the terminator. -/
theorem decSymbolBody_decoded (hu : s.undisturbed) (hr : readerLegal s.br) (hv : s.tree.valid = true)
    (hx : LeadsToLeaf s.tree.arena s.tree.root path x) (hterm : path = [] → x = terminator) (hb : readerBits s = path ++ rest) :
    ∃ t, decSymbolBody s = .ok () t ∧ Decoded s path [] (BitVec.ofNat 32 x.val) t := by
  have hroot := decoded_setWalk hu s.tree.root
  have hvalid : ¬s.tree.valid = false := by rw [hv]; exact Bool.true_eq_false_eq_False
  cases path with
  | nil =>
    obtain ⟨w, hw⟩ := hx
    obtain rfl := hterm rfl
    have hnode : nodeAt (setWalk s s.tree.root) (setWalk s s.tree.root).seq.walk = some (.leaf w terminator) := hw
    refine ⟨setSymbol (setWalk s s.tree.root) terminator, ?_, hroot.trans (decoded_setSymbol hroot.undisturbed _) (Nat.zero_le _)⟩
    rw [decSymbolBody, if_neg hvalid]
    dsimp only
    rw [hnode]
    exact if_pos rfl
  | cons b path =>
    obtain ⟨v, hv⟩ := id hx
    obtain ⟨w, l, r, hi, -⟩ := internal_of_nodeOnPath_cons hv
    have hnode : nodeAt (setWalk s s.tree.root) (setWalk s s.tree.root).seq.walk = some (.internal w l r) := hi
    have hbits : readerBits (setWalk s s.tree.root) = b :: path ++ rest := hb
    have hfuel : (b :: path).length ≤ bitsLeft (setWalk s s.tree.root) := by
      rw [← length_readerBits (hroot.reader_legal hr), hbits, List.length_append]
      exact Nat.le_add_right ..
    obtain ⟨t, hok, ht⟩ := walkLoop_decoded hroot.undisturbed (hroot.reader_legal hr) hx (by simp) hbits hfuel
    refine ⟨t, ?_, hroot.trans ht (Nat.zero_le _)⟩
    rw [decSymbolBody, if_neg hvalid]
    dsimp only
    rw [hnode]
    exact hok

/-! ### Symbol after symbol -/

theorem ofNat_byteSymbol_ne (b : Byte) : BitVec.ofNat 32 (byteSymbol b).val ≠ 256 := by
  intro h
  have hval := congrArg BitVec.toNat h
  have hb := b.isLt
  simp [byteSymbol] at hval
  omega

theorem setWidth_byteSymbol (b : Byte) : (BitVec.ofNat 32 (byteSymbol b).val).setWidth 8 = b := by
  refine BitVec.eq_of_toNat_eq ?_
  simp [byteSymbol]

theorem sinkByte_room (hu : s.undisturbed) (h : 0 < room s) (v : Byte) : sinkByte v s = .ok () (wrote s [v]) :=
  sinkByte_undisturbed v hu (Nat.lt_of_sub_pos h)

/-- The loop of DECOMPRESS writes the bytes whose codes the reader delivers, up to the terminator's. -/
theorem decodeLoop_decoded (hu : s.undisturbed) (hr : readerLegal s.br) (hv : s.tree.valid = true)
    (hbytes : ∀ b ∈ bytes, LeadsToLeaf s.tree.arena s.tree.root (code (byteSymbol b)) (byteSymbol b))
    (hterm : LeadsToLeaf s.tree.arena s.tree.root (code terminator) terminator)
    (hb : readerBits s = (bytes.map byteSymbol).flatMap code ++ (code terminator ++ rest))
    (hn : bytes.length ≤ n) (hroom : bytes.length ≤ room s) :
    ∃ t, decodeLoop n s = .ok () t ∧ Decoded s ((bytes.map byteSymbol).flatMap code ++ code terminator) bytes 256 t := by
  induction bytes generalizing s n with
  | nil =>
    obtain ⟨t, hok, ht⟩ := decSymbolBody_decoded hu hr hv hterm (fun _ => rfl) hb
    have hresult : t.results.result = 256 := ht.result_eq
    refine ⟨t, ?_, ht⟩
    cases n <;> rw [decodeLoop, hok, Result.ok_andThen, if_pos hresult]
  | cons b bytes ih =>
    obtain ⟨n, rfl⟩ : ∃ m, n = m + 1 := ⟨n - 1, by rw [List.length_cons] at hn; omega⟩
    rw [List.length_cons] at hn hroom
    obtain ⟨hcode, hbytes⟩ := List.forall_mem_cons.mp hbytes
    have hnil (h : code (byteSymbol b) = []) : byteSymbol b = terminator := by
      rw [h] at hcode
      exact (hcode.eq_nil_of_append (cs := code terminator) hterm).2.symm
    rw [List.map_cons, List.flatMap_cons, List.append_assoc] at hb
    obtain ⟨t, hok, ht⟩ := decSymbolBody_decoded hu hr hv hcode hnil hb
    have hroomt : room t = room s := ht.room_eq (Nat.zero_le _)
    have hsink := sinkByte_room ht.undisturbed (by omega) b
    have hw := ht.trans (decoded_wrote ht.undisturbed [b]) (Nat.zero_le _)
    rw [List.append_nil, List.nil_append] at hw
    have hone : [b].length ≤ room s := by rw [List.length_singleton]; omega
    have hrest := List.append_cancel_left (hw.bits.symm.trans hb)
    have hroomw := hw.room_eq hone
    rw [List.length_singleton] at hroomw
    rw [← hw.tree_eq] at hv hbytes hterm
    obtain ⟨u, hloop, hd⟩ := ih (n := n) hw.undisturbed (hw.reader_legal hr) hv hbytes hterm hrest (by omega) (by omega)
    refine ⟨u, ?_, by rw [List.map_cons, List.flatMap_cons, List.append_assoc]; exact hw.trans hd hone⟩
    rw [decodeLoop, hok, Result.ok_andThen, ht.result_eq, if_neg (ofNat_byteSymbol_ne b), setWidth_byteSymbol, hsink,
      Result.ok_andThen, hloop]

end Sys2Proof.Machine
end

section
/-! DECOMPRESS of the stream that COMPRESS writes (44_compress.md R207, 45_decompress.md R228, R230). -/

namespace Sys2Proof.Machine

variable {s : State} {bytes : List Byte} {x : Symbol} {table counts : Vector Word 257} {t : Tree} {n : Nat}

/-! ### The codes of the stream -/

/-- The code of a symbol with a count leads from the root to its leaf. -/
theorem codeIn_leadsToLeaf (h : counts[x.val] ≠ 0) :
    LeadsToLeaf (treeOver (leavesOf counts)).arena (treeOver (leavesOf counts)).root (codeIn counts x) x := by
  obtain ⟨e, he⟩ := exists_codesOfTree (leavesOf_ne_nil h)
  rw [codeIn_eq he]
  exact codesOfTree_leadsToLeaf (treeOver_sound (leavesOf_ne_nil h)) he (present_of_count he h)

/-- Two symbols with a count have codes of at least one bit, so that a byte's code is never empty beside the terminator. -/
theorem codeIn_ne_nil {y : Symbol} (hx : counts[x.val] ≠ 0) (hy : counts[y.val] ≠ 0) (hxy : x ≠ y) : codeIn counts x ≠ [] := by
  intro h
  have hpath := codeIn_leadsToLeaf hx
  rw [h] at hpath
  exact hxy (hpath.eq_nil_of_append (cs := codeIn counts y) (codeIn_leadsToLeaf hy)).2.symm

theorem length_le_flatMap_codes {code : Symbol → List Bool} (h : ∀ b ∈ bytes, code (byteSymbol b) ≠ []) :
    bytes.length ≤ ((bytes.map byteSymbol).flatMap code).length := by
  induction bytes with
  | nil => exact Nat.zero_le _
  | cons b bytes ih =>
    obtain ⟨hb, h⟩ := List.forall_mem_cons.mp h
    have hpos := List.length_pos_iff.mpr hb
    have ih := ih h
    rw [List.map_cons, List.flatMap_cons, List.length_append, List.length_cons]
    omega

/-! ### The body -/

theorem checkTable_of_terminator (h : countOf s terminator ≠ 0) : checkTable s = .ok () s := by
  have hsome : ¬(allSymbols.all fun x => countOf s x == 0) = true := by
    rw [List.all_eq_true]
    exact fun hall => h (by simpa using hall terminator (List.mem_finRange _))
  rw [checkTable, if_neg hsome, if_neg h]

/-- The state of DECOMPRESS in which the decoding starts: a table of `n` bytes is read, and its tree is made. -/
def decodeStart (s : State) (table : Vector Word 257) (n : Nat) (t : Tree) : State :=
  { consumed s n with
    counts := table
    tree := t
    codes := Codes.empty
    br := { rem := 0, cur := 0 }
    seq := { s.seq with beat := s.seq.beat + n } }

theorem tabled_decompressStart (s : State) (table : Vector Word 257) (n : Nat) (t : Tree) :
    ((tabled (decompressStart s) table n).setTree t).setCodes Codes.empty = decodeStart s table n t := by
  cases s
  rfl

theorem sourceBytes_decompressStart (s : State) : sourceBytes (decompressStart s) = sourceBytes s := rfl

/-- With a table that has a terminator in front, DECOMPRESS decodes what follows it. -/
theorem decompressBody_eq (hu : s.undisturbed) (ht : readTable (sourceBytes s) = (true, table, n))
    (hterm : table[terminator.val] ≠ 0) (hT : treeOver (leavesOf table) = t) :
    decompressBody s = decodeLoop (bitsLeft (decodeStart s table n t)) (decodeStart s table n t) := by
  have hcounts : (tabled (decompressStart s) table n).counts = table := rfl
  have hdes : deserializeBody (decompressStart s) = .ok () (tabled (decompressStart s) table n) := by
    rw [deserializeBody_eq (s := decompressStart s) hu, sourceBytes_decompressStart, ht]
    rfl
  have hleaves : leavesOf (tabled (decompressStart s) table n).counts ≠ [] := leavesOf_ne_nil (x := terminator) hterm
  rw [decompressBody, hdes, Result.ok_andThen, checkTable_of_terminator (s := tabled (decompressStart s) table n) hterm, Result.ok_andThen,
    tbBuildBody_of_leaves hleaves, hcounts, hT, Result.ok_andThen, tabled_decompressStart]

theorem State.undisturbed.decodeStart (hu : s.undisturbed) : (decodeStart s table n t).undisturbed := hu

theorem room_decodeStart : room (decodeStart s table n t) = room s := rfl

theorem bytesLeft_decodeStart (h : n ≤ bytesLeft s) : bytesLeft (decodeStart s table n t) = bytesLeft s - n := bytesLeft_taken h

/-- The new reader delivers the bits of the bytes after the table. -/
theorem readerBits_decodeStart (h : n ≤ bytesLeft s) :
    readerBits (decodeStart s table n t) = ((sourceBytes s).drop n).flatMap byteBits := by
  have hsource : sourceBytes (decodeStart s table n t) = (sourceBytes s).drop n := sourceBytes_taken h
  rw [readerBits_of_empty rfl, hsource]

/-- What the decoding leaves where the bits after it are fewer than eight: the source is consumed. -/
theorem Decoded.state_eq {bits : List Bool} {r : Word} {u : State} (h : Decoded (decodeStart s table n t) bits bytes r u)
    (hn : n ≤ bytesLeft s) (hrest : (readerBits u).length < 8) :
    u = { appended (consumed s (bytesLeft s)) bytes with
      counts := table
      tree := t
      codes := Codes.empty
      results := { s.results with result := r }
      br := u.br
      seq := u.seq } := by
  have hlegal : readerLegal u.br := h.reader_legal (Nat.zero_le 8)
  have hempty : bytesLeft u = 0 := by
    have := length_readerBits hlegal
    rw [bitsLeft] at this
    omega
  obtain ⟨m, x, q, hm, rfl⟩ := h.frame
  rw [bytesLeft_decodedTo hm, bytesLeft_decodeStart hn] at hempty
  rw [bytesLeft_decodeStart hn] at hm
  have hall : bytesLeft s = n + m := by omega
  rw [hall, ← consumed_consumed]
  rfl

/-- DECOMPRESS of a stream decodes its bytes; only the padding of the last byte is left to the reader. -/
theorem decompressBody_huffStream (hu : s.undisturbed) (hc : ∀ x : Symbol, occurrences bytes x ≤ Config.maxCount)
    (hs : sourceBytes s = huffStream bytes) (hroom : bytes.length ≤ room s) (ht : compressTable bytes = table)
    (hT : treeOver (leavesOf table) = t) :
    ∃ u, decompressBody s = .ok () u ∧ u.seq.stopAt = none ∧ u.br.rem.toNat < 8 ∧ (∀ b ∈ readerBits u, b = false) ∧
      u = { appended (consumed s (bytesLeft s)) bytes with
        counts := table
        tree := t
        codes := Codes.empty
        results := { s.results with result := 256 }
        br := u.br
        seq := u.seq } := by
  have hstream : sourceBytes s = serializedTable table ++ packBits (streamBits table bytes) := by rw [hs, huffStream, ht]
  have hlen : (serializedTable table).length ≤ bytesLeft s := by
    rw [← length_sourceBytes, hstream, List.length_append]; exact Nat.le_add_right ..
  have hread : readTable (sourceBytes s) = (true, table, (serializedTable table).length) := by
    rw [hstream, readTable_serializedTable (ht ▸ countsLegal_compressTable hc)]
  have hterm : table[terminator.val] ≠ 0 := ht ▸ compressTable_terminator_ne_zero bytes
  have hcount (b : Byte) (hb : b ∈ bytes) : table[(byteSymbol b).val] ≠ 0 := ht ▸ compressTable_byteSymbol_ne_zero hc hb
  obtain ⟨pad, hpad, hpack⟩ := flatMap_byteBits_packBits (streamBits table bytes)
  have hbits : readerBits (decodeStart s table (serializedTable table).length t) =
      (bytes.map byteSymbol).flatMap (codeIn table) ++ (codeIn table terminator ++ List.replicate pad false) := by
    rw [readerBits_decodeStart hlen, hstream, List.drop_left, hpack, streamBits_eq, List.append_assoc]
  have hfuel : bytes.length ≤ bitsLeft (decodeStart s table (serializedTable table).length t) := by
    have hcodes := length_le_flatMap_codes (code := codeIn table) fun b hb =>
      codeIn_ne_nil (hcount b hb) hterm (byteSymbol_ne_terminator b)
    rw [← length_readerBits (s := decodeStart ..) (Nat.zero_le 8), hbits, List.length_append]
    omega
  obtain ⟨u, hok, hd⟩ := decodeLoop_decoded (s := decodeStart s table (serializedTable table).length t) (code := codeIn table)
    (bytes := bytes) hu.decodeStart (Nat.zero_le 8) (hT ▸ treeOver_valid _) (fun b hb => hT ▸ codeIn_leadsToLeaf (hcount b hb))
    (hT ▸ codeIn_leadsToLeaf hterm) hbits hfuel (hroom.trans_eq room_decodeStart.symm)
  rw [← streamBits_eq] at hd
  have hrest : readerBits u = List.replicate pad false := by
    refine List.append_cancel_left (hd.bits.symm.trans ?_)
    rw [hbits, streamBits_eq, List.append_assoc]
  have hrem : u.br.rem.toNat ≤ max 7 0 := hd.rem
  refine ⟨u, (decompressBody_eq hu hread hterm hT).trans hok, hd.undisturbed.1, by omega, ?_, ?_⟩
  · rw [hrest]
    exact fun b hb => List.eq_of_mem_replicate hb
  · exact hd.state_eq hlen (by rw [hrest, List.length_replicate]; exact hpad)

/-! ### The command -/

theorem exec_decompress_huffStream (hq : s.quiet) (hp : s.littleEndian) (hc : ∀ x : Symbol, occurrences bytes x ≤ Config.maxCount)
    (hs : sourceBytes s = huffStream bytes) (hroom : bytes.length ≤ room s) (ht : compressTable bytes = table)
    (hT : treeOver (leavesOf table) = t) :
    answers (exec .decompress s) fun v =>
      v = afterSuccess 0x39 { appended (consumed s (bytesLeft s)) bytes with
        counts := table
        tree := t
        codes := Codes.empty
        results := { s.results with result := 256 }
        br := v.br } ∧ v.br.rem.toNat < 8 ∧ ∀ b ∈ readerBits v, b = false := by
  obtain ⟨u, hok, hstop, hrem, hzero, hu⟩ :=
    decompressBody_huffStream (s := startSteps 0x39 s) hq.undisturbed hc hs hroom ht hT
  have hend : endSteps u = afterSuccess 0x39 { appended (consumed s (bytesLeft s)) bytes with
      counts := table
      tree := t
      codes := Codes.empty
      results := { s.results with result := 256 }
      br := u.br } := (congrArg endSteps hu).trans rfl
  exact ⟨_, (command_ok hp hok hstop hend).trans (congrArg Host.Outcome.next hend.symm), hend, hrem, hzero⟩

theorem huffStream_ne_nil (bytes : List Byte) : huffStream bytes ≠ [] := by
  rw [← List.length_pos_iff, length_huffStream, length_serializedTable]
  omega

/-- What of this the host looks at: no error, the source consumed, and the bytes in the sink. -/
theorem exec_decompress_writes (hq : s.quiet) (hp : s.littleEndian) (hc : ∀ x : Symbol, occurrences bytes x ≤ Config.maxCount)
    (hs : sourceBytes s = huffStream bytes) (hroom : bytes.length ≤ room s) :
    answers (exec .decompress s) fun v => v.status.err = false ∧ v.ports.srcPos = s.ports.srcLen ∧
      v.ports.dstPos.toNat = s.ports.dstPos.toNat + bytes.length ∧ v.dst = writeBytes s.dst s.ports.dstPos.toNat bytes := by
  generalize ht : compressTable bytes = table
  obtain ⟨v, hv, hstate, -⟩ := exec_decompress_huffStream hq hp hc hs hroom ht rfl
  have hsome : 0 < bytesLeft s := by
    rw [← length_sourceBytes, hs]; exact List.length_pos_iff.mpr (huffStream_ne_nil _)
  have hend : s.ports.srcPos.toNat + bytesLeft s = s.ports.srcLen.toNat := by simp only [bytesLeft] at hsome ⊢; omega
  have hsrc : v.ports.srcPos = BitVec.ofNat 32 (s.ports.srcPos.toNat + bytesLeft s) := by rw [hstate]; rfl
  have hdst : v.ports.dstPos = (appended s bytes).ports.dstPos := by rw [hstate]; rfl
  refine ⟨v, hv, by rw [hstate]; rfl, ?_, ?_, by rw [hstate]; rfl⟩
  · rw [hsrc, hend, BitVec.ofNat_toNat, BitVec.setWidth_eq]
  · rw [hdst, dstPos_appended hroom]

/-- Settles O49: the stream's bits are decoded to its bytes (`exec_decompress_huffStream`), and what COMPRESS wrote is the stream (O46). -/
theorem decompressUndoesCompress : Obligations.DecompressUndoesCompress := by
  refine ⟨fun u bytes hq hp hc hs hroom => exec_decompress_huffStream hq hp hc hs hroom rfl rfl, fun s hq hp hc hroom => ?_⟩
  obtain ⟨e, -, hok⟩ := compressWritesTheHuffStream s hq hp hc hroom
  generalize treeOver (leavesOf (compressTable (sourceBytes s))) = t at hok
  generalize compressTable (sourceBytes s) = table at hok
  generalize hstream : huffStream (sourceBytes s) = stream at hok hroom
  refine ⟨_, hok, rfl, fun u hqu hpu hroomu hs => ?_⟩
  have hread : sourceBytes u = (List.range ((appended s stream).ports.dstPos.toNat - s.ports.dstPos.toNat)).map
      (fun k => memoryGet (appended s stream).dst (s.ports.dstPos.toNat + k)) := hs
  rw [dstPos_appended hroom, Nat.add_sub_cancel_left, memoryGet_appended, ← hstream] at hread
  rw [← length_sourceBytes] at hroomu ⊢
  exact exec_decompress_writes hqu hpu hc hread hroomu

end Sys2Proof.Machine
end

section
/-! DEC_SYMBOL, and the bits that end before a leaf (45_decompress.md R222, R223, R224). -/

namespace Sys2Proof.Machine

variable {s t : State} {b : Bool} {bits : List Bool} {arena : List Node} {i l r : BitVec 10} {w : BitVec 40}

/-! ### A walk whose bits end -/

/-- A path to an internal node starts at one. -/
theorem internal_of_nodeOnPath_internal (h : nodeOnPath arena i bits = some (.internal w l r)) :
    ∃ w l r, arena[i.toNat]? = some (.internal w l r) := by
  cases bits with
  | nil => exact ⟨w, l, r, h⟩
  | cons b bits =>
    obtain ⟨w, l, r, hi, -⟩ := internal_of_nodeOnPath_cons h
    exact ⟨w, l, r, hi⟩

theorem Decoded.refl (hu : s.undisturbed) : Decoded s [] [] s.results.result s := by
  simpa only [wrote_nil] using decoded_wrote hu []

/-- A bit that leads from an internal node to an internal node leaves the rest of the walk to the bits after it. -/
theorem walkLoop_succ_of_internal {w' : BitVec 40} {l' r' : BitVec 10} (hget : getbit s = .ok (some b) t)
    (hi : nodeAt t t.seq.walk = some (.internal w l r)) (hc : nodeAt t (childAt l r b) = some (.internal w' l' r')) (n : Nat) :
    walkLoop (n + 1) s = walkLoop n (setWalk t (childAt l r b)) := by
  have hchild : nodeAt (setWalk t (childAt l r b)) (setWalk t (childAt l r b)).seq.walk = some (.internal w' l' r') := hc
  rw [walkLoop, hget, Result.ok_andThen]
  dsimp only
  rw [hi]
  dsimp only
  rw [← childAt, hchild]

/-- A walk that all bits of the reader lead to an internal node takes them and ends with TruncatedStreamError. -/
theorem walkLoop_truncated (hu : s.undisturbed) (hr : readerLegal s.br) (hb : readerBits s = bits)
    (h : nodeOnPath s.tree.arena s.seq.walk bits = some (.internal w l r)) :
    ∃ t, walkLoop bits.length s = .raise .truncated t ∧ Decoded s bits [] s.results.result t := by
  induction bits generalizing s with
  | nil => exact ⟨s, rfl, .refl hu⟩
  | cons b bits ih =>
    obtain ⟨w₁, l₁, r₁, hi, hpath⟩ := internal_of_nodeOnPath_cons h
    obtain ⟨w₂, l₂, r₂, hc⟩ := internal_of_nodeOnPath_internal hpath
    obtain ⟨t, hget, hwalk, ht⟩ := getbit_decoded hu hr hb
    have hi' : nodeAt t t.seq.walk = some (.internal w₁ l₁ r₁) := by rw [nodeAt, ht.tree_eq, hwalk, hi]
    have hc' : nodeAt t (childAt l₁ r₁ b) = some (.internal w₂ l₂ r₂) := by rw [nodeAt, ht.tree_eq, hc]
    have hstep := ht.trans (decoded_setWalk ht.undisturbed (childAt l₁ r₁ b)) (Nat.zero_le _)
    have hrest : readerBits (setWalk t (childAt l₁ r₁ b)) = bits := List.append_cancel_left (as := [b]) (ht.bits.symm.trans hb)
    obtain ⟨u, hloop, hd⟩ := ih hstep.undisturbed (hstep.reader_legal hr) hrest (by rw [hstep.tree_eq]; exact hpath)
    refine ⟨u, (walkLoop_succ_of_internal hget hi' hc' bits.length).trans hloop, ?_⟩
    rw [hstep.result_eq, ht.result_eq] at hd
    exact hstep.trans hd (Nat.zero_le _)

/-! ### The body where it does not go through -/

theorem decSymbolBody_of_root {node : Node} (hv : s.tree.valid = true) (h : nodeAt s s.tree.root = some node) :
    decSymbolBody s =
      match node with
      | .leaf _ x =>
        if x = terminator then .ok () (setSymbol (setWalk s s.tree.root) terminator)
        else .raise .consistency (setWalk s s.tree.root)
      | .internal _ _ _ => walkLoop (bitsLeft s) (setWalk s s.tree.root) := by
  have hvalid : ¬s.tree.valid = false := by rw [hv]; exact Bool.true_eq_false_eq_False
  have hnode : nodeAt (setWalk s s.tree.root) (setWalk s s.tree.root).seq.walk = some node := h
  rw [decSymbolBody, if_neg hvalid]
  dsimp only
  rw [hnode]
  cases node <;> rfl

/-- Where all bits of the reader lead to an internal node, DEC_SYMBOL takes them and ends with TruncatedStreamError. -/
theorem decSymbolBody_truncated (hu : s.undisturbed) (hr : readerLegal s.br) (hv : s.tree.valid = true)
    (h : nodeOnPath s.tree.arena s.tree.root (readerBits s) = some (.internal w l r)) :
    ∃ t, decSymbolBody s = .raise .truncated t ∧ Decoded s (readerBits s) [] s.results.result t := by
  obtain ⟨w₁, l₁, r₁, hroot⟩ := internal_of_nodeOnPath_internal h
  have hwalk := decoded_setWalk hu s.tree.root
  obtain ⟨t, hloop, hd⟩ := walkLoop_truncated hwalk.undisturbed (hwalk.reader_legal hr) rfl h
  refine ⟨t, ?_, hwalk.trans hd (Nat.zero_le _)⟩
  rw [decSymbolBody_of_root hv hroot, ← length_readerBits hr]
  exact hloop

/-! ### The command -/

/-- A command whose body goes through leaves the reader of its body, and `f` of what it leaves, where `f` does not look at the report. -/
theorem command_ok_answers {op : BitVec 8} {body : State → Result Unit} {f : State → State} (hp : s.littleEndian)
    (h : body (startSteps op s) = .ok () t) (hn : t.seq.stopAt = none) (ht : endSteps t = afterSuccess op (f t))
    (hf : f (endSteps t) = f t) :
    answers (command op body s) fun u => u = afterSuccess op (f u) ∧ u.br = t.br ∧ readerBits u = readerBits t := by
  refine ⟨endSteps t, ?_, by rw [hf, ht], rfl, rfl⟩
  rw [command_ok hp h hn ht, ht]

/-- A command whose body raises an error leaves the reader of its body, and `f` of what it leaves, where `f` does not look at the report. -/
theorem command_raise_answers {op : BitVec 8} {body : State → Result Unit} {f : State → State} (e : ErrorKind) (hp : s.littleEndian)
    (h : body (startSteps op s) = .raise e t) (hn : t.seq.stopAt = none) (ht : errorEnd e t = afterError op e.code (f t))
    (hf : f (errorEnd e t) = f t) :
    answers (command op body s) fun u => u = afterError op e.code (f u) ∧ u.br = t.br ∧ readerBits u = readerBits t := by
  refine ⟨errorEnd e t, ?_, by rw [hf, ht], rfl, rfl⟩
  rw [command_raise e hp h hn ht, ht]

/-- What DEC_SYMBOL leaves of `s` with `v` in RESULT, the reader and SRC_POS being those of `t`. -/
def symbolLeft (s : State) (v : Word) (t : State) : State :=
  { s with
    results := { s.results with result := v }
    br := t.br
    ports := { s.ports with srcPos := t.ports.srcPos } }

theorem Decoded.eq_symbolLeft {v : Word} (h : Decoded s bits [] v t) : t = { symbolLeft s v t with seq := t.seq } := by
  obtain ⟨n, x, q, -, rfl⟩ := h.frame
  rw [decodedTo, appended_nil]
  rfl

/-- Settles O48: the walk takes a path to a leaf (`decSymbolBody_decoded`) or all bits (`decSymbolBody_truncated`), and a root that is a
leaf takes none (`decSymbolBody_of_root`). -/
theorem decSymbolWalksToALeaf : Obligations.DecSymbolWalksToALeaf := by
  intro s hq hp hr
  have hu : (startSteps 0x38 s).undisturbed := hq.undisturbed
  refine ⟨fun hv => command_raise .sequence hp (if_pos hv) hq.unstopped rfl, fun hv _ => ⟨fun w hw => ?_, fun w x hx hw => ?_,
    fun path rest w x hne hpath hb => ?_, fun w l r hi => ?_⟩⟩
  · exact command_ok hp ((decSymbolBody_of_root (s := startSteps 0x38 s) hv hw).trans (if_pos rfl)) hq.unstopped rfl
  · exact command_raise .consistency hp ((decSymbolBody_of_root (s := startSteps 0x38 s) hv hw).trans (if_neg hx)) hq.unstopped rfl
  · obtain ⟨t, hok, hd⟩ := decSymbolBody_decoded hu hr hv ⟨w, hpath⟩ (absurd · hne) hb
    obtain ⟨u, hexec, hstate, -, hbits⟩ := command_ok_answers (f := symbolLeft s (BitVec.ofNat 32 x.val)) hp hok hd.undisturbed.1
      (congrArg endSteps hd.eq_symbolLeft) rfl
    exact ⟨u, hexec, hbits.trans (List.append_cancel_left (hd.bits.symm.trans hb)), hstate⟩
  · obtain ⟨t, hraise, hd⟩ := decSymbolBody_truncated hu hr hv hi
    obtain ⟨u, hexec, hstate, -, hbits⟩ := command_raise_answers (f := symbolLeft s s.results.result) .truncated hp hraise
      hd.undisturbed.1 (congrArg (errorEnd .truncated) hd.eq_symbolLeft) rfl
    exact ⟨u, hexec, hbits.trans (List.self_eq_append_right.mp hd.bits), hstate⟩

end Sys2Proof.Machine
end

section
/-! DECOMPRESS of any source: the table in front of it, and where the decoding after it ends (45_decompress.md R222, R228, R229, R230,
60_exceptions.md R311). -/

namespace Sys2Proof.Machine

variable {s t u : State} {b : Byte} {bits path rest : List Bool} {bytes : List Byte} {code : Symbol → List Bool} {n : Nat}
  {w : BitVec 40} {l r : BitVec 10}

/-! ### The loop, byte after byte -/

/-- RESULT after some bytes are decoded: the last of them, or as before. -/
def lastResult (r : Word) (bytes : List Byte) : Word := (bytes.getLast?.map fun b => b.setWidth 32).getD r

theorem lastResult_cons (r : Word) (b : Byte) (bytes : List Byte) :
    lastResult r (b :: bytes) = lastResult (b.setWidth 32) bytes := by
  cases h : bytes.getLast? <;> simp [lastResult, List.getLast?_cons, h]

theorem ofNat_byteSymbol (b : Byte) : BitVec.ofNat 32 (byteSymbol b).val = b.setWidth 32 :=
  BitVec.eq_of_toNat_eq (by simp [byteSymbol])

/-- A path to the leaf of a byte at the front of the reader's bits gives the byte, which goes to the sink before the loop goes on. -/
theorem decodeLoop_byte (hu : s.undisturbed) (hr : readerLegal s.br) (hv : s.tree.valid = true)
    (hpath : LeadsToLeaf s.tree.arena s.tree.root path (byteSymbol b)) (hne : path ≠ []) (hb : readerBits s = path ++ rest) :
    ∃ t, Decoded s path [] (b.setWidth 32) t ∧
      ∀ n, decodeLoop (n + 1) s = (sinkByte b t).andThen fun _ s => decodeLoop n s := by
  obtain ⟨t, hok, ht⟩ := decSymbolBody_decoded hu hr hv hpath (absurd · hne) hb
  refine ⟨t, ofNat_byteSymbol b ▸ ht, fun n => ?_⟩
  rw [decodeLoop, hok, Result.ok_andThen, ht.result_eq, if_neg (ofNat_byteSymbol_ne b), setWidth_byteSymbol]

/-- The loop writes the bytes whose codes are at the front of the reader's bits, and goes on with the bits after them. -/
theorem decodeLoop_bytes (hu : s.undisturbed) (hr : readerLegal s.br) (hv : s.tree.valid = true)
    (hbytes : ∀ b ∈ bytes, LeadsToLeaf s.tree.arena s.tree.root (code (byteSymbol b)) (byteSymbol b) ∧ code (byteSymbol b) ≠ [])
    (hb : readerBits s = (bytes.map byteSymbol).flatMap code ++ rest) (hroom : bytes.length ≤ room s) :
    ∃ t, Decoded s ((bytes.map byteSymbol).flatMap code) bytes (lastResult s.results.result bytes) t ∧
      ∀ n, decodeLoop (bytes.length + n) s = decodeLoop n t := by
  induction bytes generalizing s with
  | nil => exact ⟨s, .refl hu, fun n => by rw [List.length_nil, Nat.zero_add]⟩
  | cons b bytes ih =>
    obtain ⟨⟨hpath, hne⟩, hbytes⟩ := List.forall_mem_cons.mp hbytes
    rw [List.map_cons, List.flatMap_cons, List.append_assoc] at hb
    rw [List.length_cons] at hroom
    obtain ⟨t, ht, hloop⟩ := decodeLoop_byte hu hr hv hpath hne hb
    have hroomt : room t = room s := ht.room_eq (Nat.zero_le _)
    have hone : [b].length ≤ room s := by rw [List.length_singleton]; omega
    have hw := ht.trans (decoded_wrote ht.undisturbed [b]) (Nat.zero_le _)
    rw [List.append_nil, List.nil_append, ht.result_eq] at hw
    have hroomw : room (wrote t [b]) = room s - 1 := hw.room_eq hone
    obtain ⟨u, hd, hrest⟩ := ih hw.undisturbed (hw.reader_legal hr) (hw.tree_eq ▸ hv) (hw.tree_eq ▸ hbytes)
      (List.append_cancel_left (hw.bits.symm.trans hb)) (by omega)
    rw [hw.result_eq, ← lastResult_cons s.results.result] at hd
    refine ⟨u, by rw [List.map_cons, List.flatMap_cons]; exact hw.trans hd hone, fun n => ?_⟩
    rw [List.length_cons, Nat.add_right_comm, hloop, sinkByte_room ht.undisturbed (by omega), Result.ok_andThen, hrest]

/-- The loop ends with TruncatedStreamError where all bits of the reader lead to an internal node. -/
theorem decodeLoop_truncated (hu : s.undisturbed) (hr : readerLegal s.br) (hv : s.tree.valid = true)
    (h : nodeOnPath s.tree.arena s.tree.root (readerBits s) = some (.internal w l r)) (n : Nat) :
    ∃ t, decodeLoop n s = .raise .truncated t ∧ Decoded s (readerBits s) [] s.results.result t := by
  obtain ⟨t, hraise, hd⟩ := decSymbolBody_truncated hu hr hv h
  refine ⟨t, ?_, hd⟩
  cases n <;> rw [decodeLoop, hraise, Result.raise_andThen]

/-- The loop ends with IOError where a byte is decoded that the sink has no room for. -/
theorem decodeLoop_full (hu : s.undisturbed) (hr : readerLegal s.br) (hv : s.tree.valid = true)
    (hpath : LeadsToLeaf s.tree.arena s.tree.root path (byteSymbol b)) (hne : path ≠ []) (hb : readerBits s = path ++ rest)
    (hroom : room s = 0) (hn : 0 < n) :
    ∃ t, decodeLoop n s = .raise .io t ∧ Decoded s path [] (b.setWidth 32) t := by
  obtain ⟨n, rfl⟩ := Nat.exists_eq_add_of_lt hn
  obtain ⟨t, ht, hloop⟩ := decodeLoop_byte hu hr hv hpath hne hb
  have hroomt : room t = 0 := (ht.room_eq (Nat.zero_le _)).trans hroom
  refine ⟨t, ?_, ht⟩
  rw [Nat.zero_add, hloop, sinkByte_full b (Nat.sub_eq_zero_iff_le.mp hroomt), Result.raise_andThen]

/-! ### The table in front -/

theorem readPairs_taken_le (d : Int) (bs : List Byte) (table : Vector Word 257) (k : Nat) :
    (readPairs d bs table k).2.2 ≤ k + bs.length := by
  fun_induction readPairs d bs table k
  all_goals
    simp only [List.length_cons] at *
    omega

/-- Reading a table takes no more bytes than there are. -/
theorem readTable_taken_le (bs : List Byte) : (readTable bs).2.2 ≤ bs.length := by
  rw [readTable]
  split_ifs with h
  · exact le_refl _
  · have hpairs := readPairs_taken_le (signedValue (bs.take 4)) (bs.drop 4) (Vector.replicate 257 0) 4
    rw [List.length_drop] at hpairs
    omega

theorem checkTable_of_no_terminator (h : countOf s terminator = 0) : checkTable s = .raise .format s := by
  rw [checkTable, if_pos h, ite_self]

/-- A table that is malformed, or that has no terminator, ends DECOMPRESS with FormatError where the reading of the table ended. -/
theorem decompressBody_bad_table {table : Vector Word 257} {ok : Bool} (hu : s.undisturbed)
    (ht : readTable (sourceBytes s) = (ok, table, n)) (h : ok = false ∨ table[terminator.val] = 0) :
    decompressBody s = .raise .format (tabled (decompressStart s) table n) := by
  have hdes : deserializeBody (decompressStart s) = deserialized (decompressStart s) (ok, table, n) := by
    rw [deserializeBody_eq (s := decompressStart s) hu, sourceBytes_decompressStart, ht]
  rw [decompressBody, hdes]
  cases ok with
  | false => rfl
  | true =>
    have hcheck := checkTable_of_no_terminator (s := tabled (decompressStart s) table n) (h.resolve_left nofun)
    rw [deserialized, if_pos rfl, Result.ok_andThen, hcheck, Result.raise_andThen]

/-- Settles O51: `decompressBody_bad_table`. -/
theorem decompressRejectsABadTable : Obligations.DecompressRejectsABadTable := by
  intro s hq hp h
  exact command_raise .format hp (decompressBody_bad_table (s := startSteps 0x39 s) hq.undisturbed rfl h) hq.unstopped rfl

/-! ### What is decoded after the table -/

/-- What DECOMPRESS leaves of `s` with these counts, their tree, these bytes appended and `v` in RESULT, the reader and SRC_POS being those
of `u`. -/
def decompressLeft (s : State) (table : Vector Word 257) (tree : Tree) (bytes : List Byte) (v : Word) (u : State) : State :=
  { appended s bytes with
    counts := table
    tree := tree
    codes := Codes.empty
    results := { s.results with result := v }
    br := u.br
    ports := { (appended s bytes).ports with srcPos := u.ports.srcPos } }

section Table

variable {table : Vector Word 257} {tree : Tree} {v : Word}

theorem Decoded.eq_decompressLeft (h : Decoded (decodeStart s table n tree) bits bytes v u) :
    u = { decompressLeft s table tree bytes v u with seq := u.seq } := by
  obtain ⟨m, x, q, -, rfl⟩ := h.frame
  rfl

/-- The codes of a table with a terminator lead to their leaves in its tree, and a byte's code is not empty. -/
theorem codeIn_byte (hterm : table[terminator.val] ≠ 0) (hT : treeOver (leavesOf table) = tree) (h : table[(byteSymbol b).val] ≠ 0) :
    LeadsToLeaf tree.arena tree.root (codeIn table (byteSymbol b)) (byteSymbol b) ∧ codeIn table (byteSymbol b) ≠ [] :=
  ⟨hT ▸ codeIn_leadsToLeaf h, codeIn_ne_nil h hterm (byteSymbol_ne_terminator b)⟩

/-- DECOMPRESS of a table with a terminator and the codes of some bytes after it: it writes these bytes and goes on with the bits after
them. -/
theorem decompressBody_bytes (hu : s.undisturbed) (ht : readTable (sourceBytes s) = (true, table, n))
    (hterm : table[terminator.val] ≠ 0) (hT : treeOver (leavesOf table) = tree) (hbytes : ∀ b ∈ bytes, table[(byteSymbol b).val] ≠ 0)
    (hroom : bytes.length ≤ room s)
    (hb : ((sourceBytes s).drop n).flatMap byteBits = (bytes.map byteSymbol).flatMap (codeIn table) ++ rest) :
    ∃ u k, decompressBody s = decodeLoop k u ∧ rest.length ≤ k ∧ readerBits u = rest ∧
      Decoded (decodeStart s table n tree) ((bytes.map byteSymbol).flatMap (codeIn table)) bytes (lastResult s.results.result bytes) u := by
  have hn : n ≤ bytesLeft s := by
    have := readTable_taken_le (sourceBytes s)
    rwa [ht, length_sourceBytes] at this
  have hcode (b : Byte) (hb : b ∈ bytes) := codeIn_byte hterm hT (hbytes b hb)
  have hbits : readerBits (decodeStart s table n tree) = (bytes.map byteSymbol).flatMap (codeIn table) ++ rest :=
    (readerBits_decodeStart hn).trans hb
  have hlen := length_readerBits (s := decodeStart s table n tree) (Nat.zero_le 8)
  rw [hbits, List.length_append] at hlen
  have hcodes := length_le_flatMap_codes fun b hb => (hcode b hb).2
  obtain ⟨k, hk⟩ := Nat.exists_eq_add_of_le (show bytes.length ≤ bitsLeft (decodeStart s table n tree) by omega)
  obtain ⟨u, hd, hloop⟩ := decodeLoop_bytes (s := decodeStart s table n tree) hu.decodeStart (Nat.zero_le 8) (hT ▸ treeOver_valid _)
    hcode hbits hroom
  refine ⟨u, k, ?_, by omega, List.append_cancel_left (hd.bits.symm.trans hbits), hd⟩
  rw [decompressBody_eq hu ht hterm hT, hk, hloop]

theorem Decoded.rem_lt (h : Decoded (decodeStart s table n tree) bits bytes v u) : u.br.rem.toNat < 8 :=
  Nat.lt_succ_of_le h.rem

/-! ### The command -/

theorem exec_decompress_ok (hp : s.littleEndian) (hbody : decompressBody (startSteps 0x39 s) = .ok () u)
    (hd : Decoded (decodeStart (startSteps 0x39 s) table n tree) bits bytes v u) :
    answers (exec .decompress s) fun t =>
      t = afterSuccess 0x39 (decompressLeft s table tree bytes v t) ∧ t.br.rem.toNat < 8 ∧ readerBits t = readerBits u := by
  obtain ⟨t, hexec, hstate, hbr, hrest⟩ := command_ok_answers (f := decompressLeft s table tree bytes v) hp hbody hd.undisturbed.1
    (congrArg endSteps hd.eq_decompressLeft) rfl
  exact ⟨t, hexec, hstate, hbr ▸ hd.rem_lt, hrest⟩

theorem exec_decompress_raise (e : ErrorKind) (hp : s.littleEndian) (hbody : decompressBody (startSteps 0x39 s) = .raise e u)
    (hd : Decoded (decodeStart (startSteps 0x39 s) table n tree) bits bytes v u) :
    answers (exec .decompress s) fun t =>
      t = afterError 0x39 e.code (decompressLeft s table tree bytes v t) ∧ t.br.rem.toNat < 8 ∧ readerBits t = readerBits u := by
  obtain ⟨t, hexec, hstate, hbr, hrest⟩ := command_raise_answers (f := decompressLeft s table tree bytes v) e hp hbody hd.undisturbed.1
    (congrArg (errorEnd e) hd.eq_decompressLeft) rfl
  exact ⟨t, hexec, hstate, hbr ▸ hd.rem_lt, hrest⟩

variable (hq : s.quiet) (hp : s.littleEndian) (ht : readTable (sourceBytes s) = (true, table, n)) (hterm : table[terminator.val] ≠ 0)
  (hT : treeOver (leavesOf table) = tree) (hbytes : ∀ b ∈ bytes, table[(byteSymbol b).val] ≠ 0)
include hq hp ht hterm hT hbytes

/-- Up to the terminator's code the bytes are decoded, without an error. -/
theorem exec_decompress_terminator (hroom : bytes.length ≤ room s)
    (hb : ((sourceBytes s).drop n).flatMap byteBits =
      (bytes.map byteSymbol).flatMap (codeIn table) ++ (codeIn table terminator ++ rest)) :
    answers (exec .decompress s) fun t =>
      t = afterSuccess 0x39 (decompressLeft s table tree bytes 256 t) ∧ t.br.rem.toNat < 8 ∧ readerBits t = rest := by
  obtain ⟨u, k, hbody, -, hbits, hd⟩ := decompressBody_bytes (s := startSteps 0x39 s) hq.undisturbed ht hterm hT hbytes hroom hb
  have htree : u.tree = tree := hd.tree_eq
  obtain ⟨v, hok, hend⟩ := decodeLoop_decoded (bytes := []) (code := codeIn table) hd.undisturbed (hd.reader_legal (Nat.zero_le 8))
    (htree ▸ hT ▸ treeOver_valid _) nofun (htree ▸ hT ▸ codeIn_leadsToLeaf hterm) hbits (Nat.zero_le k) (Nat.zero_le _)
  have hrest : readerBits v = rest := List.append_cancel_left (hend.bits.symm.trans hbits)
  have hall := hd.trans hend hroom
  rw [List.append_nil] at hall
  exact hrest ▸ exec_decompress_ok hp (hbody.trans hok) hall

/-- Where the bits end before a leaf, the bytes before are decoded, and TruncatedStreamError is raised. -/
theorem exec_decompress_truncated (hroom : bytes.length ≤ room s)
    (hb : ((sourceBytes s).drop n).flatMap byteBits = (bytes.map byteSymbol).flatMap (codeIn table) ++ rest)
    (hi : nodeOnPath tree.arena tree.root rest = some (.internal w l r)) :
    answers (exec .decompress s) fun t =>
      t = afterError 0x39 4 (decompressLeft s table tree bytes (lastResult s.results.result bytes) t) ∧ t.br.rem.toNat < 8 ∧
        readerBits t = [] := by
  obtain ⟨u, k, hbody, -, hbits, hd⟩ := decompressBody_bytes (s := startSteps 0x39 s) hq.undisturbed ht hterm hT hbytes hroom hb
  have htree : u.tree = tree := hd.tree_eq
  obtain ⟨v, hraise, hend⟩ := decodeLoop_truncated hd.undisturbed (hd.reader_legal (Nat.zero_le 8)) (htree ▸ hT ▸ treeOver_valid _)
    (by rw [htree, hbits, hi]) k
  have hrest : readerBits v = [] := List.self_eq_append_right.mp hend.bits
  have hall := hd.trans hend hroom
  rw [List.append_nil, hd.result_eq] at hall
  exact hrest ▸ exec_decompress_raise .truncated hp (hbody.trans hraise) hall

/-- Where one more byte is decoded than the sink has room for, IOError is raised. -/
theorem exec_decompress_full (h : table[(byteSymbol b).val] ≠ 0) (hroom : bytes.length = room s)
    (hb : ((sourceBytes s).drop n).flatMap byteBits =
      (bytes.map byteSymbol).flatMap (codeIn table) ++ (codeIn table (byteSymbol b) ++ rest)) :
    answers (exec .decompress s) fun t =>
      t = afterError 0x39 7 (decompressLeft s table tree bytes (b.setWidth 32) t) ∧ t.br.rem.toNat < 8 ∧ readerBits t = rest := by
  obtain ⟨u, k, hbody, hk, hbits, hd⟩ :=
    decompressBody_bytes (s := startSteps 0x39 s) hq.undisturbed ht hterm hT hbytes hroom.le hb
  have htree : u.tree = tree := hd.tree_eq
  have hroomu : room u = 0 := by rw [hd.room_eq hroom.le, room_decodeStart, hroom]; exact Nat.sub_self _
  obtain ⟨hpath, hne⟩ := codeIn_byte hterm hT h
  rw [List.length_append] at hk
  obtain ⟨v, hraise, hend⟩ := decodeLoop_full hd.undisturbed (hd.reader_legal (Nat.zero_le 8)) (htree ▸ hT ▸ treeOver_valid _)
    (htree ▸ hpath) hne hbits hroomu (Nat.lt_of_lt_of_le (List.length_pos_iff.mpr hne) (Nat.le_of_add_right_le hk))
  have hrest : readerBits v = rest := List.append_cancel_left (hend.bits.symm.trans hbits)
  have hall := hd.trans hend hroom.le
  rw [List.append_nil] at hall
  exact hrest ▸ exec_decompress_raise .io hp (hbody.trans hraise) hall

end Table

/-- Settles O50: after the table and the codes of the bytes come the terminator's code, bits that end before a leaf, or the code of a byte
too many. -/
theorem decompressDecodesUntilItEnds : Obligations.DecompressDecodesUntilItEnds := by
  intro s out rest hq hp counts tree bits code left hok hterm hbytes hroom
  have ht : readTable (sourceBytes s) = (true, counts, (readTable (sourceBytes s)).2.2) := Prod.ext hok rfl
  have hcodes : out.flatMap code = (out.map byteSymbol).flatMap (codeIn counts) := (List.flatMap_map ..).symm
  rw [hcodes]
  refine ⟨fun hb => ?_, fun hb ⟨w, l, r, hi⟩ => ?_, fun b hcount hfull hb => ?_⟩
  · exact exec_decompress_terminator hq hp ht hterm rfl hbytes hroom (hb.trans (List.append_assoc ..))
  · exact exec_decompress_truncated hq hp ht hterm rfl hbytes hroom hb hi
  · exact exec_decompress_full hq hp ht hterm rfl hbytes hcount hfull (hb.trans (List.append_assoc ..))

end Sys2Proof.Machine
end

section
/-! The bit writer and bit reader commands (46_bitstream.md R240 to R250). -/

namespace Sys2Proof.Machine

variable {s t : State} {b : Bool} {bits xs ys : List Bool}

/-! ### The writer's bits -/

theorem length_restBits_lt (bits : List Bool) : (restBits bits).length < 8 :=
  (length_restBits bits).trans_lt (Nat.mod_lt _ (by decide))

theorem bufferedBits_writerOf (h : xs.length < 8) : bufferedBits (writerOf xs) = xs := by
  refine List.ext_getElem (by rw [length_bufferedBits, n_writerOf h]) fun k _ hk => ?_
  have hbit : (writerOf xs).buf.getLsbD k = xs[k] := by
    change (packByte xs).getLsbD k = _
    rw [getLsbD_packByte, decide_eq_true (hk.trans h), Bool.true_and, List.getD_eq_getElem _ _ hk]
  simpa [bufferedBits] using hbit

/-- A writer that holds fewer than eight bits has zeros in the other places of its buffer. -/
theorem writerLegal_writerOf (h : xs.length < 8) : writerLegal (writerOf xs) := by
  rw [writerLegal, n_writerOf h]
  refine Nat.lt_pow_two_of_testBit _ fun k hk => ?_
  have hbit : (packByte xs).getLsbD k = false := by
    rw [getLsbD_packByte, List.getD_eq_default _ _ hk, Bool.and_false]
  exact hbit

theorem packBits_nil : packBits [] = [] := rfl

/-- Some bits, but fewer than eight, make one padded byte. -/
theorem packBits_of_lt (h0 : bits ≠ []) (h : bits.length < 8) : packBits bits = [packByte bits] := by
  rw [packBits, restBits_of_lt h, if_neg h0, wholeBytes_of_lt h, List.nil_append]

/-- The padded byte is that of the bits after the whole bytes. -/
theorem packBits_eq (bits : List Bool) : packBits bits = wholeBytes bits ++ packBits (restBits bits) := by
  by_cases h : restBits bits = []
  · rw [packBits, if_pos h, h, packBits_nil, List.append_nil]
  · rw [packBits, if_neg h, packBits_of_lt h (length_restBits_lt bits)]

/-! ### One command of the writer -/

theorem length_bufferedBits_lt (w : BitWriter) : (bufferedBits w).length < 8 := length_bufferedBits w ▸ w.n.isLt

/-- The buffered bits make no whole byte, which any room is enough for. -/
theorem bufferedBits_div_le (w : BitWriter) (n : Nat) : (bufferedBits w).length / 8 ≤ n :=
  (Nat.div_eq_of_lt (length_bufferedBits_lt w)).trans_le (Nat.zero_le n)

theorem putbit_of_writerLegal (hu : s.undisturbed) (hw : writerLegal s.bw) (b : Bool) :
    putbit b s =
      if (bufferedBits s.bw ++ [b]).length / 8 ≤ room s then .ok () (bitsPut s (bufferedBits s.bw ++ [b]))
      else .raise .io s := by
  have h := putbit_bitsPut hu (bufferedBits_div_le s.bw _) b
  rwa [bitsPut_bufferedBits hw] at h

theorem flushBody_of_writerLegal (hu : s.undisturbed) (hw : writerLegal s.bw) :
    flushBody s =
      if (packBits (bufferedBits s.bw)).length ≤ room s then
        .ok () ((wrote s (packBits (bufferedBits s.bw))).setBw { n := 0, buf := 0 })
      else .raise .io s := by
  have h := flushBody_bitsPut hu (bufferedBits_div_le s.bw _)
  rwa [bitsPut_bufferedBits hw] at h

/-- BW_PUTBIT appends its bit to the buffered ones and writes the byte that they then make, if any (46_bitstream.md R242). -/
theorem exec_bwPutbit (hq : s.quiet) (hp : s.littleEndian) (hw : writerLegal s.bw) (b : Bool) :
    exec (.bwPutbit b) s =
      if (bufferedBits s.bw ++ [b]).length / 8 ≤ room s then
        .next (afterSuccess 0x41 { appended s (wholeBytes (bufferedBits s.bw ++ [b])) with
          bw := writerOf (restBits (bufferedBits s.bw ++ [b])) })
      else .next (afterError 0x41 7 s) := by
  have hbody := putbit_of_writerLegal (s := startSteps 0x41 s) hq.undisturbed hw b
  split_ifs with hfit
  · exact command_ok hp (hbody.trans (if_pos hfit)) hq.unstopped rfl
  · exact command_raise .io hp (hbody.trans (if_neg hfit)) hq.unstopped rfl

/-- BW_FLUSH writes the padded byte of the buffered bits, if there are any (46_bitstream.md R243). -/
theorem exec_bwFlush (hq : s.quiet) (hp : s.littleEndian) (hw : writerLegal s.bw) :
    exec .bwFlush s =
      if (packBits (bufferedBits s.bw)).length ≤ room s then
        .next (afterSuccess 0x42 { appended s (packBits (bufferedBits s.bw)) with bw := { n := 0, buf := 0 } })
      else .next (afterError 0x42 7 s) := by
  have hbody := flushBody_of_writerLegal (s := startSteps 0x42 s) hq.undisturbed hw
  split_ifs with hfit
  · exact command_ok hp (hbody.trans (if_pos hfit)) hq.unstopped rfl
  · exact command_raise .io hp (hbody.trans (if_neg hfit)) hq.unstopped rfl

/-- Settles O40: with the new bit the buffered ones are fewer than eight, or they are the bits of one byte (`exec_bwPutbit`). -/
theorem bwPutbitAddsOneBit : Obligations.BwPutbitAddsOneBit := by
  intro s b hq hp hw
  have hn := s.bw.n.isLt
  have hlen : (bufferedBits s.bw ++ [b]).length = s.bw.n.toNat + 1 := by simp
  rw [exec_bwPutbit hq hp hw]
  by_cases h7 : s.bw.n.toNat < 7
  · have hlt : (bufferedBits s.bw ++ [b]).length < 8 := by omega
    rw [if_pos h7, if_pos (by omega), wholeBytes_of_lt hlt, restBits_of_lt hlt, appended_nil]
  · have hlen : (bufferedBits s.bw ++ [b]).length = 8 := by omega
    have hrest : restBits (bufferedBits s.bw ++ [b]) = [] := by rw [← List.length_eq_zero_iff, length_restBits, hlen]
    rw [if_neg h7, wholeBytes_of_length_eq hlen, hrest, hlen]
    rfl

/-- Settles O41: the buffered bits are none, or make one padded byte (`exec_bwFlush`). -/
theorem bwFlushWritesThePartialByte : Obligations.BwFlushWritesThePartialByte := by
  intro s hq hp hw
  rw [exec_bwFlush hq hp hw]
  by_cases hnil : bufferedBits s.bw = []
  · have hempty : s.bw = { n := 0, buf := 0 } := by rw [← writerOf_bufferedBits hw, hnil, writerOf_nil]
    rw [if_pos hnil, hnil, packBits_nil, appended_nil, ← hempty]
    rfl
  · rw [if_neg hnil, packBits_of_lt hnil (length_bufferedBits_lt s.bw)]
    rfl

/-- Settles O39: the bodies are `newWriter` and `newReader`. -/
theorem bwInitAndBrInitEmptyTheBuffers : Obligations.BwInitAndBrInitEmptyTheBuffers := fun _ hq hp =>
  ⟨command_ok hp rfl hq.unstopped rfl, command_ok hp rfl hq.unstopped rfl⟩

/-! ### Bits put one after another from an empty writer -/

theorem runAll_append (is js : List Instr) (s : State) : runAll (is ++ js) s = (runAll is s).bind (runAll js) := by
  induction is generalizing s with
  | nil => rfl
  | cons i is ih =>
    rw [List.cons_append, runAll, runAll]
    cases exec i s with
    | next t => exact ih t
    | fault _ => rfl
    | refused _ => rfl

/-- Commands that started at `s` have come to `t`, between two of them: `bytes` are appended to the sink, `rest` is in the writer. -/
structure Emitted (s : State) (bytes : List Byte) (rest : List Bool) (t : State) : Prop where
  quiet : t.quiet
  littleEndian : t.littleEndian
  ports : t.ports = (appended s bytes).ports
  dst : t.dst = (appended s bytes).dst
  bw : t.bw = writerOf rest

variable {bytes : List Byte} {rest : List Bool}

theorem Emitted.start (hq : s.quiet) (hp : s.littleEndian) (hw : s.bw = { n := 0, buf := 0 }) : Emitted s [] [] s where
  quiet := hq
  littleEndian := hp
  ports := by rw [appended_nil]
  dst := by rw [appended_nil]
  bw := hw

/-- A command that appends bytes goes on where those before it ended. -/
theorem Emitted.next (h : Emitted s bytes rest t) (hfit : bytes.length ≤ room s) (op : BitVec 8) (more : List Byte) (left : List Bool) :
    Emitted s (bytes ++ more) left (afterSuccess op { appended t more with bw := writerOf left }) where
  quiet := rfl
  littleEndian := h.littleEndian
  ports := by
    rw [← appended_appended hfit]
    simp only [afterSuccess, appended, h.ports]
  dst := by
    rw [← appended_appended hfit]
    simp only [afterSuccess, appended, h.ports, h.dst]
  bw := rfl

theorem Emitted.room_eq (h : Emitted s bytes rest t) (hfit : bytes.length ≤ room s) : room t = room s - bytes.length := by
  rw [← room_wrote hfit, room, room, h.ports]
  rfl

theorem Emitted.dstPos_eq (h : Emitted s bytes rest t) (hfit : bytes.length ≤ room s) :
    t.ports.dstPos.toNat = s.ports.dstPos.toNat + bytes.length := by
  rw [h.ports, dstPos_appended hfit]

/-- The sink holds the bytes in order from where DST_POS was. -/
theorem Emitted.memoryGet_eq (h : Emitted s bytes rest t) :
    (List.range bytes.length).map (fun k => memoryGet t.dst (s.ports.dstPos.toNat + k)) = bytes := by
  rw [h.dst, memoryGet_appended]

theorem Emitted.writerLegal (h : Emitted s bytes rest t) (hlt : rest.length < 8) : writerLegal t.bw := by
  rw [h.bw]; exact writerLegal_writerOf hlt

theorem Emitted.bufferedBits_eq (h : Emitted s bytes rest t) (hlt : rest.length < 8) : bufferedBits t.bw = rest := by
  rw [h.bw, bufferedBits_writerOf hlt]

/-- BW_PUTBIT after some bits: the whole bytes of the bits so far are in the sink, the rest in the writer. -/
theorem Emitted.exec_bwPutbit (h : Emitted s (wholeBytes bits) (restBits bits) t) (hfit : (bits ++ [b]).length / 8 ≤ room s) :
    answers (exec (.bwPutbit b) t) (Emitted s (wholeBytes (bits ++ [b])) (restBits (bits ++ [b]))) := by
  have hdiv := length_append_div bits [b]
  have hbytes : (wholeBytes bits).length ≤ room s := by rw [length_wholeBytes]; omega
  have hroom : (restBits bits ++ [b]).length / 8 ≤ room t := by
    rw [h.room_eq hbytes, length_wholeBytes]; omega
  have hexec := Machine.exec_bwPutbit h.quiet h.littleEndian (h.writerLegal (length_restBits_lt bits)) b
  rw [h.bufferedBits_eq (length_restBits_lt bits), if_pos hroom] at hexec
  rw [wholeBytes_append, restBits_append]
  exact ⟨_, hexec, h.next hbytes 0x41 _ _⟩

/-- BW_FLUSH after some bits: the packed bits are in the sink. -/
theorem Emitted.exec_bwFlush (h : Emitted s (wholeBytes bits) (restBits bits) t) (hfit : (packBits bits).length ≤ room s) :
    answers (exec .bwFlush t) (Emitted s (packBits bits) []) := by
  have hlen : (packBits bits).length = (wholeBytes bits).length + (packBits (restBits bits)).length := by
    rw [packBits_eq, List.length_append]
  have hbytes : (wholeBytes bits).length ≤ room s := by omega
  have hroom : (packBits (restBits bits)).length ≤ room t := by rw [h.room_eq hbytes]; omega
  have hexec := Machine.exec_bwFlush h.quiet h.littleEndian (h.writerLegal (length_restBits_lt bits))
  rw [h.bufferedBits_eq (length_restBits_lt bits), if_pos hroom] at hexec
  rw [packBits_eq]
  exact ⟨_, hexec, h.next hbytes 0x42 _ []⟩

/-- By induction on the bits still to be put. -/
theorem Emitted.runAll_bwPutbit (h : Emitted s (wholeBytes xs) (restBits xs) t) (hfit : (xs ++ ys).length / 8 ≤ room s) :
    ∃ u, runAll (ys.map .bwPutbit) t = some u ∧ Emitted s (wholeBytes (xs ++ ys)) (restBits (xs ++ ys)) u := by
  induction ys generalizing xs t with
  | nil => exact ⟨t, rfl, by rwa [List.append_nil]⟩
  | cons y ys ih =>
    rw [List.append_cons] at hfit ⊢
    have hone : (xs ++ [y]).length / 8 ≤ room s := by
      rw [List.length_append (as := xs ++ [y])] at hfit; omega
    obtain ⟨v, hv, hemit⟩ := h.exec_bwPutbit hone
    rw [List.map_cons, runAll, hv]
    exact ih hemit hfit

/-- From an empty writer the whole bytes of the bits are written, and with a flush the packed bits. -/
theorem runAll_bwPutbit_bwFlush (hq : s.quiet) (hp : s.littleEndian) (hw : s.bw = { n := 0, buf := 0 })
    (hfit : (packBits bits).length ≤ room s) :
    ∃ t u, runAll (bits.map .bwPutbit) s = some t ∧ Emitted s (wholeBytes bits) (restBits bits) t ∧
      runAll (bits.map .bwPutbit ++ [.bwFlush]) s = some u ∧ Emitted s (packBits bits) [] u := by
  have hlen := length_packBits bits
  obtain ⟨t, ht, hemit⟩ := (Emitted.start hq hp hw).runAll_bwPutbit (xs := []) (ys := bits) (by rw [List.nil_append]; omega)
  obtain ⟨u, hu, hflushed⟩ := hemit.exec_bwFlush hfit
  refine ⟨t, u, ht, hemit, ?_, hflushed⟩
  rw [runAll_append, ht, Option.bind_some, runAll, hu]
  rfl

/-- Settles O42: the whole bytes, and with a flush the packed bits, are at most one byte (`runAll_bwPutbit_bwFlush`). -/
theorem writerEmitsAByteAtItsBoundaries : Obligations.WriterEmitsAByteAtItsBoundaries := by
  intro s bits hq hp hw hroom hlen
  have hpacked := length_packBits bits
  have hwhole := length_wholeBytes bits
  obtain ⟨t, u, ht, hput, hu, hflushed⟩ := runAll_bwPutbit_bwFlush (bits := bits) hq hp hw (by omega)
  refine ⟨t, u, ht, hu, ?_, ?_⟩
  · rw [hput.dstPos_eq (by omega), hwhole]
  · rw [hflushed.dstPos_eq (by omega), hpacked]

/-- Settles O44: the sink holds the packed bits (`runAll_bwPutbit_bwFlush`), which are read back with their padding
(`flatMap_byteBits_packBits`). -/
theorem readerDeliversWhatTheWriterWrote : Obligations.ReaderDeliversWhatTheWriterWrote := by
  intro s bits hq hp hw hroom
  rw [← length_packBits] at hroom ⊢
  obtain ⟨-, t, -, -, ht, hflushed⟩ := runAll_bwPutbit_bwFlush hq hp hw hroom
  refine ⟨t, ht, hflushed.dstPos_eq hroom, fun u hbr hsource => ?_⟩
  rw [hflushed.memoryGet_eq] at hsource
  rw [readerBits_of_empty (by rw [hbr]), hsource]
  exact flatMap_byteBits_packBits bits

/-! ### BR_GETBIT -/

/-- What the reader holds after it delivered a bit: those after it of the held ones, or of the byte that was taken for it. -/
def readerAfterBit (s : State) : BitReader :=
  if s.br.rem = 0 then { rem := 7, cur := memoryGet s.src s.ports.srcPos.toNat }
  else { rem := s.br.rem - 1, cur := s.br.cur }

/-- A bit that is delivered leaves the reader with those after it; a byte is taken for it if none was held (46_bitstream.md R246). -/
theorem getbit_some (hu : s.undisturbed) (h : getbit s = .ok (some b) t) :
    t = (taken s (if s.br.rem = 0 then 1 else 0)).setBr (readerAfterBit s) := by
  by_cases h0 : s.br.rem = 0
  · rw [getbit, if_pos h0] at h
    split_ifs at h with hx
    · cases h
    · have hrem : (8 : BitVec 4) - 1 = 7 := by decide
      rw [takeByte_undisturbed hu, advanceSrc_beaten] at h
      rw [readerAfterBit, if_pos h0, if_pos h0, ← hrem]
      cases h
      rfl
  · rw [getbit, if_neg h0] at h
    rw [readerAfterBit, if_neg h0, if_neg h0, taken_zero]
    cases h
    rfl

/-- At the end no bit is held and no byte is left. -/
theorem getbit_of_end (hr : readerLegal s.br) (hb : readerBits s = []) : getbit s = .ok none s := by
  have hleft : bitsLeft s = 0 := by rw [← length_readerBits hr, hb]; rfl
  simp only [bitsLeft] at hleft
  have h0 : s.br.rem = 0 := BitVec.eq_of_toNat_eq (by change s.br.rem.toNat = 0; omega)
  rw [getbit, if_pos h0, if_pos (exhausted_iff.mpr (by omega))]

/-- Settles O43: at the end `getbit_of_end`; otherwise the first bit is delivered (`getbit_decoded`), which fixes the rest (`getbit_some`). -/
theorem brGetbitReturnsTheNextBit : Obligations.BrGetbitReturnsTheNextBit := by
  intro s hq hp hr
  refine ⟨fun hb => ?_, fun b rest hb => ?_⟩
  · have hbody : brGetbitBody (startSteps 0x49 s) = .ok () ((startSteps 0x49 s).setResults { s.results with result := 0x80000000 }) := by
      rw [brGetbitBody, getbit_of_end (s := startSteps 0x49 s) hr hb]
      rfl
    exact command_ok hp hbody hq.unstopped rfl
  · obtain ⟨t, hget, -, ht⟩ := getbit_decoded (s := startSteps 0x49 s) hq.undisturbed hr hb
    have hrest : readerBits t = rest := List.append_cancel_left (as := [b]) (ht.bits.symm.trans hb)
    obtain rfl := getbit_some (s := startSteps 0x49 s) hq.undisturbed hget
    exact ⟨_, command_ok hp (congrArg (Result.andThen · _) hget) hq.unstopped rfl, hrest, rfl⟩

end Sys2Proof.Machine
end

section
/-! How the commands of an idle core end, and the whole next state of the two control commands (47_control.md R271, R273, R274, R276). -/

namespace Sys2Proof.Machine

variable {s : State}

/-! ### The end of every command -/

/-- Only the start steps write LAST_OP (10_state.md R28): it is kept by every piece of a body. -/
theorem lastOp_keepsAll (op : BitVec 8) : KeepsAll (fun t => t.status.lastOp = op) True True where
  hidden := ⟨fun _ _ h => h, fun _ _ _ h => h, fun _ _ => Or.inl trivial⟩
  walk := fun _ _ h => h
  srcPos := fun _ _ h => h
  sink := fun _ _ _ h => h
  writer := fun _ _ _ h => h
  reader := fun _ _ _ h => h
  counts := fun _ _ _ h => h
  results := fun _ _ h => h
  newTree := fun _ _ _ h => h
  newCodes := fun _ _ _ _ h => h
  softReset := fun _ h => h
  sound := Or.inl trivial

/-- The end steps leave a legal state, if the body left legal tables, buffers and memories and no error in STATUS. -/
theorem endSteps_legal (h : s.bodyLegal) (he : s.status.err = false) (hc : s.status.errCode = 0) : (endSteps s).legal :=
  ⟨rfl, statusLegal_ended he hc, h⟩

/-- The error end leaves a legal state, whatever STATUS the body left. -/
theorem errorEnd_legal (h : s.bodyLegal) (e : ErrorKind) : (errorEnd e s).legal := ⟨rfl, statusLegal_errored s.status e, h⟩

/-- Settles O9: a body neither faults on legal tables (`bodyLegal_keepsAll`) nor is stopped on an idle core (`underway_keepsAll`), and it
leaves LAST_OP alone (`lastOp_keepsAll`), so that the command comes to its end steps or its error end. -/
theorem everyCommandEnds : Obligations.EveryCommandEnds := by
  intro i s ⟨hq, _, hb⟩
  have k := (bodyLegal_keepsAll.and (underway_keepsAll s)).and (lastOp_keepsAll i.opcode)
  have hcompress : i = .compress → (compressBody (startSteps i.opcode s)).meets _ _ _ := fun _ =>
    k.compress (fun _ ⟨⟨hl, hu⟩, ho⟩ => ⟨⟨hl, { hu with }⟩, ho⟩) ⟨⟨hb, { Underway.start i.opcode with }⟩, rfl⟩
  refine (exec_meets k i ⟨⟨hb, .start i.opcode⟩, rfl⟩ hcompress).answers (fun hf => hf.1.1) ?_ ?_
    fun hs => absurd hq.unstopped hs.1.2
  · exact fun u ⟨⟨hl, hu⟩, ho⟩ => ⟨rfl, ho, congrArg irqPended hu.irq, endSteps_legal hl hu.err hu.errCode⟩
  · exact fun u e ⟨⟨hl, hu⟩, ho⟩ => ⟨rfl, ho, congrArg irqPended hu.irq, errorEnd_legal hl e⟩

/-! ### The control commands -/

theorem exec_nop (hq : s.quiet) : exec .nop s = .next (afterSuccess 0x00 s) :=
  congrArg Host.Outcome.next (unlessStopped_eq (s := startSteps 0x00 s) hq.unstopped)

theorem opcode_nop {i : Instr} (h : i.opcode = 0x00) : i = .nop := by
  cases i <;> simp [Instr.opcode] at h ⊢

theorem opcode_of_decode {w : Word} {i : Instr} (h : decode w = some i) : i.opcode = opField w := by
  obtain ⟨hi, rfl⟩ := encode_of_decode h
  exact opcode_of_selectsRow (selectsRow_encode hi)

/-- The only legal word of opcode 0x00 is 0, the word of NOP. -/
theorem decode_opField_zero {w : Word} (hop : opField w = 0x00) (hw : w ≠ 0) : decode w = none := by
  refine Option.eq_none_iff_forall_ne_some.mpr fun i hi => hw ?_
  obtain rfl : i = .nop := opcode_nop ((opcode_of_decode hi).trans hop)
  exact (encode_of_decode hi).2.symm

/-- Settles O21: neither body raises (`exec_nop`, `exec_softReset`), and a word of opcode 0x00 that decodes is NOP's
(`decode_opField_zero`). -/
theorem nopKeepsAllAndSoftResetClearsTheCodecState : Obligations.NopKeepsAllAndSoftResetClearsTheCodecState :=
  ⟨fun _ hq => exec_nop hq, fun _ hop hw => decode_opField_zero hop hw, fun _ ignored hq => exec_softReset ignored hq⟩

end Sys2Proof.Machine
end

section
/-! The errors a command can end with, the platform check, and the interrupt output (60_exceptions.md R300, R301, R303, R320). -/

namespace Sys2Proof.Machine

variable {α β : Type} {P : State → Prop} {S F : Prop} {E : ErrorKind → Prop} {s t : State}

/-! ### What a piece of a body raises -/

/-- The piece raises no error but those of `E`. -/
def Result.raisesOnly (E : ErrorKind → Prop) : Result α → Prop
  | .raise e _ => E e
  | _ => True

theorem Result.raisesOnly_andThen {r : Result α} {f : α → State → Result β} (hr : r.raisesOnly E)
    (hf : ∀ a t, r = .ok a t → (f a t).raisesOnly E) : (r.andThen f).raisesOnly E := by
  cases r with
  | ok a t => exact hf a t rfl
  | raise e t => exact hr
  | stopped t | faulted x => trivial

theorem Result.raisesOnly_then {r : Result α} {f : α → State → Result β} (hr : r.raisesOnly E)
    (hf : ∀ a t, (f a t).raisesOnly E) : (r.andThen f).raisesOnly E := raisesOnly_andThen hr fun a t _ => hf a t

theorem Result.raisesOnly_imp {E' : ErrorKind → Prop} {r : Result α} (hr : r.raisesOnly E) (h : ∀ e, E e → E' e) :
    r.raisesOnly E' := by
  cases r with
  | raise e t => exact h e hr
  | ok a t | stopped t | faulted x => trivial

/-- What a piece leaves where it goes through. -/
theorem Result.meets_of_ok {r : Result α} {a : α} (hr : r.meets P S F) (h : r = .ok a t) : P t := by rwa [h] at hr

theorem beat_raises : (beat s).raisesOnly E := by
  rcases beat_cases s with ⟨_, hb⟩ | hb <;> rw [hb] <;> trivial

theorem memRead_raises (a : Word) : (memRead a s).raisesOnly E := by
  rcases memRead_cases a s with ⟨_, hb⟩ | ⟨_, hb⟩ | ⟨_, _, _, hb⟩ <;> rw [hb] <;> trivial

theorem takeByte_raises : (takeByte s).raisesOnly E := Result.raisesOnly_then (memRead_raises _) fun _ _ => trivial

theorem srcByte_raises {e : ErrorKind} (h : E e) : (srcByte e s).raisesOnly E := by
  unfold srcByte
  split_ifs
  · exact h
  · exact takeByte_raises

theorem getS32le_raises {e : ErrorKind} (h : E e) : (getS32le e s).raisesOnly E :=
  Result.raisesOnly_then (srcByte_raises h) fun _ _ =>
  Result.raisesOnly_then (srcByte_raises h) fun _ _ =>
  Result.raisesOnly_then (srcByte_raises h) fun _ _ =>
  Result.raisesOnly_then (srcByte_raises h) fun _ _ => trivial

theorem getS16le_raises {e : ErrorKind} (h : E e) : (getS16le e s).raisesOnly E :=
  Result.raisesOnly_then (srcByte_raises h) fun _ _ =>
  Result.raisesOnly_then (srcByte_raises h) fun _ _ => trivial

theorem sinkByte_raises (v : Byte) (h : E .io) : (sinkByte v s).raisesOnly E := by
  rcases sinkByte_cases v s with ⟨_, hb⟩ | ⟨_, ⟨_, hb⟩ | hb⟩ <;> rw [hb]
  · exact h
  · trivial
  · trivial

theorem sinkBytes_raises (bs : List Byte) (h : E .io) : (sinkBytes bs s).raisesOnly E := by
  induction bs generalizing s with
  | nil => trivial
  | cons b bs ih => exact Result.raisesOnly_then (sinkByte_raises b h) fun _ _ => ih

theorem putbit_raises (b : Bool) (h : E .io) : (putbit b s).raisesOnly E := by
  unfold putbit
  split_ifs
  · exact Result.raisesOnly_then (sinkByte_raises _ h) fun _ _ => trivial
  · trivial

theorem putbits_raises (bs : List Bool) (h : E .io) : (putbits bs s).raisesOnly E := by
  induction bs generalizing s with
  | nil => trivial
  | cons b bs ih => exact Result.raisesOnly_then (putbit_raises b h) fun _ _ => ih

theorem getbit_raises : (getbit s).raisesOnly E := by
  unfold getbit
  split_ifs
  · trivial
  · exact Result.raisesOnly_then takeByte_raises fun _ _ => trivial
  · trivial

/-! ### What the body of each command raises -/

theorem analyzeLoop_raises (n : Nat) (h : E .countOverflow) : (analyzeLoop n s).raisesOnly E := by
  induction n generalizing s with
  | zero => trivial
  | succ n ih =>
    unfold analyzeLoop
    split_ifs
    · trivial
    · refine Result.raisesOnly_then (memRead_raises _) fun b t => ?_
      split_ifs
      · exact h
      · exact ih

theorem analyzeBody_raises (h : E .countOverflow) : (analyzeBody s).raisesOnly E := analyzeLoop_raises _ h

theorem addTerminatorBody_raises (h : E .countOverflow) : (addTerminatorBody s).raisesOnly E := by
  unfold addTerminatorBody
  split_ifs
  · exact h
  · trivial

theorem serializePairs_raises (xs : List Symbol) (h : E .io) : (serializePairs xs s).raisesOnly E := by
  induction xs generalizing s with
  | nil => trivial
  | cons x xs ih =>
    unfold serializePairs
    split_ifs
    · exact ih
    · exact Result.raisesOnly_then (sinkBytes_raises _ h) fun _ _ =>
        Result.raisesOnly_then (sinkBytes_raises _ h) fun _ _ => ih

theorem serializeBody_raises (h : E .io) : (serializeBody s).raisesOnly E :=
  Result.raisesOnly_then (sinkBytes_raises _ h) fun _ _ =>
    Result.raisesOnly_then (serializePairs_raises _ h) fun _ _ => sinkBytes_raises _ h

theorem deserializeLoop_raises (d : Int) (n : Nat) (h : E .format) : (deserializeLoop d n s).raisesOnly E := by
  induction n generalizing s with
  | zero => exact h
  | succ n ih =>
    unfold deserializeLoop
    refine Result.raisesOnly_then (getS32le_raises h) fun c t => ?_
    split_ifs
    · trivial
    · exact h
    · refine Result.raisesOnly_then (getS16le_raises h) fun y t => ?_
      cases fieldSymbol y with
      | none => exact h
      | some x => exact ih

theorem deserializeBody_raises (h : E .format) : (deserializeBody s).raisesOnly E :=
  Result.raisesOnly_then (getS32le_raises h) fun _ _ => deserializeLoop_raises _ _ h

theorem ftWriteBody_raises (x : Symbol) (h : E .countOverflow) : (ftWriteBody x s).raisesOnly E := by
  unfold ftWriteBody
  split_ifs
  · exact h
  · trivial

theorem flushBody_raises (h : E .io) : (flushBody s).raisesOnly E := by
  unfold flushBody
  split_ifs
  · trivial
  · exact Result.raisesOnly_then (sinkByte_raises _ h) fun _ _ => trivial

theorem brGetbitBody_raises : (brGetbitBody s).raisesOnly E := Result.raisesOnly_then getbit_raises fun _ _ => trivial

theorem tbBuildBody_raises (h : leavesOf s.counts = [] → E .format) : (tbBuildBody s).raisesOnly E := by
  unfold tbBuildBody
  dsimp only
  split_ifs with hl
  · exact h hl
  · trivial

theorem tbReadnodeBody_raises (i : BitVec 10) (h : E .sequence) (hi : E .illegalCommand) : (tbReadnodeBody i s).raisesOnly E := by
  unfold tbReadnodeBody
  split_ifs
  · exact h
  · exact hi
  · cases nodeAt s i <;> trivial

theorem ctBuildBody_raises (h : s.tree.valid = false → E .sequence) : (ctBuildBody s).raisesOnly E := by
  unfold ctBuildBody
  split_ifs with hv
  · exact h hv
  · cases codesOfTree s.tree <;> trivial

theorem ctReadBody_raises (x : Symbol) (h : E .sequence) : (ctReadBody x s).raisesOnly E := by
  unfold ctReadBody
  split_ifs
  · exact h
  · trivial

theorem encSymbolBody_raises (x : Symbol) (h : E .io) (hc : E .consistency) : (encSymbolBody x s).raisesOnly E := by
  unfold encSymbolBody
  split_ifs
  · exact hc
  · exact putbits_raises _ h

theorem encodeLoop_raises (n : Nat) (h : E .io) (hc : E .consistency) : (encodeLoop n s).raisesOnly E := by
  induction n generalizing s with
  | zero => exact encSymbolBody_raises _ h hc
  | succ n ih =>
    unfold encodeLoop
    split_ifs
    · exact encSymbolBody_raises _ h hc
    · exact Result.raisesOnly_then takeByte_raises fun _ _ =>
        Result.raisesOnly_then (encSymbolBody_raises _ h hc) fun _ _ => ih

theorem walkLoop_raises (n : Nat) (h : E .truncated) : (walkLoop n s).raisesOnly E := by
  induction n generalizing s with
  | zero => exact h
  | succ n ih =>
    unfold walkLoop
    refine Result.raisesOnly_then getbit_raises fun b t => ?_
    cases b with
    | none => exact h
    | some b =>
      dsimp only
      split
      · split
        · trivial
        · exact ih
        · trivial
      · trivial

theorem decSymbolBody_raises (h : E .truncated) (hs : s.tree.valid = false → E .sequence)
    (hc : ∀ w x, nodeAt s s.tree.root = some (.leaf w x) → x ≠ terminator → E .consistency) :
    (decSymbolBody s).raisesOnly E := by
  by_cases hv : s.tree.valid = false
  · rw [decSymbolBody, if_pos hv]
    exact hs hv
  · rcases hn : nodeAt s s.tree.root with _ | node
    · have hwalk : nodeAt (setWalk s s.tree.root) (setWalk s s.tree.root).seq.walk = none := hn
      rw [decSymbolBody, if_neg hv]
      dsimp only
      rw [hwalk]
      trivial
    · rw [decSymbolBody_of_root (by simpa using hv) hn]
      cases node with
      | leaf w x =>
        dsimp only
        split_ifs with hx
        · trivial
        · exact hc w x hn hx
      | internal w l r => exact walkLoop_raises _ h

theorem checkTable_raises (h : E .format) : (checkTable s).raisesOnly E := by
  unfold checkTable
  split_ifs
  · exact h
  · exact h
  · trivial

/-! ### The composites, whose earlier pieces rule out errors of the later ones -/

/-- FT_ADD_TERMINATOR leaves a terminator count, where the counts are legal. -/
theorem addTerminatorBody_count {a : Unit} (hl : countsLegal s.counts) (h : addTerminatorBody s = .ok a t) :
    countOf t terminator ≠ 0 := by
  unfold addTerminatorBody at h
  split_ifs at h with hf
  cases h
  obtain ⟨hsucc, -⟩ := addOne_toNat hf (hl terminator)
  have hcount : countOf (addOne s terminator) terminator = countOf s terminator + 1 := by simp [countOf, addOne, setCount]
  intro h0
  rw [← hcount, h0] at hsucc
  exact absurd hsucc (Nat.succ_ne_zero _).symm

/-- TB_BUILD leaves the counts and, where it goes through, their tree. -/
theorem tbBuildBody_tree {a : Unit} (h : tbBuildBody s = .ok a t) : t.tree = treeOver (leavesOf s.counts) := by
  by_cases hl : leavesOf s.counts = []
  · have hraise : tbBuildBody s = .raise .format (clearCodes (s.setTree Tree.none)) := if_pos hl
    rw [hraise] at h
    cases h
  · rw [tbBuildBody_of_leaves hl] at h
    cases h
    rfl

/-- COMPRESS builds its tree over a table with the terminator in it, and its codes over that tree, so that it raises neither FormatError
nor SequenceError (44_compress.md R205). -/
theorem compressBody_raises (ho : E .countOverflow) (hi : E .io) (hc : E .consistency) : (compressBody s).raisesOnly E := by
  refine Result.raisesOnly_andThen (analyzeBody_raises ho) fun _ u hu => ?_
  have hlegal : countsLegal u.counts :=
    Result.meets_of_ok (analyzeLoop_meets (s := clearCounts (compressStart s)) (P := fun t => countsLegal t.counts) (S := True) (F := True)
      ⟨fun _ _ h => h, fun _ _ _ h => h, fun _ _ => Or.inl trivial⟩ (fun _ _ h => h) (fun _ _ h hl => h hl) _ countsLegal_zero) hu
  refine Result.raisesOnly_andThen (addTerminatorBody_raises ho) fun _ v hv => ?_
  have hterm := addTerminatorBody_count hlegal hv
  refine Result.raisesOnly_andThen (serializeBody_raises hi) fun _ x hx => ?_
  have hcounts : x.counts = v.counts :=
    Result.meets_of_ok (serializeBody_meets (P := fun t => t.counts = v.counts) (S := True) (F := True)
      ⟨fun _ _ h => h, fun _ _ _ h => h, fun _ _ => Or.inl trivial⟩ (fun _ _ _ h => h) rfl) hx
  have hleaves : leavesOf x.counts ≠ [] := hcounts ▸ leavesOf_ne_nil hterm
  refine Result.raisesOnly_andThen (tbBuildBody_raises (absurd · hleaves)) fun _ y hy => ?_
  have hvalid : y.tree.valid = true := by rw [tbBuildBody_tree hy, treeOver_valid]
  refine Result.raisesOnly_then (ctBuildBody_raises fun h => absurd (hvalid.symm.trans h) Bool.true_eq_false_eq_False) fun _ _ => ?_
  refine Result.raisesOnly_then (Result.raisesOnly_then beat_raises fun _ _ => trivial) fun _ _ => ?_
  exact Result.raisesOnly_then (encodeLoop_raises _ hi hc) fun _ _ => flushBody_raises hi

/-- The only leaf of a tree over a table with the terminator in it is the terminator's. -/
theorem root_leaf_eq_terminator {counts : Vector Word 257} {w : BitVec 40} {x : Symbol} (h : counts[terminator.val] ≠ 0)
    (hr : (treeOver (leavesOf counts)).arena[(treeOver (leavesOf counts)).root.toNat]? = some (.leaf w x)) : x = terminator := by
  have hpath : LeadsToLeaf _ _ _ _ := codeIn_leadsToLeaf h
  have hleaf : LeadsToLeaf (treeOver (leavesOf counts)).arena (treeOver (leavesOf counts)).root [] x := ⟨w, hr⟩
  exact (hleaf.eq_nil_of_append (cs := codeIn counts terminator) hpath).2.symm

/-- Where the tree is valid and its root is no leaf of a data symbol, decoding raises neither SequenceError nor ConsistencyError. -/
theorem decodeLoop_raises (n : Nat) (h : E .truncated) (hi : E .io) (hv : s.tree.valid = true)
    (hr : ∀ w x, s.tree.arena[s.tree.root.toNat]? = some (.leaf w x) → x = terminator) : (decodeLoop n s).raisesOnly E := by
  have hsymbol {u : State} (hu : u.tree = s.tree) : (decSymbolBody u).raisesOnly E :=
    decSymbolBody_raises h (fun hf => absurd (hv.symm.trans (hu ▸ hf)) Bool.true_eq_false_eq_False)
      fun w x hn hx => absurd (hr w x (by rwa [nodeAt, hu] at hn)) hx
  have hhidden : KeepsHidden (fun t => t.tree = s.tree) True := ⟨fun _ _ h => h, fun _ _ _ h => h, fun _ _ => Or.inl trivial⟩
  suffices ∀ u : State, u.tree = s.tree → (decodeLoop n u).raisesOnly E from this s rfl
  induction n with
  | zero =>
    intro u hu
    refine Result.raisesOnly_then (hsymbol hu) fun _ t => ?_
    split_ifs
    · trivial
    · exact h
  | succ n ih =>
    intro u hu
    refine Result.raisesOnly_andThen (hsymbol hu) fun _ t ht => ?_
    have htree : t.tree = s.tree :=
      Result.meets_of_ok (decSymbolBody_keepsResult hhidden (fun _ _ h => h) (fun _ _ _ h => h) (fun _ _ h => h) (fun _ _ h => h) hu) ht
    split_ifs
    · trivial
    · refine Result.raisesOnly_andThen (sinkByte_raises _ hi) fun _ v hv => ?_
      exact ih v (Result.meets_of_ok (sinkByte_meets (F := True) hhidden (fun _ _ _ h => h) _ htree) hv)

/-- DECOMPRESS decodes with the tree of a table that has the terminator in it (45_decompress.md R228, R229). -/
theorem decompressBody_raises (hf : E .format) (h : E .truncated) (hi : E .io) : (decompressBody s).raisesOnly E := by
  refine Result.raisesOnly_then (deserializeBody_raises hf) fun _ u => ?_
  refine Result.raisesOnly_andThen (checkTable_raises hf) fun _ v hv => ?_
  have hterm : countOf v terminator ≠ 0 := by
    unfold checkTable at hv
    split_ifs at hv with hall h0
    cases hv
    exact h0
  refine Result.raisesOnly_andThen (tbBuildBody_raises fun _ => hf) fun _ x hx => ?_
  have htree := tbBuildBody_tree hx
  exact decodeLoop_raises _ h hi (htree ▸ treeOver_valid _) fun w y hn => root_leaf_eq_terminator hterm (htree ▸ hn)

/-! ### How every command ends -/

/-- The opcodes of the commands whose body, or operand, raises the error (60_exceptions.md R301). -/
def errorOps : ErrorKind → List Nat
  | .format => [0x14, 0x20, 0x39]
  | .consistency => [0x30, 0x31, 0x38]
  | .platform => []
  | .truncated => [0x38, 0x39]
  | .illegalCommand => [0x15, 0x16, 0x21, 0x29, 0x30]
  | .countOverflow => [0x11, 0x12, 0x16, 0x31]
  | .io => [0x13, 0x30, 0x31, 0x39, 0x41, 0x42]
  | .sequence => [0x21, 0x28, 0x29, 0x38]

/-- The command of this opcode may raise the error: R301 lists it, or it is the PlatformError of a big-endian platform (R303). -/
def mayRaise (p : Params) (op : Nat) (e : ErrorKind) : Prop :=
  op ∈ errorOps e ∨ (e = .platform ∧ p.platformLE = false ∧ op ∉ [0x00, 0x01])

/-- The outcome is the close of a command of this opcode, whose result leaves `P`, is stopped only if `S`, faults only if `F` and raises
only what the command may raise. -/
def closesWith (P : State → Prop) (S F : Prop) (p : Params) (op : BitVec 8) (o : Host.Outcome State Fault Refusal) : Prop :=
  ∃ r : Result Unit, o = close r ∧ r.meets P S F ∧ r.raisesOnly (mayRaise p op.toNat)

theorem command_closes {op : BitVec 8} {body : State → Result Unit} (hs : P (startSteps op s))
    (h : (body (startSteps op s)).meets P S F) (hr : (body (startSteps op s)).raisesOnly fun e => op.toNat ∈ errorOps e)
    (hop : op.toNat ∉ [0x00, 0x01] := by decide) : closesWith P S F s.par op (command op body s) := by
  refine ⟨_, rfl, ?_⟩
  unfold checkPlatform
  split_ifs with hp
  · exact ⟨h, Result.raisesOnly_imp hr fun _ he => Or.inl he⟩
  · exact ⟨hs, Or.inr ⟨rfl, Bool.eq_false_of_not_eq_true hp, hop⟩⟩

theorem symbolCommand_closes {op : BitVec 8} {arg : BitVec 10} {body : Symbol → State → Result Unit} (hs : P (startSteps op s))
    (h : ∀ x, (body x (startSteps op s)).meets P S F)
    (hr : ∀ x, (body x (startSteps op s)).raisesOnly fun e => op.toNat ∈ errorOps e)
    (hop : op.toNat ∉ [0x00, 0x01] := by decide) (hi : op.toNat ∈ errorOps .illegalCommand := by decide) :
    closesWith P S F s.par op (symbolCommand op arg body s) := by
  unfold symbolCommand
  cases symbolOf arg with
  | none => exact ⟨.raise .illegalCommand (startSteps op s), rfl, hs, Or.inl hi⟩
  | some x => exact command_closes hs (h x) (hr x) hop

/-- Every command closes after its body, once for all constructors; COMPRESS, which moves SRC_POS back, has its own premise. -/
theorem exec_closes (k : KeepsAll P S F) (i : Instr) (h : P (startSteps i.opcode s))
    (hc : i = .compress → (compressBody (startSteps i.opcode s)).meets P S F) : closesWith P S F s.par i.opcode (exec i s) := by
  have hs : ∀ t, P t → F ∨ (t.tree.valid = true → treeSound t.tree) := fun t ht => k.sound.imp id fun hf => hf t ht
  cases i with
  | nop => exact ⟨.ok () (startSteps 0x00 s), rfl, h, trivial⟩
  | softReset x =>
    exact ⟨_, rfl, Result.meets_then (beat_meets k.hidden h) fun _ t ht => k.softReset t ht,
      Result.raisesOnly_then beat_raises fun _ _ => trivial⟩
  | ftClear => exact command_closes h (clearCounts_meets k.counts h) trivial
  | ftAnalyze => exact command_closes h (analyzeBody_meets k.hidden k.srcPos k.counts h) (analyzeBody_raises (by decide))
  | ftAddTerminator => exact command_closes h (addTerminatorBody_meets k.counts h) (addTerminatorBody_raises (by decide))
  | ftSerialize => exact command_closes h (serializeBody_meets k.hidden k.sink h) (serializeBody_raises (by decide))
  | ftDeserialize => exact command_closes h (deserializeBody_meets k.hidden k.srcPos k.counts h) (deserializeBody_raises (by decide))
  | ftRead a => exact symbolCommand_closes (op := 0x15) h (fun x => k.results _ _ h) fun _ => trivial
  | ftWrite a =>
    exact symbolCommand_closes (op := 0x16) h (fun x => ftWriteBody_meets k.counts x h) fun x => ftWriteBody_raises x (by decide)
  | tbBuild => exact command_closes h (tbBuildBody_meets k.newTree treeOver_legal h) (tbBuildBody_raises fun _ => by decide)
  | tbReadnode a =>
    exact command_closes (op := 0x21) h (tbReadnodeBody_meets k.results a (hs _ h) h) (tbReadnodeBody_raises a (by decide) (by decide))
  | ctBuild =>
    exact command_closes h (ctBuildBody_meets k.newCodes ((hs _ h).imp id fun hf hv => codesOfTree_some (hf hv)) h)
      (ctBuildBody_raises fun _ => by decide)
  | ctRead a =>
    exact symbolCommand_closes (op := 0x29) h (fun x => ctReadBody_meets k.results x h) fun x => ctReadBody_raises x (by decide)
  | encSymbol a =>
    exact symbolCommand_closes (op := 0x30) h (fun x => encSymbolBody_meets k.hidden k.sink k.writer x h)
      fun x => encSymbolBody_raises x (by decide) (by decide)
  | compress => exact command_closes h (hc rfl) (compressBody_raises (by decide) (by decide) (by decide))
  | decSymbol =>
    exact command_closes h (decSymbolBody_meets k.hidden k.srcPos k.reader k.results k.walk (hs _ h) h)
      (decSymbolBody_raises (by decide) (fun _ => by decide) fun _ _ _ _ => by decide)
  | decompress =>
    exact command_closes h
      (decompressBody_meets k.hidden k.srcPos k.reader k.results k.walk k.sink k.counts k.newTree k.sound h)
      (decompressBody_raises (by decide) (by decide) (by decide))
  | bwInit => exact command_closes h (k.writer _ _ (fun _ => writerLegal_empty) h) trivial
  | bwPutbit b =>
    exact command_closes (op := 0x41) h (putbit_meets k.hidden k.sink k.writer b h) (putbit_raises b (by decide))
  | bwFlush => exact command_closes h (flushBody_meets k.hidden k.sink k.writer h) (flushBody_raises (by decide))
  | brInit => exact command_closes h (k.reader _ _ (fun _ => by simp [readerLegal]) h) trivial
  | brGetbit => exact command_closes h (brGetbitBody_meets k.hidden k.srcPos k.reader k.results h) brGetbitBody_raises

/-- The error code that a command leaves is 0, or that of an error it raised. -/
theorem close_errCode {r : Result Unit} (hm : r.meets (Underway s) S F) (hr : r.raisesOnly E) (ht : close r = .next t) :
    t.status.errCode = 0 ∨ ∃ e, E e ∧ t.status.errCode = e.code := by
  cases r with
  | ok a u =>
    cases ht
    unfold unlessStopped
    split_ifs <;> exact Or.inl hm.errCode
  | raise e u =>
    cases ht
    unfold unlessStopped
    split_ifs
    · exact Or.inr ⟨e, hr, rfl⟩
    · exact Or.inl hm.errCode
  | stopped u =>
    cases ht
    exact Or.inl hm.2.errCode
  | faulted f => cases ht

theorem exec_errCode {i : Instr} (ht : exec i s = .next t) :
    t.status.errCode = 0 ∨ ∃ e, mayRaise s.par i.opcode.toNat e ∧ t.status.errCode = e.code := by
  have k := underway_keepsAll s
  obtain ⟨r, hclose, hm, hr⟩ := exec_closes k i (.start i.opcode) fun _ =>
    k.compress (fun _ h => { h with }) { Underway.start i.opcode with }
  exact close_errCode hm hr (hclose.symm.trans ht)

/-- Settles O19: the error a command ends with is one that its body raises (`exec_errCode`), and `exec_closes` goes through the bodies. -/
theorem commandsRaiseOnlyTheirErrors : Obligations.CommandsRaiseOnlyTheirErrors := by
  intro i s t _ ht
  rcases exec_errCode ht with h0 | ⟨e, hop | ⟨rfl, -, hop⟩, hcode⟩
  · exact Or.inl h0
  · rw [hcode]
    cases e <;> simp only [errorOps, List.not_mem_nil] at hop <;> simp [ErrorKind.code, hop]
  · exact Or.inr (Or.inr (Or.inr (Or.inl ⟨hcode, hop⟩)))

theorem command_bigEndian (op : BitVec 8) (body : State → Result Unit) (hq : s.quiet) (hp : s.par.platformLE = false) :
    command op body s = .next (afterError op 3 s) := by
  have hraise : checkPlatform body (startSteps op s) = .raise .platform (startSteps op s) :=
    if_neg (Bool.eq_false_iff.mp hp)
  rw [command, hraise]
  exact congrArg Host.Outcome.next (unlessStopped_eq (s := startSteps op s) hq.unstopped)

theorem symbolCommand_bigEndian (op : BitVec 8) {arg : BitVec 10} (body : Symbol → State → Result Unit) (hq : s.quiet)
    (hp : s.par.platformLE = false) (ha : isSymbolArg arg = true) : symbolCommand op arg body s = .next (afterError op 3 s) := by
  rw [symbolCommand_eq op arg body hq, dif_pos (of_decide_eq_true ha), command_bigEndian _ _ hq hp]

/-- Settles O18: the platform check comes before every body but those of NOP and SOFT_RESET (`command_bigEndian`), and where it passes no
body raises PlatformError (`exec_errCode`). -/
theorem bigEndianPlatformEndsWithPlatformError : Obligations.BigEndianPlatformEndsWithPlatformError := by
  refine ⟨fun i s hq hw hp h0 h1 => ?_, fun i s t _ hp ht h3 => ?_⟩
  · cases i
    case nop => exact absurd rfl h0
    case softReset => exact absurd rfl h1
    case ftRead | ftWrite | ctRead | encSymbol => exact symbolCommand_bigEndian _ _ hq hp hw
    all_goals exact command_bigEndian _ _ hq hp
  · rcases exec_errCode ht with h | ⟨e, hop | ⟨-, hle, -⟩, h⟩ <;> rw [h3] at h
    · exact absurd h (by decide)
    · cases e <;> simp [ErrorKind.code, errorOps] at h hop
    · exact absurd (hp.symm.trans hle) Bool.true_eq_false_eq_False

/-- Settles O56: a command's end sets PEND and keeps IE (`exec_ended`), and a written 1 clears PEND (`step_regWrite`). -/
theorem interruptFollowsIeAndPend : Obligations.InterruptFollowsIeAndPend := by
  refine ⟨fun i s t hq ht => ?_, fun s t v rest hv hb ht => ?_⟩
  · obtain ⟨u, hu, hend⟩ := exec_ended hq ht
    have hie : u.irq.ie = s.irq.ie := congrArg Irq.ie hu.irq
    rcases hend with rfl | ⟨e, rfl⟩ <;> exact ⟨(Bool.and_true _).trans hie, rfl, rfl⟩
  · rw [step_regWrite (by decide) (by decide) (by decide) hb] at ht
    cases ht
    simp [irqLine, writeRegister, irqWrite_eq, hv]

end Sys2Proof.Machine
end

section
/-! Host accesses that fall while a command runs: dropped writes, reads, races, and SOFT_RESET (70_reset_and_hazards.md R350 to R352). -/

namespace Sys2Proof.Machine

variable {P : State → Prop} {S F : Prop} {s t u : State} {w v : Word} {off : Nat} {rest : List HostOp}

/-! ### Which accesses stop a command, and which are refused -/

/-- A SOFT_RESET word written to CMD stops the running command. -/
theorem softResetWord_cmd (p : Params) (hv : opField v = 0x01) :
    softResetWord p (.regWrite .word (p.regBase + 0x08) v) = some v := by
  simp only [softResetWord, windowOffset_word (p := p) (off := 0x08) (by omega) (by omega)]
  exact if_pos ⟨rfl, hv⟩

/-- Any other register write stops nothing. -/
theorem softResetWord_dropped (p : Params) (ho : off < 256) (h4 : off % 4 = 0) (hv : off = 0x08 → opField v ≠ 0x01) :
    softResetWord p (.regWrite .word (p.regBase + off) v) = none := by
  simp only [softResetWord, windowOffset_word ho h4]
  exact if_neg fun h => hv h.1 h.2

theorem busyRefusal_regWrite (p : Params) (ho : off < 256) (h4 : off % 4 = 0) :
    busyRefusal p (.regWrite .word (p.regBase + off) v) = none := by
  simp only [busyRefusal, windowOffset_word ho h4]

theorem busyRefusal_regRead (p : Params) (ho : off < 256) (h4 : off % 4 = 0) :
    busyRefusal p (.regRead .word (p.regBase + off)) = none := by
  simp only [busyRefusal, windowOffset_word ho h4]

/-- An access that stops nothing falls while the command runs. -/
theorem overlapped_access {a : HostAccess} {before after : List HostAccess} (h : softResetWord s.par a = none) (hr : a ≠ .hardReset) :
    overlapped w before (a :: after) s = overlapped w (before ++ [a]) after s := by
  simp only [overlapped, h, hr, if_false]

/-- A SOFT_RESET word stops the command and runs as the next one. -/
theorem overlapped_softReset {before after : List HostAccess} (hv : opField v = 0x01) (ht : runBusy w before true s = .next t) :
    overlapped w before (.regWrite .word (s.par.regBase + 0x08) v :: after) s = overlapped v [] after t := by
  simp only [overlapped, softResetWord_cmd s.par hv, ht]

/-! ### Dropped writes -/

/-- A register write that falls while a command runs leaves what the command leaves without it. -/
theorem settleAll_regWrite (op : BitVec 8) (start : State) (size : AccessSize) (a : Nat) (pre post : List HostAccess)
    (old : List Host.Cell) (s : State) :
    settleAll op start (pre ++ .regWrite size a v :: post) old s = settleAll op start (pre ++ post) old s := by
  induction pre generalizing old s with
  | nil => rfl
  | cons b pre ih => exact ih _ _

theorem runBusy_regWrite (ho : off < 256) (h4 : off % 4 = 0) (pre post : List HostAccess) (stop : Bool) (s : State) :
    runBusy w (pre ++ .regWrite .word (s.par.regBase + off) v :: post) stop s = runBusy w (pre ++ post) stop s := by
  have hraced : racedCells (pre ++ .regWrite .word (s.par.regBase + off) v :: post) = racedCells (pre ++ post) := by
    simp [racedCells]
  have hrefused : (pre ++ .regWrite .word (s.par.regBase + off) v :: post).findSome? (busyRefusal s.par) =
      (pre ++ post).findSome? (busyRefusal s.par) := by
    simp [List.findSome?_append, busyRefusal_regWrite s.par ho h4]
  simp only [runBusy, hrefused, armed, hraced, settleAll_regWrite]

/-- A dropped write among the accesses that have fallen makes no difference to what the others bring about. -/
theorem overlapped_dropped_before (ho : off < 256) (h4 : off % 4 = 0) (pre post after : List HostAccess) (s : State) :
    overlapped w (pre ++ .regWrite .word (s.par.regBase + off) v :: post) after s = overlapped w (pre ++ post) after s := by
  induction after generalizing post with
  | nil => exact runBusy_regWrite ho h4 pre post false s
  | cons a after ih =>
    have ih := ih (post ++ [a])
    simp only [overlapped, runBusy_regWrite ho h4, List.append_assoc, List.cons_append, ih]

/-- By induction on the accesses that fall before the dropped write: each of them falls while the command runs, or stops it and the write
then falls while SOFT_RESET runs. -/
theorem overlapped_dropped (ho : off < 256) (h4 : off % 4 = 0) (hv : off = 0x08 → opField v ≠ 0x01) (pre before after : List HostAccess)
    (hb : ∀ a ∈ before, a ≠ .hardReset) (s : State) :
    overlapped w pre (before ++ .regWrite .word (s.par.regBase + off) v :: after) s = overlapped w pre (before ++ after) s := by
  induction before generalizing w pre s with
  | nil =>
    refine (overlapped_access (softResetWord_dropped s.par ho h4 hv) HostAccess.noConfusion).trans ?_
    simpa using overlapped_dropped_before ho h4 pre [] after s
  | cons a before ih =>
    obtain ⟨ha, hb⟩ := List.forall_mem_cons.mp hb
    cases hw : softResetWord s.par a with
    | none =>
      rw [List.cons_append, List.cons_append, overlapped_access hw ha, overlapped_access hw ha]
      exact ih _ hb s
    | some w' =>
      simp only [List.cons_append, overlapped, hw]
      cases ht : runBusy w pre true s with
      | next t => exact runBusy_par ht ▸ ih [] hb t
      | fault f => rfl
      | refused r => rfl

/-- Settles O57: of the accesses marked as falling while the command runs, a dropped write makes no difference (`overlapped_dropped`). -/
theorem writesWhileBusyAreDropped : Obligations.WritesWhileBusyAreDropped := by
  intro s w v off before after hq ho h4 hv hb hbus
  have hbusy : ∀ op ∈ before, op.whileBusy = true := fun op h => (hb op h).1
  have hreset : ∀ a ∈ before.map (·.access), a ≠ .hardReset := by
    intro a ha
    obtain ⟨op, hop, rfl⟩ := List.mem_map.mp ha
    exact (hb op hop).2
  rw [step_startCommand hbus, step_startCommand (s := s.setHost _) rfl, startCommand_eq w (by exact hq), startCommand_eq w (by exact hq)]
  simp only [State.setHost_host, List.takeWhile_append_of_pos hbusy, List.dropWhile_append_of_pos hbusy, List.takeWhile_cons,
    List.dropWhile_cons, if_true, List.map_append, List.map_cons]
  exact overlapped_dropped ho h4 hv [] _ _ hreset (s.setHost { s.host with bus := after.dropWhile (·.whileBusy) })

/-! ### A command that no access stops or races with -/

/-- The core with these accesses of the host's still to be made. -/
def withBus (s : State) (rest : List HostOp) : State := s.setHost { s.host with bus := rest }

theorem runBusy_settled {during : List HostAccess} {stop : Bool} (hd : during.findSome? (busyRefusal s.par) = none)
    (hu : runWord w (armed during stop s) = .next u) :
    runBusy w during stop s = .next ((settleAll (opField w) s during s.dst u).setSeq Sequencer.idle) := by
  simp only [runBusy, hd, hu]

/-- Where accesses fall that neither stop the command nor write SRC, the command leaves what it leaves alone, and then they are settled. -/
theorem runBusy_alone {during : List HostAccess} (hq : s.quiet) (hr : racedCells during = [])
    (hd : during.findSome? (busyRefusal s.par) = none) (ht : runWord w s = .next t) :
    runBusy w during false s = .next ((settleAll (opField w) s during s.dst t).setSeq Sequencer.idle) ∧ t.seq = Sequencer.idle :=
  ⟨runBusy_settled hd ((congrArg (runWord w) (armed_quiet hq hr)).trans ht), runWord_idle hq.unstopped ht⟩

@[simp] theorem withBus_par (s : State) (rest : List HostOp) : (withBus s rest).par = s.par := rfl

/-- The step of a command with no access falling while it runs, as the statements put it beside one with accesses. -/
theorem runWord_withBus (hr : ∀ op ∈ rest, op.whileBusy = false)
    (ht : step (s.setHost { s.host with
      bus := { whileBusy := false, access := .regWrite .word (s.par.regBase + 0x08) w } :: rest }) = .next t) :
    runWord w (withBus s rest) = .next t := by
  rwa [step_alone (s := s.setHost _) hr rfl] at ht

/-- A step that starts a command while which exactly the accesses of `ops` fall. -/
theorem step_withBus {ops : List HostOp} (hq : s.quiet) (hr : ∀ op ∈ rest, op.whileBusy = false)
    (hb : s.host.bus = { whileBusy := false, access := .regWrite .word (s.par.regBase + 0x08) w } :: (ops ++ rest))
    (ho : ∀ op ∈ ops, op.whileBusy = true := by simp) : step s = overlapped w [] (ops.map (·.access)) (withBus s rest) :=
  step_overlapped hq ho hr hb

/-- The core is idle again where only the host's side of what a command left has changed. -/
theorem setSeq_idle_host {h : HostSide} (hu : u = t.setHost h) (hi : t.seq = Sequencer.idle) :
    u.setSeq Sequencer.idle = { t with host := h } := by
  rw [hu, ← hi]
  rfl

/-! ### Reads -/

/-- The value that STATUS shows while the command of a word runs. -/
theorem busyStatusWord_statusWord {start : State} {sticky : Bool}
    (h : (busyStatus (opField w) start s).errSticky = true → sticky = true) :
    busyStatusWord w sticky (statusWord (busyStatus (opField w) start s)) := by
  obtain ⟨hbusy, herr, hsticky, hzero⟩ := statusWord_flags (busyStatus (opField w) start s)
  exact ⟨hbusy, herr, by rwa [hsticky], hzero, statusWord_codes _⟩

/-- ERR_STICKY shows 1 only if it was 1 when the command started. -/
theorem busyStatus_start {op : BitVec 8} {start : State} (h : (busyStatus op start s).errSticky = true) :
    start.status.errSticky = true := (Bool.and_eq_true_iff.mp h).1

theorem busyStatus_errSticky {op : BitVec 8} {start : State} (h : op ≠ 0x01) :
    (busyStatus op start s).errSticky = start.status.errSticky := by
  simp only [busyStatus, bne_iff_ne.mpr h, Bool.true_or, Bool.and_true]

/-- A later read that shows 1 comes after reads that show 1: SOFT_RESET alone clears ERR_STICKY, and what it has cleared stays so. -/
theorem busyStatus_of_sticky {op : BitVec 8} {start : State} (hs : s.status.errSticky = true) (h : start.status.errSticky = true) :
    (busyStatus op start s).errSticky = true := by
  simp only [busyStatus, h, hs, Bool.or_true, Bool.true_or, Bool.and_true]

theorem sticky_statusWord (x : Status) : (statusWord x).getLsbD 2 = x.errSticky := by
  obtain ⟨-, -, h, -⟩ := statusWord_flags x
  exact h

/-- What one register read leaves that falls while a command runs: a value in the read log, exact for ID, CAPS and STATUS. -/
theorem settleAccess_regRead (op : BitVec 8) (start t : State) (old : List Host.Cell) (ho : off < 256) (h4 : off % 4 = 0) :
    ∃ (r : Word) (n : Nat), settleAccess op start (.regRead .word (start.par.regBase + off)) old t =
        (old, t.setHost { t.host with readLog := r :: t.host.readLog, draws := n }) ∧
      (off = 0x00 → r = Config.idValue) ∧ (off = 0x04 → r = capsWord t.par) ∧
      (off = 0x0C → r = statusWord (busyStatus op start t)) := by
  simp only [settleAccess, windowOffset_word ho h4, busyRead]
  split
  · exact ⟨_, t.host.draws, rfl, fun _ => rfl, by simp, by simp⟩
  · exact ⟨_, t.host.draws, rfl, by simp, fun _ => rfl, by simp⟩
  · exact ⟨_, _, rfl, by simp, by simp, fun _ => rfl⟩
  · rename_i h0 h4 hc
    exact ⟨_, _, rfl, fun h => absurd h h0, fun h => absurd h h4, fun h => absurd h hc⟩

/-- A read of STATUS while the command of opcode `op` runs, that started at `start`. -/
def statusRead (op : BitVec 8) (start t : State) : State := logRead (drawn t) (statusWord (busyStatus op start t))

theorem statusRead_eq (op : BitVec 8) (start t : State) : statusRead op start t =
    t.setHost { t.host with readLog := statusWord (busyStatus op start t) :: t.host.readLog, draws := t.host.draws + 1 } := rfl

theorem settleAll_status {p : Params} {op : BitVec 8} {start : State} (h : start.par = p) (during : List HostAccess)
    (old : List Host.Cell) (t : State) :
    settleAll op start (.regRead .word (p.regBase + 0x0C) :: during) old t = settleAll op start during old (statusRead op start t) := by
  rw [settleAll, settleAccess_status h]
  rfl

theorem busyRefusal_status (p : Params) : busyRefusal p (.regRead .word (p.regBase + 0x0C)) = none :=
  busyRefusal_regRead p (by omega) (by omega)

/-! ### A command that is stopped -/

/-- A command that the host stops leaves what its body left, since it runs no end steps (70_reset_and_hazards.md R351). -/
theorem close_stopped {r : Result Unit} (h : r.meets P S F) (hF : ¬F) (hn : ∀ t, P t → t.seq.stopAt ≠ none) :
    answers (close r) P := by
  cases r with
  | ok a u => exact ⟨u, congrArg Host.Outcome.next (unlessStopped_stopped (hn u h)), h⟩
  | raise e u => exact ⟨u, congrArg Host.Outcome.next (unlessStopped_stopped (hn u h)), h⟩
  | stopped u => exact ⟨u, rfl, h.2⟩
  | faulted f => exact absurd h hF

theorem runWord_closes (k : KeepsAll P S F) (w : Word) (h : ∀ op, P (startSteps op s))
    (hc : (compressBody (startSteps 0x31 s)).meets P S F) : ∃ r : Result Unit, runWord w s = close r ∧ r.meets P S F := by
  unfold runWord
  cases decode w with
  | none => exact ⟨_, rfl, h (opField w)⟩
  | some i =>
    obtain ⟨r, hr, hm, -⟩ := exec_closes k i (h _) fun hi => by subst hi; exact hc
    exact ⟨r, hr, hm⟩

/-- ERR_STICKY is not set while a command runs: only its end sets it, and only SOFT_RESET clears it. -/
theorem sticky_keepsAll (b : Bool) : KeepsAll (fun t => t.status.errSticky = true → b = true) True True where
  hidden := ⟨fun _ _ h => h, fun _ _ _ h => h, fun _ _ => Or.inl trivial⟩
  walk := fun _ _ h => h
  srcPos := fun _ _ h => h
  sink := fun _ _ _ h => h
  writer := fun _ _ _ h => h
  reader := fun _ _ _ h => h
  counts := fun _ _ _ h => h
  results := fun _ _ h => h
  newTree := fun _ _ _ h => h
  newCodes := fun _ _ _ _ h => h
  softReset := fun _ _ h => absurd h Bool.false_ne_true
  sound := Or.inl trivial

/-- What a command leaves that started at `s` and is stopped: it is as it was while it ran. -/
structure StoppedAfter (s t : State) : Prop extends LeftBy s t where
  srcLen : t.ports.srcLen = s.ports.srcLen
  dataIn : t.ports.dataIn = s.ports.dataIn
  irq : t.irq = s.irq
  bodyLegal : t.bodyLegal
  sticky : t.status.errSticky = true → s.status.errSticky = true

theorem runWord_stopped (w : Word) (h : s.bodyLegal) (hn : s.seq.stopAt ≠ none) : answers (runWord w s) (StoppedAfter s) := by
  have k := ((bodyLegal_keepsAll.and (underway_keepsAll s)).and (sinkOnward_keepsAll s)).and (sticky_keepsAll s.status.errSticky)
  have hsink : ∀ op, SinkOnward s (startSteps op s) := fun op => { SinkOnward.refl s with }
  have hc := k.compress (s := startSteps 0x31 s) (fun t ⟨⟨⟨hl, hu⟩, hs⟩, hb⟩ => ⟨⟨⟨hl, { hu with }⟩, { hs with }⟩, hb⟩)
    ⟨⟨⟨h, { Underway.start 0x31 with }⟩, { hsink 0x31 with }⟩, id⟩
  obtain ⟨r, hr, hm⟩ := runWord_closes k w (fun op => ⟨⟨⟨h, .start op⟩, hsink op⟩, id⟩) hc
  rw [hr]
  obtain ⟨t, ht, ⟨⟨hl, hu⟩, hs⟩, hb⟩ := close_stopped hm (fun ⟨⟨⟨hf, _⟩, _⟩, _⟩ => hf) fun t ⟨⟨⟨_, hu⟩, _⟩, _⟩ => hu.stopAt ▸ hn
  exact ⟨t, ht, { hu, hu.leftBy hs with bodyLegal := hl, sticky := hb }⟩

/-- A SOFT_RESET word stops a command where it was still running, the accesses that fell while it ran are settled, and SOFT_RESET runs. -/
theorem overlapped_stopped (w : Word) {during : List HostAccess} (h : s.bodyLegal) (hv : opField v = 0x01)
    (hd : during.findSome? (busyRefusal s.par) = none) :
    ∃ u, StoppedAfter s u ∧ ∀ after, overlapped w during (.regWrite .word (s.par.regBase + 0x08) v :: after) s =
      overlapped v [] after ((settleAll (opField w) s during s.dst u).setSeq Sequencer.idle) := by
  obtain ⟨u, hu, hf⟩ := runWord_stopped w (armed_bodyLegal during true h) (Option.some_ne_none _)
  exact ⟨u, { hf with }, fun after => overlapped_softReset hv (runBusy_settled hd hu)⟩

/-- What SOFT_RESET leaves of an idle core (47_control.md R276). -/
def softResetLeft (s : State) : State := endSteps (softResetBody (beaten (startSteps 0x01 s) 1))

theorem softResetLeft_setSeq (s : State) (x : Sequencer) : softResetLeft (s.setSeq x) =
    { s with
      status := { busy := false, err := false, errSticky := false, errCode := 0, lastOp := 0x01 }
      irq := irqPended s.irq
      results := Results.zero
      counts := Vector.replicate 257 0
      tree := Tree.none
      codes := Codes.empty
      bw := { n := 0, buf := 0 }
      br := { rem := 0, cur := 0 }
      seq := Sequencer.idle } := by
  cases s
  rfl

theorem runWord_softReset (hv : opField v = 0x01) (hq : s.quiet) : runWord v s = .next (softResetLeft s) :=
  (runWord_decoded (decode_softReset hv) s).trans (exec_softReset _ hq)

/-- SOFT_RESET with no access falling while it runs. -/
theorem overlapped_softReset_alone (hv : opField v = 0x01) (hq : s.quiet) : overlapped v [] [] s = .next (softResetLeft s) :=
  (runBusy_alone hq rfl rfl (runWord_softReset hv hq)).1

/-- SOFT_RESET with one read of STATUS while it runs. -/
theorem overlapped_softReset_status {p : Params} (hp : s.par = p) (hv : opField v = 0x01) (hq : s.quiet) :
    overlapped v [] [.regRead .word (p.regBase + 0x0C)] s =
      .next ((statusRead (opField v) s (softResetLeft s)).setSeq Sequencer.idle) := by
  subst hp
  refine (overlapped_access rfl HostAccess.noConfusion).trans ?_
  refine (runBusy_alone hq rfl (by simp [busyRefusal_status]) (runWord_softReset hv hq)).1.trans ?_
  rw [List.nil_append, settleAll_status rfl]
  rfl

/-! ### Reads of STATUS, before a command is stopped and after -/

/-- One register read while a command runs. -/
theorem runBusy_regRead (hq : s.quiet) (ho : off < 256) (h4 : off % 4 = 0) (ht : runWord w s = .next t) : ∃ (r : Word) (n : Nat),
    runBusy w [.regRead .word (s.par.regBase + off)] false s =
      .next { t with host := { t.host with readLog := r :: t.host.readLog, draws := n } } ∧
    (off = 0x00 → r = Config.idValue) ∧ (off = 0x04 → r = capsWord t.par) ∧
    (off = 0x0C → r = statusWord (busyStatus (opField w) s t)) := by
  obtain ⟨r, n, hset, hr⟩ := settleAccess_regRead (opField w) s t s.dst ho h4
  obtain ⟨hrun, hidle⟩ := runBusy_alone (during := [.regRead .word (s.par.regBase + off)]) hq rfl
    (by simp [busyRefusal_regRead s.par ho h4]) ht
  exact ⟨r, n, hrun.trans (congrArg Host.Outcome.next (setSeq_idle_host (congrArg Prod.snd hset) hidle)), hr⟩

/-- Two reads of STATUS while a command runs. -/
theorem runBusy_statusReads (hq : s.quiet) (ht : runWord w s = .next t) : ∃ (r₁ r₂ : Word) (n : Nat),
    runBusy w [.regRead .word (s.par.regBase + 0x0C), .regRead .word (s.par.regBase + 0x0C)] false s =
      .next { t with host := { t.host with readLog := r₂ :: r₁ :: t.host.readLog, draws := n } } ∧
    busyStatusWord w s.status.errSticky r₁ ∧ busyStatusWord w s.status.errSticky r₂ ∧
    (r₂.getLsbD 2 = true → r₁.getLsbD 2 = true) := by
  obtain ⟨hrun, hidle⟩ := runBusy_alone
    (during := [.regRead .word (s.par.regBase + 0x0C), .regRead .word (s.par.regBase + 0x0C)]) hq rfl (by simp [busyRefusal_status]) ht
  rw [settleAll_status rfl, settleAll_status rfl, settleAll] at hrun
  have hreads := statusRead_eq (opField w) s (statusRead (opField w) s t)
  refine ⟨_, _, _, hrun.trans (congrArg Host.Outcome.next (setSeq_idle_host (t := t) hreads hidle)),
    busyStatusWord_statusWord busyStatus_start, busyStatusWord_statusWord busyStatus_start, fun h => ?_⟩
  rw [sticky_statusWord] at h ⊢
  exact busyStatus_sticky (t := statusRead (opField w) s t) rfl (Nat.sub_le_sub_right (Nat.le_succ _) _) h

/-- A read of STATUS while SOFT_RESET runs that has stopped the command of `w`. -/
theorem overlapped_stop_read (w : Word) (h : s.bodyLegal) (hv : opField v = 0x01) :
    answers (overlapped w [] [.regWrite .word (s.par.regBase + 0x08) v, .regRead .word (s.par.regBase + 0x0C)] s) fun t =>
      ∃ r : Word, t.host.readLog = r :: s.host.readLog ∧ busyStatusWord v s.status.errSticky r := by
  obtain ⟨u, hu, hstop⟩ := overlapped_stopped w (during := []) h hv rfl
  have hsoft := overlapped_softReset_status (s := u.setSeq Sequencer.idle) hu.par hv rfl
  exact ⟨_, (hstop _).trans hsoft, _, congrArg (_ :: ·) hu.readLog,
    busyStatusWord_statusWord fun hb => hu.sticky (busyStatus_start hb)⟩

/-- A read of STATUS while the command of `w` runs, and one while SOFT_RESET runs that then stops it. -/
theorem overlapped_read_stop_read (w : Word) (h : s.bodyLegal) (hv : opField v = 0x01) :
    answers (overlapped w [] [.regRead .word (s.par.regBase + 0x0C), .regWrite .word (s.par.regBase + 0x08) v,
      .regRead .word (s.par.regBase + 0x0C)] s) fun t => ∃ r₁ r₂ : Word, t.host.readLog = r₂ :: r₁ :: s.host.readLog ∧
        busyStatusWord w s.status.errSticky r₁ ∧ busyStatusWord v s.status.errSticky r₂ ∧
        (r₂.getLsbD 2 = true → r₁.getLsbD 2 = true) := by
  obtain ⟨u, hu, hstop⟩ := overlapped_stopped w (during := [.regRead .word (s.par.regBase + 0x0C)]) h hv (by simp [busyRefusal_status])
  rw [settleAll_status rfl, settleAll] at hstop
  generalize hx : (statusRead (opField w) s u).setSeq Sequencer.idle = x at hstop
  have hstatus : x.status = u.status := by rw [← hx]; rfl
  have hlog : x.host.readLog = statusWord (busyStatus (opField w) s u) :: s.host.readLog := by
    rw [← hx, ← hu.readLog]; rfl
  have hsoft := overlapped_softReset_status (s := x) (p := s.par) (by rw [← hx]; exact hu.par) hv (by rw [← hx]; rfl)
  have hsticky {z : State} (hb : (busyStatus (opField v) x z).errSticky = true) : u.status.errSticky = true := by
    rw [← hstatus]; exact busyStatus_start hb
  refine ⟨_, (overlapped_access rfl HostAccess.noConfusion).trans ((hstop _).trans hsoft), statusWord (busyStatus (opField w) s u), _,
    congrArg (_ :: ·) hlog, busyStatusWord_statusWord busyStatus_start,
    busyStatusWord_statusWord fun hb => hu.sticky (hsticky hb), fun hb => ?_⟩
  rw [sticky_statusWord] at hb ⊢
  exact busyStatus_of_sticky (hsticky hb) (hu.sticky (hsticky hb))

/-- Settles O58: a read that falls while a command runs is settled after it (`runBusy_regRead`), STATUS with a value that never turns from
0 to 1 (`runBusy_statusReads`), and a stopped command has set no ERR_STICKY (`overlapped_read_stop_read`, `overlapped_stop_read`). -/
theorem readsWhileBusyShowTheRunningCommand : Obligations.ReadsWhileBusyShowTheRunningCommand := by
  refine ⟨?_, ?_, ?_, ?_⟩
  · intro s t w off rest hq ho h4 hbus hr ht
    have halone := runWord_withBus hr ht
    obtain ⟨r, n, hrun, hid, hcaps, hstatus⟩ := runBusy_regRead (s := withBus s rest) hq ho h4 halone
    refine ⟨r, n, (step_withBus (ops := [_]) hq hr hbus).trans hrun, hid, fun h => ?_, fun h => ?_⟩
    · rw [hcaps h, runWord_par halone]
      exact capsWord_eq s.par
    · rw [hstatus h]
      refine ⟨busyStatusWord_statusWord busyStatus_start, fun hw => ?_⟩
      rw [sticky_statusWord]
      exact busyStatus_errSticky hw
  · intro s t w rest hq hbus hr ht
    obtain ⟨r₁, r₂, n, hrun, hreads⟩ := runBusy_statusReads (s := withBus s rest) hq (runWord_withBus hr ht)
    exact ⟨r₁, r₂, n, (step_withBus (ops := [_, _]) hq hr hbus).trans hrun, hreads⟩
  · intro s w v rest ⟨hq, _, hb⟩ hv hbus hr
    rw [step_withBus (ops := [_, _, _]) hq hr hbus]
    exact overlapped_read_stop_read (s := withBus s rest) w hb hv
  · intro s w v rest ⟨hq, _, hb⟩ hv hbus hr
    rw [step_withBus (ops := [_, _]) hq hr hbus]
    exact overlapped_stop_read (s := withBus s rest) w hb hv

/-! ### SOFT_RESET while a command runs -/

/-- The positions apart, the host's registers are as before where each of them is. -/
theorem ports_eq {x y : Ports} (hl : x.srcLen = y.srcLen) (hc : x.dstCap = y.dstCap) (hd : x.dataIn = y.dataIn) :
    x = { y with srcPos := x.srcPos, dstPos := x.dstPos } := by
  cases x; cases y; cases hl; cases hc; cases hd; rfl

/-- Settles O60: the command is stopped where it was still running (`overlapped_stopped`), and SOFT_RESET clears the codec state
(`softResetLeft`). -/
theorem softResetStopsTheRunningCommand : Obligations.SoftResetStopsTheRunningCommand := by
  intro s w v rest ⟨hq, _, hb⟩ hv hbus hr
  obtain ⟨u, hu, hstop⟩ := overlapped_stopped (s := withBus s rest) w (during := []) hb hv rfl
  rw [step_withBus (ops := [_]) hq hr hbus]
  refine ⟨_, (hstop []).trans (overlapped_softReset_alone hv rfl), ?_⟩
  rw [settleAll, softResetLeft_setSeq]
  exact ⟨rfl, congrArg irqPended hu.irq, rfl, rfl, rfl, rfl, rfl, rfl, rfl, ports_eq hu.srcLen hu.dstCap hu.dataIn, hu.src, hu.par,
    hu.bus, hu.readLog, hu.le, hu.frame⟩

/-! ### Races -/

/-- A DST byte that the host writes while a command runs ends as the host's value, or, if the command wrote it too, as the command's. -/
theorem settleAccess_dstWrite (op : BitVec 8) (start t : State) (a : Word) (v : Byte) (old : List Host.Cell) :
    ∃ d, (settleAccess op start (.dstWrite a v) old t).2 = (t.setDst d).setHost { t.host with draws := t.host.draws + 1 } ∧
      (memoryGet d a.toNat = v ∨ (start.ports.dstPos.toNat ≤ a.toNat ∧ a.toNat < t.ports.dstPos.toNat ∧
        memoryGet d a.toNat = memoryGet t.dst a.toNat)) ∧
      ∀ b : Nat, b ≠ a.toNat → memoryGet d b = memoryGet t.dst b := by
  simp only [settleAccess]
  split_ifs with hw
  · obtain ⟨hle, hlt⟩ := Bool.and_eq_true_iff.mp (Bool.and_eq_true_iff.mp hw).1
    exact ⟨t.dst, rfl, Or.inr ⟨of_decide_eq_true hle, of_decide_eq_true hlt, rfl⟩, fun _ _ => rfl⟩
  · exact ⟨memoryPut t.dst a.toNat v, rfl, Or.inl ((memoryGet_memoryPut ..).trans (if_pos rfl)),
      fun b hb => (memoryGet_memoryPut ..).trans (if_neg hb.symm)⟩

/-- A read of a source byte while no access stops the command shows the byte's old value or one the host writes meanwhile. -/
theorem memRead_raced (addr : Word) (hn : s.seq.stopAt = none) : ∃ (v : Byte) (n : Nat),
    memRead addr s = .ok v ((beaten s 1).setHost { s.host with draws := n }) ∧
    (v = memoryGet s.src addr.toNat ∨ (addr.toNat, v) ∈ s.seq.races) := by
  have hb : beat s = .ok () (beaten s 1) := (beat_cases s).resolve_left fun h => by rw [hn] at h; cases h.1
  rw [memRead, hb]
  by_cases hr : s.seq.races = []
  · exact ⟨_, s.host.draws, if_pos hr, Or.inl rfl⟩
  · exact ⟨_, _, if_neg hr, racedValue_mem ..⟩

/-- Settles O59: `memRead_raced`; SRC ends with the host's byte, as no command writes it (`runWord_leftBy`); and a raced DST byte is settled
after the command (`settleAccess_dstWrite`), as a read of it is. -/
theorem racesShowTheOldOrTheNewByte : Obligations.RacesShowTheOldOrTheNewByte := by
  refine ⟨fun s addr hn => memRead_raced addr hn, ?_, ?_⟩
  · intro s w a v rest ⟨hq, _, hb⟩ hbus hr
    rw [step_withBus (ops := [_]) hq hr hbus]
    refine runBusy_answers (during := [.srcWrite a v]) rfl
      (runWord_leftBy w (armed_bodyLegal (s := withBus s rest) _ false hb)) fun t ht b => ?_
    have hsrc : t.src = s.src := ht.src
    rw [← hsrc]
    exact (memoryGet_memoryPut t.src a.toNat b v).trans (if_congr eq_comm rfl rfl)
  · intro s t w a v rest hq hr ht
    have halone := runWord_withBus hr ht
    refine ⟨fun hbus => ?_, fun hbus => ?_⟩
    · obtain ⟨hrun, hidle⟩ := runBusy_alone (s := withBus s rest) (during := [.dstWrite a v]) hq rfl rfl halone
      rw [step_withBus (ops := [_]) hq hr hbus]
      obtain ⟨d, hset, hd⟩ := settleAccess_dstWrite (opField w) (withBus s rest) t a v s.dst
      exact ⟨d, t.host.draws + 1, hrun.trans (congrArg Host.Outcome.next (setSeq_idle_host (t := t.setDst d) hset hidle)), hd⟩
    · obtain ⟨hrun, hidle⟩ := runBusy_alone (s := withBus s rest) (during := [.dstRead a]) hq rfl rfl halone
      rw [step_withBus (ops := [_]) hq hr hbus]
      refine ⟨memoryGet (if Config.raceShowsNew t.host.draws then t.dst else s.dst) a.toNat, t.host.draws + 1,
        hrun.trans (congrArg Host.Outcome.next (setSeq_idle_host rfl hidle)), ?_⟩
      split_ifs
      · exact Or.inr rfl
      · exact Or.inl rfl

end Sys2Proof.Machine
end
